-- ==== Sys2Proof/Word.lean ====
section
/-! DEFINITION. The machine's words: a sample, a data word, a host byte address (R7, R60). -/

namespace Sys2Proof

/-- One unsigned 8-bit sample, the byte of every host-visible buffer (R7 `SAMPLE_BITS`, R36). -/
abbrev Byte := BitVec 8

/-- One 32-bit host data word (R7 `DATA_BITS`). -/
abbrev Word := BitVec 32

/-- A 24-bit host byte address (R7 `ADDR_BITS`, R61). -/
abbrev Addr := BitVec 24

end Sys2Proof
end

