-- ==== Sys2Proof/Config.lean ====
section
/-! DEFINITION. What an implementation fixes (the spec's two open parameters, R7, R39) and the values the spec
leaves free (U1). A free value is an opaque constant: nothing in Lean can evaluate it. -/

namespace Sys2Proof.Config

/-- The parameters of the hardware that R7 leaves open: the capacity `MAXPIX` of a single-channel buffer in
pixels and the grey weights. They are fixed for a machine, so the machine carries them as constant data and a
statement about every state holds for every choice of them (log entry 3). -/
structure Params where
  /-- `MAXPIX` (R7, D28). -/
  maxPix : Nat
  /-- `GW0`, the weight of channel 0 (R7, R152). -/
  gw0 : Nat
  /-- `GW1`, the weight of channel 1 (R7, R152). -/
  gw1 : Nat
  /-- `GW2`, the weight of channel 2 (R7, R152). -/
  gw2 : Nat
deriving DecidableEq, Repr

/-- `GDEN`, which R7 requires to be the sum of the weights, so it is no parameter of its own. -/
def Params.gden (p : Params) : Nat := p.gw0 + p.gw1 + p.gw2

/-- The stated default of every parameter (R7). -/
def defaults : Params := ⟨1048576, 299, 587, 114⟩

/-- U1: the byte at a host address (R63) that nothing has written since reset number `epoch`: any value, the same
at every read (DESIGN CHOICE, log entry 1: the form of the free value). -/
opaque unwrittenByte : (epoch address : Nat) → BitVec 8

/-- U1: the entry of `FLD_MAG2` that nothing has written since reset number `epoch` (log entry 1). -/
opaque unwrittenFldMag2 : (epoch pixel : Nat) → BitVec 32

/-- U1: the entry of `FLD_DIR` that nothing has written since reset number `epoch` (log entry 1). -/
opaque unwrittenFldDir : (epoch pixel : Nat) → BitVec 2

/-- U1: the entry of `NMS_MAG2` that nothing has written since reset number `epoch` (log entry 1). -/
opaque unwrittenNmsMag2 : (epoch pixel : Nat) → BitVec 32

end Sys2Proof.Config
end

