-- ==== Sys2Proof/Machine/Memory.lean ====
section
/-! DEFINITION. Sparse storage: the one form in which the host-visible buffers and the field buffers are held.
A store lists the elements written since reset, by index, in strictly rising order; an index that is not listed has
no written value (what the machine reads there is decided once, in Operands.lean: a free value, U1). -/

namespace Sys2Proof.Machine

/-- A store of elements by index. -/
abbrev Sparse (α : Type) := List (Nat × α)

/-- The host-visible buffers' storage: bytes by host address (R61, R63). -/
abbrev Memory := List Host.Cell

/-- The element written at an index, none if nothing has written it since reset. -/
def sparseFind {α : Type} : Sparse α → Nat → Option α
  | [], _ => none
  | (k, v) :: rest, a => if k = a then some v else sparseFind rest a

/-- Write one element, keeping the order. -/
def sparseSet {α : Type} : Sparse α → Nat → α → Sparse α
  | [], a, v => [(a, v)]
  | (k, w) :: rest, a, v =>
    if a < k then (a, v) :: (k, w) :: rest
    else if a = k then (a, v) :: rest
    else (k, w) :: sparseSet rest a v

/-- Write the `n` elements `f 0 … f (n-1)` at the indices `base … base + n - 1`, all at once (a stage's whole output,
R76), leaving every other index alone. -/
def sparseFill {α : Type} (m : Sparse α) (base n : Nat) (f : Nat → α) : Sparse α :=
  m.filter (fun c => decide (c.1 < base))
    ++ (List.range n).map (fun k => (base + k, f k))
    ++ m.filter (fun c => decide (base + n ≤ c.1))

/-- The indices rise strictly from `lo` on. -/
def sparseRisesFrom {α : Type} : Nat → Sparse α → Bool
  | _, [] => true
  | lo, (k, _) :: rest => decide (lo ≤ k) && sparseRisesFrom (k + 1) rest

/-- The canonical form: strictly rising indices. With it, stores that hold the same written elements are equal. -/
def sparseWf {α : Type} (m : Sparse α) : Bool := sparseRisesFrom 0 m

/-- The canonical form of the buffers' memory. An unlisted address has no written value, so no listed entry can
equal what an unlisted address holds (log entry 1). -/
def Memory.wf (m : Memory) : Bool := sparseWf m

end Sys2Proof.Machine
end

