-- ==== Sys2Proof/Machine/ResetValues.lean ====
section
/-! DEFINITION. The reset values the spec states for the registers (R22, R34, R40), each under the register's name. -/

namespace Sys2Proof.Machine

/-- Reset value of `CHANNELS` (R22, R40). -/
def resetChannels : BitVec 8 := 3

/-- Reset value of `KSIZE` (R22, R34). -/
def resetKsize : BitVec 8 := 5

/-- Reset value of `KSHIFT` (R22, R34). -/
def resetKshift : BitVec 5 := 16

/-- Reset value of `THRESH_LOW` (R22, R40). -/
def resetThreshLow : BitVec 16 := 50

/-- Reset value of `THRESH_HIGH` (R22, R40). -/
def resetThreshHigh : BitVec 16 := 150

/-- The default kernel (R34), as R34 writes it out, row by row of seven: entries outside the 5 by 5 corner are 0. -/
def resetKcoef : Vector (BitVec 16) 49 := #v[
   784, 1708, 2184, 1708,  784, 0, 0,
  1708, 3721, 4758, 3721, 1708, 0, 0,
  2184, 4758, 6084, 4758, 2184, 0, 0,
  1708, 3721, 4758, 3721, 1708, 0, 0,
   784, 1708, 2184, 1708,  784, 0, 0,
     0,    0,    0,    0,    0, 0, 0,
     0,    0,    0,    0,    0, 0, 0]

end Sys2Proof.Machine
end

