-- ==== Sys2Proof/Syntax.lean ====
section
/-! DEFINITION. The instructions: one constructor per row of spec/opcode_table.json, and the host request of
format BUS (R91) that carries two of them. -/

namespace Sys2Proof

/-- The seven commands of format CMDW (R92) and the two host transactions of format BUS (R91). A command has no
operand field (R93: every operand is implicit). Each operand has the width its encoding gives it. -/
inductive Instr where
  /-- `GRAY`, opcode 0x01 (R153). -/
  | gray
  /-- `SMOOTH`, opcode 0x02 (R157). -/
  | smooth
  /-- `PREPROCESS`, opcode 0x03 (R159). -/
  | preprocess
  /-- `GRADIENT`, opcode 0x04 (R185). -/
  | gradient
  /-- `NMS`, opcode 0x05 (R188). -/
  | nms
  /-- `HYST`, opcode 0x06 (R193). -/
  | hyst
  /-- `DETECT`, opcode 0x07 (R195). -/
  | detect
  /-- `HRD`, a host read (R111); `be` and `wdata` of the request are ignored, so they are no operands. -/
  | hrd (addr : Addr)
  /-- `HWR`, a host write (R112). -/
  | hwr (addr : Addr) (be : BitVec 4) (wdata : Word)
deriving DecidableEq, Repr

/-- A host transaction's request, format BUS (R60, R91). -/
structure Request where
  /-- 1 for a write, 0 for a read. -/
  we : Bool
  /-- The byte address. -/
  addr : Addr
  /-- The byte enables; bit `k` governs data bits `[8k+7:8k]` (R64). -/
  be : BitVec 4
  /-- The write data. -/
  wdata : Word
deriving DecidableEq, Repr

end Sys2Proof
end

