-- ==== Sys2Proof/Machine/State.lean ====
section
/-! DEFINITION. The state of the core (R20): every register, the kernel coefficients, the buffers and the field
buffers, as plain data; the events still to happen and the last response, which are the model's own; the outcomes
other than a next state. -/

namespace Sys2Proof.Machine

/-- `STATUS.ERR` (R220). Codes 8 to 15 are never produced (U6), so the field has these eight values only. -/
inductive ErrCode where
  /-- Code 0: the command succeeded. -/
  | none
  /-- Code 1: `CHANNELS ≠ 3` (R222). -/
  | invalidChannelCount
  /-- Code 2: the kernel size conditions (R223). -/
  | invalidKernelSize
  /-- Code 3: smaller than 3 by 3 (R224). -/
  | dimensionTooSmall
  /-- Code 4: `THRESH_LOW ≥ THRESH_HIGH` (R228). -/
  | invalidThresholds
  /-- Code 5: zero or oversize dimensions (R226). -/
  | badConfig
  /-- Code 6: `PSTATE` is not the required predecessor (R227). -/
  | badSequence
  /-- Code 7: a reserved opcode (R225). -/
  | illegalCommand
deriving DecidableEq, Repr

/-- `STATUS.PSTATE` (R30): which field buffers hold a consistent field for the current dimensions. -/
inductive PState where
  /-- 0: no valid field. -/
  | raw
  /-- 1: `FLD_MAG2`, `FLD_DIR` hold the gradient field. -/
  | gradient
  /-- 2: `NMS_MAG2`, `FLD_DIR` hold the suppressed field. -/
  | suppressed
  /-- 3: `BUF_EDGE` holds the edge map. -/
  | thresholded
deriving DecidableEq, Repr

/-- A host transaction's response (R60): `err`, and `rdata` (0 unless a read answers `err = 0`). -/
structure Response where
  /-- The transaction was refused. -/
  err : Bool
  /-- The data read. -/
  rdata : Word
deriving DecidableEq, Repr

/-- An event that may happen next (R9). The spec fixes no order between the host's transactions and the engine's
completion step (R135, U3), so the order is data (log entry 4). -/
inductive Event where
  /-- The host issues a transaction (R60). -/
  | host (r : Request)
  /-- The engine gets its turn: its completion step if a command is in execution (R133), else nothing (R130). -/
  | engine
  /-- `rst_n` is asserted (R250). -/
  | reset
deriving DecidableEq, Repr

/-- The state of the core. `cfg`, `epoch`, `pending` and `resp` are the model's own (log entries 3, 2, 4, 6); every
other field is named by R20. -/
@[ext]
structure State where
  /-- The machine's parameters (R7, R39), constant. -/
  cfg : Config.Params
  /-- `CTRL.IE` (R25). -/
  ie : Bool
  /-- `STATUS.BUSY` (R26). -/
  busy : Bool
  /-- `STATUS.DONE` (R26). -/
  done : Bool
  /-- `STATUS.ERR` (R26). -/
  err : ErrCode
  /-- `STATUS.PSTATE` (R26, R30). -/
  pstate : PState
  /-- `CMD.OP` (R27). -/
  op : BitVec 8
  /-- `WIDTH` (R28). -/
  width : BitVec 16
  /-- `HEIGHT` (R28). -/
  height : BitVec 16
  /-- `CHANNELS` (R28). -/
  channels : BitVec 8
  /-- `KSIZE` (R28). -/
  ksize : BitVec 8
  /-- `KSHIFT` (R28). -/
  kshift : BitVec 5
  /-- `THRESH_LOW` (R28). -/
  threshLow : BitVec 16
  /-- `THRESH_HIGH` (R28). -/
  threshHigh : BitVec 16
  /-- `KCOEF[i][j]` at position `7*i + j` (R33). -/
  kcoef : Vector (BitVec 16) 49
  /-- The four host-visible buffers, by host byte address (R36, R63). -/
  mem : Memory
  /-- `FLD_MAG2`, by pixel index (R37). -/
  fldMag2 : Sparse (BitVec 32)
  /-- `FLD_DIR`, by pixel index (R37). -/
  fldDir : Sparse (BitVec 2)
  /-- `NMS_MAG2`, by pixel index (R37). -/
  nmsMag2 : Sparse (BitVec 32)
  /-- How many resets there have been: what the free contents of the buffers depend on (U1). -/
  epoch : Nat
  /-- The events still to happen, the next one first. -/
  pending : List Event
  /-- The response to the most recent transaction since reset, none before the first. -/
  resp : Option Response
deriving DecidableEq, Repr

/-- Reasons for the machine to stop with a fault: there are none. Every command error completes the command and
leaves the core fully usable (R232), and every bus refusal is a response (R234). Safe: no claim can rest on a stop. -/
inductive Fault where
deriving DecidableEq, Repr

/-- Reasons to have no meaning for an instruction. -/
inductive Refusal where
  /-- Raised by exec's arm for an instruction that has no meaning yet; no arm raises it now. Safe: the model stops. -/
  | notModelled (mnemonic : String)
deriving DecidableEq, Repr

/-- The machine right after reset (R40, R251), with the default parameters (R7) and nothing pending. The buffers
and field buffers list nothing: every element is a free value (U1). -/
def State.reset : State where
  cfg := Config.defaults
  ie := false
  busy := false
  done := false
  err := .none
  pstate := .raw
  op := 0
  width := 0
  height := 0
  channels := resetChannels
  ksize := resetKsize
  kshift := resetKshift
  threshLow := resetThreshLow
  threshHigh := resetThreshHigh
  kcoef := resetKcoef
  mem := []
  fldMag2 := []
  fldDir := []
  nmsMag2 := []
  epoch := 0
  pending := []
  resp := none

end Sys2Proof.Machine
end

