-- ==== Sys2Proof/Machine/Operands.lean ====
section
/-! DEFINITION. The operand forms: what a host address names (R22, R63, R110), the elements of the buffers (R36, R37,
U1), the implicit operands of the commands (R93) and the reads and sums every stage is made of (R11, R72, R155). -/

namespace Sys2Proof.Machine

/-! The host address map. -/

/-- The registers of R22. -/
inductive Reg where
  /-- `ID` (R24). -/
  | id
  /-- `CTRL` (R25). -/
  | ctrl
  /-- `STATUS` (R26). -/
  | status
  /-- `CMD` (R27). -/
  | cmd
  /-- `WIDTH` (R28). -/
  | width
  /-- `HEIGHT` (R28). -/
  | height
  /-- `CHANNELS` (R28). -/
  | channels
  /-- `KSIZE` (R28). -/
  | ksize
  /-- `KSHIFT` (R28). -/
  | kshift
  /-- `THRESH_LOW` (R28). -/
  | threshLow
  /-- `THRESH_HIGH` (R28). -/
  | threshHigh
  /-- `CAP_MAXPIX` (R22). -/
  | capMaxPix
  /-- `CAP_KMAX` (R22). -/
  | capKmax
  /-- `KCOEF[i][j]` (R33). -/
  | kcoef (i j : Fin 7)
deriving DecidableEq, Repr

/-- The host-visible buffers (R36). -/
inductive Buf where
  /-- `BUF_IN`. -/
  | input
  /-- `BUF_GRAY`. -/
  | gray
  /-- `BUF_SMOOTH`. -/
  | smooth
  /-- `BUF_EDGE`. -/
  | edge
deriving DecidableEq, Repr

/-- What an aligned host address names (R110). -/
inductive Target where
  /-- A register. -/
  | reg (r : Reg)
  /-- Byte `n` of a buffer is lane 0. -/
  | buf (b : Buf) (n : Nat)
  /-- Nothing. -/
  | unmapped
deriving DecidableEq, Repr

/-- The first host address of a buffer's window (R63, R110). -/
def Buf.base : Buf → Nat
  | .input => 0x400000
  | .gray => 0x800000
  | .smooth => 0x900000
  | .edge => 0xA00000

/-- The length of a buffer in bytes (R36, R110). -/
def Buf.length (cfg : Config.Params) : Buf → Nat
  | .input => 3 * cfg.maxPix
  | .gray => cfg.maxPix
  | .smooth => cfg.maxPix
  | .edge => cfg.maxPix

/-- The host address of a register (R22). -/
def Reg.addr : Reg → Nat
  | .id => 0x000
  | .ctrl => 0x004
  | .status => 0x008
  | .cmd => 0x00C
  | .width => 0x010
  | .height => 0x014
  | .channels => 0x018
  | .ksize => 0x01C
  | .kshift => 0x020
  | .threshLow => 0x024
  | .threshHigh => 0x028
  | .capMaxPix => 0x02C
  | .capKmax => 0x030
  | .kcoef i j => 0x100 + 4 * (8 * i.val + j.val)

/-- The coefficient register of row `i`, column `j`; the columns and rows numbered 7 are holes (R22). -/
def kcoefRegAt (i j : Nat) : Option Reg :=
  if h : i < 7 ∧ j < 7 then some (.kcoef ⟨i, h.1⟩ ⟨j, h.2⟩) else none

/-- The register at a word-aligned address, none at a hole (R22). -/
def regAt (a : Nat) : Option Reg :=
  if a = 0x000 then some .id
  else if a = 0x004 then some .ctrl
  else if a = 0x008 then some .status
  else if a = 0x00C then some .cmd
  else if a = 0x010 then some .width
  else if a = 0x014 then some .height
  else if a = 0x018 then some .channels
  else if a = 0x01C then some .ksize
  else if a = 0x020 then some .kshift
  else if a = 0x024 then some .threshLow
  else if a = 0x028 then some .threshHigh
  else if a = 0x02C then some .capMaxPix
  else if a = 0x030 then some .capKmax
  else if 0x100 ≤ a ∧ a < 0x200 then kcoefRegAt ((a - 0x100) / 32) ((a - 0x100) % 32 / 4)
  else none

/-- An address lies in a buffer's window (R63). -/
def Buf.holds (cfg : Config.Params) (b : Buf) (a : Nat) : Bool :=
  decide (b.base ≤ a) && decide (a < b.base + b.length cfg)

/-- `Target(addr)` for a word-aligned address (R110). -/
def targetOf (cfg : Config.Params) (addr : Addr) : Target :=
  let a := addr.toNat
  match regAt a with
  | some r => .reg r
  | none =>
    if Buf.holds cfg .input a then .buf .input (a - Buf.base .input)
    else if Buf.holds cfg .gray a then .buf .gray (a - Buf.base .gray)
    else if Buf.holds cfg .smooth a then .buf .smooth (a - Buf.base .smooth)
    else if Buf.holds cfg .edge a then .buf .edge (a - Buf.base .edge)
    else .unmapped

/-- `addr[1:0] = 0` (R65). -/
def aligned (addr : Addr) : Bool := decide (addr.toNat % 4 = 0)

/-! The elements of the buffers. An element nothing has written since reset is a free value (U1). -/

/-- The byte at a host address of a buffer (R36, R63). -/
def State.byte (s : State) (a : Nat) : Byte := (sparseFind s.mem a).getD (Config.unwrittenByte s.epoch a)

/-- `B[n]`: byte `n` of a host-visible buffer (R12, R36). -/
def State.sample (s : State) (b : Buf) (n : Nat) : Byte := s.byte (b.base + n)

/-- `FLD_MAG2[n]` (R37). -/
def State.fldMag2At (s : State) (n : Nat) : BitVec 32 :=
  (sparseFind s.fldMag2 n).getD (Config.unwrittenFldMag2 s.epoch n)

/-- `FLD_DIR[n]` (R37). -/
def State.fldDirAt (s : State) (n : Nat) : BitVec 2 := (sparseFind s.fldDir n).getD (Config.unwrittenFldDir s.epoch n)

/-- `NMS_MAG2[n]` (R37). -/
def State.nmsMag2At (s : State) (n : Nat) : BitVec 32 :=
  (sparseFind s.nmsMag2 n).getD (Config.unwrittenNmsMag2 s.epoch n)

/-- The word at a host address: the byte at `a + k` in bits `[8k+7:8k]` (R64). -/
def State.wordAt (s : State) (a : Nat) : Word := s.byte (a + 3) ++ s.byte (a + 2) ++ s.byte (a + 1) ++ s.byte a

/-! The implicit operands (R93). -/

/-- `W` (R11). -/
def State.imgW (s : State) : Nat := s.width.toNat

/-- `H` (R11). -/
def State.imgH (s : State) : Nat := s.height.toNat

/-- `N = W*H` (R13, R71). -/
def State.pixels (s : State) : Nat := s.imgW * s.imgH

/-- The position of `KCOEF[i][j]` in the coefficient file (R33). -/
def kcoefIndex (i j : Nat) : Nat := 7 * i + j

/-- The 16 stored bits of `KCOEF[i][j]` (R33). -/
def State.kcoefBits (s : State) (i j : Nat) : BitVec 16 := s.kcoef.toList.getD (kcoefIndex i j) 0

/-- `KCOEF[i][j]` as a signed integer (R12, R33). -/
def State.coef (s : State) (i j : Nat) : Int := (s.kcoefBits i j).toInt

/-! Reads and sums over an image. -/

/-- `clamp(v, lo, hi)` (R10). -/
def clampInt (v lo hi : Int) : Int := if v < lo then lo else if hi < v then hi else v

/-- The index of the pixel `pxc` reads: each coordinate clamped to the image (R72). -/
def clampedIndex (w h : Nat) (x y : Int) : Nat :=
  (clampInt y 0 ((h : Int) - 1)).toNat * w + (clampInt x 0 ((w : Int) - 1)).toNat

/-- `pxc(B, x, y)`: the edge-replicating read (R12, R72). -/
def pxc (image : Nat → Nat) (w h : Nat) (x y : Int) : Nat := image (clampedIndex w h x y)

/-- The sum of `term 0 … term (n-1)`. -/
def sumTo (n : Nat) (term : Nat → Int) : Int := ((List.range n).map term).sum

/-- The `k` by `k` sum at pixel `(x, y)`, not flipped: coefficient `(i, j)` meets the pixel `i - r` rows below and
`j - r` columns to the right, `r = (k-1)/2` (R155, R156, R181). -/
def convolve (k : Nat) (coef : Nat → Nat → Int) (image : Nat → Nat) (w h x y : Nat) : Int :=
  sumTo k fun i => sumTo k fun j =>
    coef i j * (pxc image w h ((x : Int) + j - ((k - 1) / 2 : Nat)) ((y : Int) + i - ((k - 1) / 2 : Nat)) : Int)

end Sys2Proof.Machine
end

