-- ==== Sys2Proof/Machine/Flags.lean ====
section
/-! DEFINITION. The status fields (R26, R32), the interrupt level (R41), and the checks that decide a command's error
code (R132, R230). -/

namespace Sys2Proof.Machine

/-- The 4-bit code of an error (R220). -/
def ErrCode.code : ErrCode → BitVec 4
  | .none => 0
  | .invalidChannelCount => 1
  | .invalidKernelSize => 2
  | .dimensionTooSmall => 3
  | .invalidThresholds => 4
  | .badConfig => 5
  | .badSequence => 6
  | .illegalCommand => 7

/-- The 2-bit code of a stage state (R26, R30). -/
def PState.code : PState → BitVec 2
  | .raw => 0
  | .gradient => 1
  | .suppressed => 2
  | .thresholded => 3

/-- The read value of `STATUS`: `{22 zeros, PSTATE, ERR, 2 zeros, DONE, BUSY}` (R113). -/
def State.statusWord (s : State) : Word :=
  (0 : BitVec 22) ++ s.pstate.code ++ s.err.code ++ (0 : BitVec 2) ++ BitVec.ofBool s.done ++ BitVec.ofBool s.busy

/-- The interrupt output `irq = STATUS.DONE AND CTRL.IE` (R41, R233). -/
def State.irq (s : State) : Bool := s.done && s.ie

/-! The checks, each none when it passes (R132). -/

/-- Check 2: `W = 0`, `H = 0` or `W*H > MAXPIX` (R226). -/
def checkDimensions (s : State) : Option ErrCode :=
  if s.imgW = 0 ∨ s.imgH = 0 ∨ s.cfg.maxPix < s.pixels then some .badConfig else none

/-- Check 3: the stage state a command requires (R227). -/
def checkSequence (required : PState) (s : State) : Option ErrCode :=
  if s.pstate = required then none else some .badSequence

/-- The grey stage's precondition (R151, R222). -/
def checkChannels (s : State) : Option ErrCode := if s.channels = 3 then none else some .invalidChannelCount

/-- The smooth stage's precondition: `k` even, below 3, above 7, or larger than the image (R154, R223). -/
def checkKernel (s : State) : Option ErrCode :=
  if s.ksize.toNat % 2 = 0 ∨ s.ksize.toNat < 3 ∨ 7 < s.ksize.toNat ∨ s.imgW < s.ksize.toNat ∨ s.imgH < s.ksize.toNat
  then some .invalidKernelSize else none

/-- The gradient stage's precondition (R185, R224). -/
def checkMinimum (s : State) : Option ErrCode :=
  if s.imgW < 3 ∨ s.imgH < 3 then some .dimensionTooSmall else none

/-- The threshold stage's precondition (R190, R228). -/
def checkThresholds (s : State) : Option ErrCode :=
  if s.threshHigh.toNat ≤ s.threshLow.toNat then some .invalidThresholds else none

/-- The first error of a list of checks in order, none if all pass (R132, R230). -/
def firstError : List (Option ErrCode) → Option ErrCode
  | [] => none
  | some e :: _ => some e
  | none :: rest => firstError rest

/-- The checks of `GRAY`, in order (R132, R153). -/
def checksGray (s : State) : Option ErrCode := firstError [checkDimensions s, checkChannels s]

/-- The checks of `SMOOTH`, in order (R132, R157). -/
def checksSmooth (s : State) : Option ErrCode := firstError [checkDimensions s, checkKernel s]

/-- The checks of `PREPROCESS`, in order (R132, R159). -/
def checksPreprocess (s : State) : Option ErrCode := firstError [checkDimensions s, checkChannels s, checkKernel s]

/-- The checks of `GRADIENT`, in order (R132, R185). -/
def checksGradient (s : State) : Option ErrCode := firstError [checkDimensions s, checkMinimum s]

/-- The checks of `NMS`, in order (R132, R188). -/
def checksNms (s : State) : Option ErrCode := firstError [checkDimensions s, checkSequence .gradient s]

/-- The checks of `HYST`, in order (R132, R193). -/
def checksHyst (s : State) : Option ErrCode :=
  firstError [checkDimensions s, checkSequence .suppressed s, checkThresholds s]

/-- The checks of `DETECT`, in order (R132, R195). -/
def checksDetect (s : State) : Option ErrCode := firstError [checkDimensions s, checkMinimum s, checkThresholds s]

end Sys2Proof.Machine
end

