-- ==== Sys2Proof/Machine/Ops.lean ====
section
/-! DEFINITION. The shared operations: answering a transaction, reading and writing registers and buffer words (R111 to
R120), starting a command (R131), its completion step with the failure entry and the acknowledgement (R133, R231,
R232), and the reset event (R250). -/

namespace Sys2Proof.Machine

/-! Answering a transaction. -/

/-- The state with the response the host port gives (R60). -/
def State.respond (s : State) (err : Bool) (rdata : Word) : State := { s with resp := some ⟨err, rdata⟩ }

/-- A refused transaction: `err = 1`, `rdata = 0`, no other effect (R120, R234). -/
def State.refuse (s : State) : State := s.respond true 0

/-- An accepted write: `err = 0`, `rdata = 0` (R60, R112). -/
def State.accept (s : State) : State := s.respond false 0

/-! Starting and completing a command. -/

/-- The start of a command by an accepted write of `CMD` (R131). -/
def State.startCommand (s : State) (op : BitVec 8) : State :=
  { s with op := op, busy := true, done := false, err := .none }

/-- Failure entry, the one way a command's error is taken: `ERR` gets the code, `BUSY` falls, `DONE` rises, and
nothing else changes (R133, R231). -/
def State.failCommand (s : State) (e : ErrCode) : State := { s with err := e, busy := false, done := true }

/-- The end of a successful completion step, after its writes (R133). -/
def State.succeedCommand (s : State) : State := { s with err := .none, busy := false, done := true }

/-- Acknowledging a completion, what the host does in place of a return from an error: `DONE` falls, `ERR` stays
(R26, R232). -/
def State.ackDone (s : State) : State := { s with done := false }

/-- The completion step of a command whose checks give `error` and whose effect is `effect`. It is enabled exactly
when `BUSY = 1` (R133); when idle the engine does nothing (R130; log entry 7). -/
def State.complete (s : State) (error : Option ErrCode) (effect : State → State) : State :=
  if s.busy then
    match error with
    | some e => s.failCommand e
    | none => (effect s).succeedCommand
  else s

/-! Registers. -/

/-- `RegReadValue` (R113). -/
def State.regRead (s : State) : Reg → Word
  | .id => 0x49444537
  | .ctrl => (BitVec.ofBool s.ie).setWidth 32
  | .status => s.statusWord
  | .cmd => s.op.setWidth 32
  | .width => s.width.setWidth 32
  | .height => s.height.setWidth 32
  | .channels => s.channels.setWidth 32
  | .ksize => s.ksize.setWidth 32
  | .kshift => s.kshift.setWidth 32
  | .threshLow => s.threshLow.setWidth 32
  | .threshHigh => s.threshHigh.setWidth 32
  | .capMaxPix => BitVec.ofNat 32 s.cfg.maxPix
  | .capKmax => 7
  | .kcoef i j => (s.kcoefBits i.val j.val).setWidth 32

/-- `RegWrite` (R118): every field takes the low bits of the data (R21). -/
def State.regWrite (s : State) (r : Reg) (d : Word) : State :=
  match r with
  | .id => s
  | .ctrl => { s with ie := d.getLsbD 0 }
  | .status => if d.getLsbD 1 then s.ackDone else s
  | .cmd => s.startCommand (d.setWidth 8)
  | .width => { s with width := d.setWidth 16, pstate := .raw }
  | .height => { s with height := d.setWidth 16, pstate := .raw }
  | .channels => { s with channels := d.setWidth 8 }
  | .ksize => { s with ksize := d.setWidth 8 }
  | .kshift => { s with kshift := d.setWidth 5 }
  | .threshLow => { s with threshLow := d.setWidth 16 }
  | .threshHigh => { s with threshHigh := d.setWidth 16 }
  | .capMaxPix => s
  | .capKmax => s
  | .kcoef i j => { s with kcoef := s.kcoef.setIfInBounds (kcoefIndex i.val j.val) (d.setWidth 16) }

/-- The registers whose writes are refused while busy (R116). -/
def Reg.locked : Reg → Bool
  | .id => false
  | .ctrl => false
  | .status => false
  | .cmd => true
  | .width => true
  | .height => true
  | .channels => true
  | .ksize => true
  | .kshift => true
  | .threshLow => true
  | .threshHigh => true
  | .capMaxPix => false
  | .capKmax => false
  | .kcoef _ _ => true

/-! Buffer words. -/

/-- Write the enabled bytes among lanes `0 … n-1` of a word at a host address (R64, R66). -/
def writeLanes (be : BitVec 4) (d : Word) (a : Nat) : Nat → Memory → Memory
  | 0, m => m
  | n + 1, m =>
    let m' := writeLanes be d a n m
    if be.getLsbD n then sparseSet m' (a + n) (d.extractLsb' (8 * n) 8) else m'

/-- The memory after a word write under byte enables (R66, R112). -/
def State.writeWord (s : State) (a : Nat) (be : BitVec 4) (d : Word) : State :=
  { s with mem := writeLanes be d a 4 s.mem }

/-! The two transactions, on a state whose target is decoded. -/

/-- A read of a target (R111). -/
def State.readTarget (s : State) : Target → State
  | .unmapped => s.refuse
  | .buf b n => if s.busy then s.refuse else s.respond false (s.wordAt (b.base + n))
  | .reg r => s.respond false (s.regRead r)

/-- A write of a target (R112). -/
def State.writeTarget (s : State) (t : Target) (be : BitVec 4) (d : Word) : State :=
  match t with
  | .unmapped => s.refuse
  | .buf b n => if s.busy then s.refuse else (s.writeWord (b.base + n) be d).accept
  | .reg r =>
    if be ≠ 0b1111#4 then s.refuse
    else if s.busy ∧ r.locked then s.refuse
    else (s.regWrite r d).accept

/-! Reset. -/

/-- The reset event (R250): every register takes its reset value; every buffer element becomes unspecified, which a
new `epoch` with nothing listed says (U1); a command in execution is abandoned (R252). What is still to happen
outside the core stays pending, and the port has given no response (log entry 11). -/
def State.resetEvent (s : State) : State :=
  { State.reset with cfg := s.cfg, epoch := s.epoch + 1, pending := s.pending }

end Sys2Proof.Machine
end

