-- ==== Sys2Proof/Machine/EdgeDetect.lean ====
section
/-! DEFINITION. The EdgeDetector's stages and commands `GRADIENT`, `NMS`, `HYST`, `DETECT` (spec file
43_edge_detect.md). -/

namespace Sys2Proof.Machine

/-! The gradient stage. -/

/-- The horizontal derivative kernel `SX` (R181). -/
def sobelX (i j : Nat) : Int :=
  (([[-1, 0, 1], [-2, 0, 2], [-1, 0, 1]] : List (List Int)).getD i []).getD j 0

/-- The vertical derivative kernel `SY` (R181). -/
def sobelY (i j : Nat) : Int :=
  (([[-1, -2, -1], [0, 0, 0], [1, 2, 1]] : List (List Int)).getD i []).getD j 0

/-- `gx(x, y)` over an image (R181). -/
def gradX (image : Nat → Nat) (w h x y : Nat) : Int := convolve 3 sobelX image w h x y

/-- `gy(x, y)` over an image (R181). -/
def gradY (image : Nat → Nat) (w h x y : Nat) : Int := convolve 3 sobelY image w h x y

/-- The squared magnitude (R183). -/
def mag2Of (gx gy : Int) : Nat := (gx * gx + gy * gy).toNat

/-- The direction code (R184). -/
def dirOf (gx gy : Int) : BitVec 2 :=
  let ax := gx.natAbs
  let ay := gy.natAbs
  let q := (ax + ay) * (ax + ay)
  if ax = 0 ∧ ay = 0 then 0
  else if q < 2 * (ax * ax) then 0
  else if q < 2 * (ay * ay) then 2
  else if (0 < gx) = (0 < gy) then 1
  else 3

/-- `BUF_SMOOTH` as an image (R181). -/
def State.smoothImage (s : State) (n : Nat) : Nat := (s.sample .smooth n).toNat

/-- `gx` of pixel `n` of `BUF_SMOOTH` (R185). -/
def State.gxAt (s : State) (n : Nat) : Int := gradX s.smoothImage s.imgW s.imgH (n % s.imgW) (n / s.imgW)

/-- `gy` of pixel `n` of `BUF_SMOOTH` (R185). -/
def State.gyAt (s : State) (n : Nat) : Int := gradY s.smoothImage s.imgW s.imgH (n % s.imgW) (n / s.imgW)

/-- The gradient stage: `BUF_SMOOTH` to `FLD_MAG2` and `FLD_DIR`, pixels below `N` (R185). -/
def State.gradientStage (s : State) : State :=
  { s with
    fldMag2 := sparseFill s.fldMag2 0 s.pixels (fun n => BitVec.ofNat 32 (mag2Of (s.gxAt n) (s.gyAt n)))
    fldDir := sparseFill s.fldDir 0 s.pixels (fun n => dirOf (s.gxAt n) (s.gyAt n)) }

/-! The suppress stage. -/

/-- `OFF`, the neighbour offset `(dx, dy)` of a direction code (R184, R187). -/
def dirOffset (d : BitVec 2) : Int × Int :=
  if d = 0#2 then (1, 0) else if d = 1#2 then (1, 1) else if d = 2#2 then (0, 1) else (1, -1)

/-- The outer ring of the image (R187). -/
def onBorder (w h x y : Nat) : Bool :=
  decide (x = 0) || decide (y = 0) || decide (x + 1 = w) || decide (y + 1 = h)

/-- The index of the pixel at an offset from pixel `(x, y)`, both inside the image (R11). -/
def offsetIndex (w x y : Nat) (dx dy : Int) : Nat := (((y : Int) + dy) * w + ((x : Int) + dx)).toNat

/-- `nms(x, y)` for a field of squared magnitudes and directions (R187). Ties keep the pixel. -/
def nmsPx (mag : Nat → Nat) (dir : Nat → BitVec 2) (w h x y : Nat) : Nat :=
  let here := mag (y * w + x)
  let off := dirOffset (dir (y * w + x))
  if onBorder w h x y then 0
  else if mag (offsetIndex w x y off.1 off.2) ≤ here ∧ mag (offsetIndex w x y (-off.1) (-off.2)) ≤ here then here
  else 0

/-- The suppressed squared magnitude of pixel `n` (R188). -/
def State.suppressedAt (s : State) (n : Nat) : Nat :=
  nmsPx (fun m => (s.fldMag2At m).toNat) s.fldDirAt s.imgW s.imgH (n % s.imgW) (n / s.imgW)

/-- The suppress stage: `FLD_MAG2`, `FLD_DIR` to `NMS_MAG2`, pixels below `N` (R188). -/
def State.suppressStage (s : State) : State :=
  { s with nmsMag2 := sparseFill s.nmsMag2 0 s.pixels (fun n => BitVec.ofNat 32 (s.suppressedAt n)) }

/-! The threshold stage. -/

/-- `strong(n)` (R191): the squared magnitude reaches `high²`. -/
def State.strongAt (s : State) (n : Nat) : Bool :=
  decide (s.threshHigh.toNat * s.threshHigh.toNat ≤ (s.nmsMag2At n).toNat)

/-- `weak(n)` (R191): the squared magnitude reaches `low²` and not `high²`. -/
def State.weakAt (s : State) (n : Nat) : Bool :=
  decide (s.threshLow.toNat * s.threshLow.toNat ≤ (s.nmsMag2At n).toNat) && !s.strongAt n

/-- Two pixels of a `w` wide image are 8-adjacent (R192). -/
def adjacent8 (w n m : Nat) : Bool :=
  decide (n ≠ m) && decide (n % w ≤ m % w + 1) && decide (m % w ≤ n % w + 1)
    && decide (n / w ≤ m / w + 1) && decide (m / w ≤ n / w + 1)

/-- One full pass on a snapshot of the edge set: every weak pixel next to a member joins (R192, R77). -/
def edgePass (w count : Nat) (weak : Nat → Bool) (edges : List Nat) : List Nat :=
  (List.range count).filter fun n => edges.contains n || (weak n && edges.any (adjacent8 w n))

/-- Passes until one promotes nothing, at most `fuel` (R192; R135 bounds their number). -/
def edgeClosure (w count : Nat) (weak : Nat → Bool) : (fuel : Nat) → List Nat → List Nat
  | 0, edges => edges
  | fuel + 1, edges =>
    let next := edgePass w count weak edges
    if next = edges then edges else edgeClosure w count weak fuel next

/-- The edge set `E` of R192 (the least fixed point, log entry 12), as the list of its pixel indices. -/
def State.edgeSet (s : State) : List Nat :=
  edgeClosure s.imgW s.pixels s.weakAt (s.pixels + 1) ((List.range s.pixels).filter s.strongAt)

/-- The threshold stage: `NMS_MAG2` to `BUF_EDGE`, 255 for an edge and 0 for none, pixels below `N` (R193). -/
def State.thresholdStage (s : State) : State :=
  let edges := s.edgeSet
  { s with mem := sparseFill s.mem (Buf.base .edge) s.pixels (fun n => if edges.contains n then 255#8 else 0#8) }

/-! The commands. -/

/-- The stage state a successful command leaves (R30). -/
def State.withPstate (s : State) (p : PState) : State := { s with pstate := p }

/-- `GRADIENT` (R185). -/
def execGradient (s : State) : Host.Outcome State Fault Refusal :=
  .next (s.complete (checksGradient s) fun u => u.gradientStage.withPstate .gradient)

/-- `NMS` (R188). -/
def execNms (s : State) : Host.Outcome State Fault Refusal :=
  .next (s.complete (checksNms s) fun u => u.suppressStage.withPstate .suppressed)

/-- `HYST` (R193). -/
def execHyst (s : State) : Host.Outcome State Fault Refusal :=
  .next (s.complete (checksHyst s) fun u => u.thresholdStage.withPstate .thresholded)

/-- `DETECT` (R195): all checks first, then the three stages in order, each reading what the one before it wrote; no
sequence check. -/
def execDetect (s : State) : Host.Outcome State Fault Refusal :=
  .next (s.complete (checksDetect s) fun u =>
    u.gradientStage.suppressStage.thresholdStage.withPstate .thresholded)

end Sys2Proof.Machine
end

