-- ==== Sys2Proof/Machine/HostAccess.lean ====
section
/-! DEFINITION. The host transactions `HRD` and `HWR` (spec file 40_host_access.md). -/

namespace Sys2Proof.Machine

/-- `HRD` (R111): a misaligned read is refused (R115); otherwise the target decides. -/
def execHrd (addr : Addr) (s : State) : Host.Outcome State Fault Refusal :=
  .next (if aligned addr then s.readTarget (targetOf s.cfg addr) else s.refuse)

/-- `HWR` (R112): a misaligned write is refused (R115); otherwise the target decides. -/
def execHwr (addr : Addr) (be : BitVec 4) (wdata : Word) (s : State) : Host.Outcome State Fault Refusal :=
  .next (if aligned addr then s.writeTarget (targetOf s.cfg addr) be wdata else s.refuse)

end Sys2Proof.Machine
end

