-- ==== Sys2Proof/Machine/Preprocess.lean ====
section
/-! DEFINITION. The Preprocessor's stages and commands `GRAY`, `SMOOTH`, `PREPROCESS` (spec file 42_preprocess.md). -/

namespace Sys2Proof.Machine

/-! The grey stage. -/

/-- The weighted sum of three channels (R152). -/
def grayAcc (cfg : Config.Params) (c0 c1 c2 : Nat) : Nat := cfg.gw0 * c0 + cfg.gw1 * c1 + cfg.gw2 * c2

/-- `gray_px` (R152): the weighted mean rounded to nearest, half up, clamped to a sample. -/
def grayPx (cfg : Config.Params) (c0 c1 c2 : Nat) : Nat :=
  min ((2 * grayAcc cfg c0 c1 c2 + cfg.gden) / (2 * cfg.gden)) 255

/-- The grey sample of pixel `n` of `BUF_IN` (R153). -/
def State.grayAt (s : State) (n : Nat) : Nat :=
  grayPx s.cfg (s.sample .input (3 * n)).toNat (s.sample .input (3 * n + 1)).toNat (s.sample .input (3 * n + 2)).toNat

/-- The grey stage: `BUF_IN` to `BUF_GRAY`, pixels below `N` (R153, R71). -/
def State.grayStage (s : State) : State :=
  { s with mem := sparseFill s.mem (Buf.base .gray) s.pixels (fun n => BitVec.ofNat 8 (s.grayAt n)) }

/-! The smooth stage. -/

/-- The rounding constant: half of the divisor, 0 when there is no shift (R156). -/
def roundingHalf (shift : Nat) : Int := if shift = 0 then 0 else ((2 ^ (shift - 1) : Nat) : Int)

/-- The accumulator to a sample: nearest, half toward plus infinity, saturated (R156). Division by a positive
divisor rounds toward minus infinity, the arithmetic shift of R10. -/
def roundShift (acc : Int) (shift : Nat) : Int :=
  clampInt ((acc + roundingHalf shift) / ((2 ^ shift : Nat) : Int)) 0 255

/-- `acc(x, y)` over `BUF_GRAY` (R156). -/
def State.smoothAcc (s : State) (x y : Nat) : Int :=
  convolve s.ksize.toNat s.coef (fun n => (s.sample .gray n).toNat) s.imgW s.imgH x y

/-- `smooth_px` of pixel `n` (R156). -/
def State.smoothAt (s : State) (n : Nat) : Nat :=
  (roundShift (s.smoothAcc (n % s.imgW) (n / s.imgW)) s.kshift.toNat).toNat

/-- The smooth stage: `BUF_GRAY` to `BUF_SMOOTH`, pixels below `N` (R157, R71). -/
def State.smoothStage (s : State) : State :=
  { s with mem := sparseFill s.mem (Buf.base .smooth) s.pixels (fun n => BitVec.ofNat 8 (s.smoothAt n)) }

/-! The commands. -/

/-- `GRAY` (R153). -/
def execGray (s : State) : Host.Outcome State Fault Refusal := .next (s.complete (checksGray s) State.grayStage)

/-- `SMOOTH` (R157). -/
def execSmooth (s : State) : Host.Outcome State Fault Refusal := .next (s.complete (checksSmooth s) State.smoothStage)

/-- `PREPROCESS` (R159): both checks first, then the stages in order, the second reading what the first wrote. -/
def execPreprocess (s : State) : Host.Outcome State Fault Refusal :=
  .next (s.complete (checksPreprocess s) fun u => u.grayStage.smoothStage)

end Sys2Proof.Machine
end

