-- ==== Sys2Proof/Machine/Dispatch.lean ====
section
/-! DEFINITION. The meaning of each instruction: one arm per constructor of Instr. -/

namespace Sys2Proof.Machine

def exec (i : Instr) (s : State) : Host.Outcome State Fault Refusal :=
  match i with
  | .gray => Sys2Proof.Machine.execGray s
  | .smooth => Sys2Proof.Machine.execSmooth s
  | .preprocess => Sys2Proof.Machine.execPreprocess s
  | .gradient => Sys2Proof.Machine.execGradient s
  | .nms => Sys2Proof.Machine.execNms s
  | .hyst => Sys2Proof.Machine.execHyst s
  | .detect => Sys2Proof.Machine.execDetect s
  | .hrd addr => Sys2Proof.Machine.execHrd addr s
  | .hwr addr be wdata => Sys2Proof.Machine.execHwr addr be wdata s

end Sys2Proof.Machine
end

