-- ==== Sys2Proof/WellFormed.lean ====
section
/-! DEFINITION. Well-formed instructions, encoded words and parameters.

An instruction's operands are bit vectors of exactly their encoding's widths, so an operand that does not fit its
field cannot be written down, and no rule forbids an operand value (a misaligned or unmapped address is a legal
request that is answered `err = 1`, R65, R114). What can be ill-formed is a number offered as an encoded word, and
a choice of the parameters, which R7 constrains. -/

namespace Sys2Proof

/-- The two formats of R90. -/
inductive Format where
  /-- The 32-bit command word (R92). -/
  | cmdw
  /-- The 61-bit host request (R91). -/
  | bus
deriving DecidableEq, Repr

/-- The format an instruction is encoded in (R90). -/
def Instr.format : Instr → Format
  | .gray => .cmdw
  | .smooth => .cmdw
  | .preprocess => .cmdw
  | .gradient => .cmdw
  | .nms => .cmdw
  | .hyst => .cmdw
  | .detect => .cmdw
  | .hrd _ => .bus
  | .hwr _ _ _ => .bus

/-- Every instruction is well-formed: the widths of its operands are in their types (R91), and a command has no
operand (R93). -/
def Instr.WellFormed : Instr → Bool
  | .gray => true
  | .smooth => true
  | .preprocess => true
  | .gradient => true
  | .nms => true
  | .hyst => true
  | .detect => true
  | .hrd _ => true
  | .hwr _ _ _ => true

/-- How many bits an encoded word of a format has: 32 (R92) and 61 (R91). -/
def Format.bits : Format → Nat
  | .cmdw => 32
  | .bus => 61

/-- A number is a word of the format. -/
def Format.wordFits (f : Format) (w : Nat) : Bool := decide (w < 2 ^ f.bits)

/-- R7: `MAXPIX` is a multiple of 4. -/
def Config.Params.capacityAligned (p : Config.Params) : Bool := p.maxPix % 4 == 0

/-- R7: 4 ≤ `MAXPIX` ≤ 2^20. -/
def Config.Params.capacityInRange (p : Config.Params) : Bool := decide (4 ≤ p.maxPix) && decide (p.maxPix ≤ 1048576)

/-- R7: `GDEN` ≥ 1 (the weights are natural numbers, so none is negative). -/
def Config.Params.denominatorPositive (p : Config.Params) : Bool := decide (1 ≤ p.gden)

/-- The constraints R7 puts on the parameters. -/
def Config.Params.WellFormed (p : Config.Params) : Bool :=
  p.capacityAligned && p.capacityInRange && p.denominatorPositive

end Sys2Proof
end

