-- ==== Sys2Proof/Decode.lean ====
section
/-! DEFINITION. The decoder (R90 to R94) and, after it, the encoder. A command word is read from its low byte; a
host request from its `we` bit; the packed 61-bit form of a request exists only for the opcode table (R91). -/

namespace Sys2Proof

/-- Why bytes are no instruction. -/
inductive DecodeError where
  /-- Neither a 4-byte command word nor an 8-byte packed request (R90: both formats have fixed length). -/
  | badLength (bytes : Nat)
  /-- `OP` is 0x00 or 0x08 to 0xFF (R94). -/
  | reservedOpcode (op : BitVec 8)
  /-- The 8 bytes of a packed request hold more than its 61 bits (R91). -/
  | requestTooWide (w : Nat)
deriving DecidableEq, Repr

/-- The opcode map of R92. -/
def decodeOpcode (op : BitVec 8) : Except DecodeError Instr :=
  if op = 0x01#8 then .ok .gray
  else if op = 0x02#8 then .ok .smooth
  else if op = 0x03#8 then .ok .preprocess
  else if op = 0x04#8 then .ok .gradient
  else if op = 0x05#8 then .ok .nms
  else if op = 0x06#8 then .ok .hyst
  else if op = 0x07#8 then .ok .detect
  else .error (.reservedOpcode op)

/-- The `OP` field of a command word, bits `[7:0]`; bits `[31:8]` are ignored (R92). -/
def cmdwOp (w : Word) : BitVec 8 := w.extractLsb' 0 8

/-- Decoding of format CMDW (R92). -/
def decodeCmdw (w : Word) : Except DecodeError Instr := decodeOpcode (cmdwOp w)

/-- Decoding of format BUS: `we` selects the transaction (R91); `HRD` ignores `be` and `wdata` (R111). -/
def decodeRequest (r : Request) : Instr :=
  if r.we then .hwr r.addr r.be r.wdata else .hrd r.addr

/-- The request a packed 61-bit word `{we, addr[23:0], be[3:0], wdata[31:0]}` stands for (R91). -/
def unpackRequest (w : Nat) : Request where
  we := w.testBit 60
  addr := BitVec.ofNat 24 (w / 2 ^ 36)
  be := BitVec.ofNat 4 (w / 2 ^ 32)
  wdata := BitVec.ofNat 32 w

/-- The packed 61-bit word of a request (R91). -/
def packRequest (r : Request) : Nat :=
  r.we.toNat * 2 ^ 60 + r.addr.toNat * 2 ^ 36 + r.be.toNat * 2 ^ 32 + r.wdata.toNat

/-- The number whose bytes, lowest address first, are given (little-endian, R64; log entry 8). -/
def fromBytesLE : List Byte → Nat
  | [] => 0
  | b :: rest => b.toNat + 256 * fromBytesLE rest

/-- The `n` low bytes of a number, lowest address first (little-endian, R64; log entry 8). -/
def toBytesLE : (n : Nat) → Nat → List Byte
  | 0, _ => []
  | n + 1, w => BitVec.ofNat 8 w :: toBytesLE n (w / 256)

/-- Decoding of the 8 bytes of a packed request (R91). -/
def decodePacked (w : Nat) : Except DecodeError Instr :=
  if Format.bus.wordFits w then .ok (decodeRequest (unpackRequest w)) else .error (.requestTooWide w)

/-- The decoder: total on any bytes. Four bytes are a command word, eight a packed request (R90). -/
def decode (bytes : List Byte) : Except DecodeError Instr :=
  if bytes.length = 4 then decodeCmdw (BitVec.ofNat 32 (fromBytesLE bytes))
  else if bytes.length = 8 then decodePacked (fromBytesLE bytes)
  else .error (.badLength bytes.length)

/-- The format of an opcode-table row whose table word has `nbits` bits: the command rows have at most 32, the
transaction rows 61 (R91, R92; log entry 10). -/
def tableFormat (nbits : Nat) : Format := if nbits ≤ 32 then .cmdw else .bus

/-- The bytes of a table word, laid out as the model stores them (log entries 8, 10). -/
def tableBytes (nbits w : Nat) : List Byte :=
  match tableFormat nbits with
  | .cmdw => toBytesLE 4 w
  | .bus => toBytesLE 8 w

/-- The instruction the decoder reads from an opcode-table word of `nbits` bits (bits above `nbits` are 0). -/
def decodeTableWord (nbits w : Nat) : Option Instr :=
  (decode (tableBytes nbits (w % 2 ^ nbits))).toOption

/-! The encoder, from the same tables (R91, R92). -/

/-- The opcode of a command (R92); a transaction has none. -/
def opcodeOf : Instr → Option (BitVec 8)
  | .gray => some 0x01#8
  | .smooth => some 0x02#8
  | .preprocess => some 0x03#8
  | .gradient => some 0x04#8
  | .nms => some 0x05#8
  | .hyst => some 0x06#8
  | .detect => some 0x07#8
  | .hrd _ => none
  | .hwr _ _ _ => none

/-- The word of an instruction, as a number: a command word with its ignored bits 0 (R92), or the packed request,
a read's ignored `be` and `wdata` 0 (R91, R111; log entry 9). -/
def encodeWord : Instr → Nat
  | .gray => 0x00000001
  | .smooth => 0x00000002
  | .preprocess => 0x00000003
  | .gradient => 0x00000004
  | .nms => 0x00000005
  | .hyst => 0x00000006
  | .detect => 0x00000007
  | .hrd addr => packRequest ⟨false, addr, 0, 0⟩
  | .hwr addr be wdata => packRequest ⟨true, addr, be, wdata⟩

/-- The bytes of an instruction: four for a command, eight for a packed request (R90). -/
def encode (i : Instr) : List Byte :=
  match i.format with
  | .cmdw => toBytesLE 4 (encodeWord i)
  | .bus => toBytesLE 8 (encodeWord i)

end Sys2Proof
end

