-- ==== Sys2Proof/Machine/Fetch.lean ====
section
/-! DEFINITION. Where the next instruction comes from: the engine reads its command from `CMD.OP` (R27, R132), the host
port takes the next transaction (R60). Placing an instruction there is what a host or the outside world does. -/

namespace Sys2Proof.Machine

/-- The engine's fetch: the command in `CMD.OP` (R132 check 1). -/
def State.fetchCommand (s : State) : Except DecodeError Instr := decodeOpcode s.op

/-- The completion step of a reserved opcode: `IllegalCommand` and no other effect (R94, R225). -/
def State.illegalCommand (s : State) : State := s.complete (some .illegalCommand) id

/-- The event at the front is taken; when none is pending the engine gets its turn, so a command in execution
completes (R135) and an idle core waits (R236). -/
def State.nextEvent (s : State) : Event × State :=
  match s.pending with
  | [] => (.engine, s)
  | e :: rest => (e, { s with pending := rest })

/-- Put an event before all that are pending. -/
def State.placeEvent (s : State) (e : Event) : State := { s with pending := e :: s.pending }

/-- A command word placed in the engine: the command is started as an accepted write of `CMD` would (R131), and the
engine's turn is next (log entry 5). -/
def State.placeCommand (s : State) (w : Nat) : State :=
  (s.startCommand (cmdwOp (BitVec.ofNat 32 w))).placeEvent .engine

/-- A packed request placed at the host port as the next transaction (log entry 5). -/
def State.placeRequest (s : State) (w : Nat) : State := s.placeEvent (.host (unpackRequest w))

/-- An opcode-table word placed where the next step fetches its instruction (log entries 5, 10). -/
def State.placeTableWord (s : State) (nbits w : Nat) : State :=
  match tableFormat nbits with
  | .cmdw => s.placeCommand (w % 2 ^ nbits)
  | .bus => s.placeRequest (w % 2 ^ nbits)

end Sys2Proof.Machine
end

