-- ==== Sys2Proof/Machine/Turn.lean ====
section
/-! DEFINITION. What each event of the total order of transactions, completion steps and resets does (R74, R75,
R250). -/

namespace Sys2Proof.Machine

/-- The engine's turn: while busy, the instruction in `CMD.OP`, or the failure of a reserved opcode; while idle,
nothing (R130, R133, R225). -/
def engineTurn (s : State) : Host.Outcome State Fault Refusal :=
  if s.busy then
    match s.fetchCommand with
    | .ok i => exec i s
    | .error _ => .next s.illegalCommand
  else .next s

/-- What an event does. -/
def onEvent (e : Event) (s : State) : Host.Outcome State Fault Refusal :=
  match e with
  | .host r => exec (decodeRequest r) s
  | .engine => engineTurn s
  | .reset => .next s.resetEvent

end Sys2Proof.Machine
end

