-- ==== Sys2Proof/Machine/Step.lean ====
section
/-! DEFINITION. One step of the machine, and placing an instruction where it is fetched. -/

namespace Sys2Proof.Machine

/-- One step: the next event happens. -/
def step (s : State) : Host.Outcome State Fault Refusal := onEvent s.nextEvent.1 s.nextEvent.2

/-- The state with an opcode-table word placed where `step` fetches its next instruction: a command word in `CMD.OP`
with the command started and the engine's turn next, a packed request at the host port (log entry 5). -/
def State.withFetchWord (s : State) (nbits w : Nat) : State := s.placeTableWord nbits w

end Sys2Proof.Machine
end

