-- ==== Sys2Proof/Safety.lean ====
section
/-! DEFINITION. The terms the claims are made in: when a command is ready to succeed, what its outputs must be (written
from the rules, not from the machine's functions), the invariants, and runs of several steps. -/

namespace Sys2Proof.Machine

/-! When a command can succeed: it is in execution and every check of R132 passes. -/

/-- Check 2 of R132 passes. -/
abbrev State.FitsBuffers (s : State) : Prop := s.imgW ≠ 0 ∧ s.imgH ≠ 0 ∧ s.imgW * s.imgH ≤ s.cfg.maxPix

/-- The smooth stage's precondition (R154): "the accepted sizes are exactly 3, 5, 7 with `W ≥ k` and `H ≥ k`". -/
abbrev State.KernelFits (s : State) : Prop :=
  (s.ksize = 3 ∨ s.ksize = 5 ∨ s.ksize = 7) ∧ s.ksize.toNat ≤ s.imgW ∧ s.ksize.toNat ≤ s.imgH

/-- The gradient stage's precondition (R185). -/
abbrev State.AtLeast3x3 (s : State) : Prop := 3 ≤ s.imgW ∧ 3 ≤ s.imgH

/-- The threshold stage's precondition (R190). -/
abbrev State.ThresholdsRise (s : State) : Prop := s.threshLow.toNat < s.threshHigh.toNat

/-- `GRAY` in execution can succeed. -/
abbrev State.GrayReady (s : State) : Prop := s.busy = true ∧ s.FitsBuffers ∧ s.channels = 3

/-- `SMOOTH` in execution can succeed. -/
abbrev State.SmoothReady (s : State) : Prop := s.busy = true ∧ s.FitsBuffers ∧ s.KernelFits

/-- `PREPROCESS` in execution can succeed. -/
abbrev State.PreprocessReady (s : State) : Prop := s.busy = true ∧ s.FitsBuffers ∧ s.channels = 3 ∧ s.KernelFits

/-- `GRADIENT` in execution can succeed. -/
abbrev State.GradientReady (s : State) : Prop := s.busy = true ∧ s.FitsBuffers ∧ s.AtLeast3x3

/-- `NMS` in execution can succeed. -/
abbrev State.NmsReady (s : State) : Prop := s.busy = true ∧ s.FitsBuffers ∧ s.pstate = .gradient

/-- `HYST` in execution can succeed. -/
abbrev State.HystReady (s : State) : Prop :=
  s.busy = true ∧ s.FitsBuffers ∧ s.pstate = .suppressed ∧ s.ThresholdsRise

/-- `DETECT` in execution can succeed. -/
abbrev State.DetectReady (s : State) : Prop := s.busy = true ∧ s.FitsBuffers ∧ s.AtLeast3x3 ∧ s.ThresholdsRise

/-! Frames. -/

/-- Every byte of the host-visible buffers reads as before. -/
def SameBytes (s t : State) : Prop := ∀ a, t.byte a = s.byte a

/-- Every byte outside the first `n` bytes of a buffer reads as before. -/
def SameBytesOutside (b : Buf) (n : Nat) (s t : State) : Prop :=
  ∀ a, ¬ (b.base ≤ a ∧ a < b.base + n) → t.byte a = s.byte a

/-- The state a successful completion step leaves but for its writes (R133). -/
abbrev State.completed (s : State) : State := { s with busy := false, done := true, err := .none }

/-- The command's completion step fails with `e` and has no other effect (R231). -/
def FailsWith (i : Instr) (s : State) (e : ErrCode) : Prop :=
  exec i s = .next { s with err := e, busy := false, done := true }

/-- The transaction is refused: `err = 1`, `rdata = 0`, no state change (R120). -/
def Refused (i : Instr) (s : State) : Prop := exec i s = .next { s with resp := some ⟨true, 0⟩ }

/-! What the outputs of the stages must be, written from the rules. -/

/-- The sample of a buffer at `(x, y)` after each coordinate is clamped to the image (R72). -/
def State.replicated (s : State) (b : Buf) (x y : Int) : Int :=
  (s.sample b ((max 0 (min y ((s.imgH : Int) - 1))).toNat * s.imgW + (max 0 (min x ((s.imgW : Int) - 1))).toNat)).toNat

/-- The sample that `gray_px` gives pixel `(x, y)` of `BUF_IN` (R11, R152). -/
def State.greyOf (s : State) (x y : Nat) : Nat :=
  let c := fun k => (s.sample .input ((y * s.imgW + x) * 3 + k)).toNat
  min ((2 * (s.cfg.gw0 * c 0 + s.cfg.gw1 * c 1 + s.cfg.gw2 * c 2) + s.cfg.gden) / (2 * s.cfg.gden)) 255

/-- `t` has in `BUF_GRAY` the grey image of `s`'s `BUF_IN` (R153). -/
def GreyImageOf (s t : State) : Prop :=
  ∀ x y, x < s.imgW → y < s.imgH → (t.sample .gray (y * s.imgW + x)).toNat = s.greyOf x y

/-- The accumulator of R156 at `(x, y)`, over the image in `BUF_GRAY`, as a double sum. -/
def State.blurSum (s : State) (x y : Nat) : Int :=
  ∑ i ∈ Finset.range s.ksize.toNat, ∑ j ∈ Finset.range s.ksize.toNat,
    s.coef i j * s.replicated .gray ((x : Int) + j - (s.ksize.toNat - 1) / 2) ((y : Int) + i - (s.ksize.toNat - 1) / 2)

/-- `smooth_px` at `(x, y)` (R156): the sum over `2^KSHIFT` rounded to nearest, half up, saturated. -/
def State.blurOf (s : State) (x y : Nat) : Int :=
  let half : Int := if s.kshift.toNat = 0 then 0 else 2 ^ (s.kshift.toNat - 1)
  max 0 (min ((s.blurSum x y + half) / 2 ^ s.kshift.toNat) 255)

/-- `t` has in `BUF_SMOOTH` the smoothed image of `s`'s `BUF_GRAY` (R157). -/
def SmoothImageOf (s t : State) : Prop :=
  ∀ x y, x < s.imgW → y < s.imgH → ((t.sample .smooth (y * s.imgW + x)).toNat : Int) = s.blurOf x y

/-- `gx(x, y)` as R181 writes it out. -/
def State.sobelGx (s : State) (x y : Nat) : Int :=
  let p := fun dx dy : Int => s.replicated .smooth ((x : Int) + dx) ((y : Int) + dy)
  (p 1 (-1) + 2 * p 1 0 + p 1 1) - (p (-1) (-1) + 2 * p (-1) 0 + p (-1) 1)

/-- `gy(x, y)` as R181 writes it out. -/
def State.sobelGy (s : State) (x y : Nat) : Int :=
  let p := fun dx dy : Int => s.replicated .smooth ((x : Int) + dx) ((y : Int) + dy)
  (p (-1) 1 + 2 * p 0 1 + p 1 1) - (p (-1) (-1) + 2 * p 0 (-1) + p 1 (-1))

/-- The direction code of R184. -/
def sectorOf (gx gy : Int) : BitVec 2 :=
  if gx = 0 ∧ gy = 0 then 0
  else if (|gx| + |gy|) ^ 2 < 2 * gx ^ 2 then 0
  else if (|gx| + |gy|) ^ 2 < 2 * gy ^ 2 then 2
  else if 0 < gx * gy then 1
  else 3

/-- `t` has in `FLD_MAG2`, `FLD_DIR` the gradient field of `s`'s `BUF_SMOOTH` (R183 to R185). -/
def GradientFieldOf (s t : State) : Prop :=
  ∀ x y, x < s.imgW → y < s.imgH →
    ((t.fldMag2At (y * s.imgW + x)).toNat : Int) = s.sobelGx x y ^ 2 + s.sobelGy x y ^ 2 ∧
    t.fldDirAt (y * s.imgW + x) = sectorOf (s.sobelGx x y) (s.sobelGy x y)

/-- The pixel `(x, y)` is at least as large as both neighbours along a direction code (R184, R187). -/
def IsLocalMaximum (m : Nat → Nat → Nat) (d : BitVec 2) (x y : Nat) : Prop :=
  (d = 0 ∧ m (x + 1) y ≤ m x y ∧ m (x - 1) y ≤ m x y) ∨
  (d = 1 ∧ m (x + 1) (y + 1) ≤ m x y ∧ m (x - 1) (y - 1) ≤ m x y) ∨
  (d = 2 ∧ m x (y + 1) ≤ m x y ∧ m x (y - 1) ≤ m x y) ∨
  (d = 3 ∧ m (x + 1) (y - 1) ≤ m x y ∧ m (x - 1) (y + 1) ≤ m x y)

/-- `t` has in `NMS_MAG2` the suppression of `s`'s field: an inner pixel that is a local maximum keeps its value, every
other pixel gets 0 (R187, R188). -/
def SuppressedFieldOf (s t : State) : Prop :=
  ∀ x y, x < s.imgW → y < s.imgH →
    ((0 < x ∧ x < s.imgW - 1 ∧ 0 < y ∧ y < s.imgH - 1 ∧
        IsLocalMaximum (fun a b => (s.fldMag2At (b * s.imgW + a)).toNat) (s.fldDirAt (y * s.imgW + x)) x y) →
      t.nmsMag2At (y * s.imgW + x) = s.fldMag2At (y * s.imgW + x)) ∧
    (¬ (0 < x ∧ x < s.imgW - 1 ∧ 0 < y ∧ y < s.imgH - 1 ∧
        IsLocalMaximum (fun a b => (s.fldMag2At (b * s.imgW + a)).toNat) (s.fldDirAt (y * s.imgW + x)) x y) →
      t.nmsMag2At (y * s.imgW + x) = 0)

/-- The edge set of R192 over a `w` by `h` field `q` of squared magnitudes: the least set that holds every strong
pixel and every weak pixel 8-adjacent to a member. -/
inductive EdgePixel (w h low high : Nat) (q : Nat → Nat → Nat) : Nat → Nat → Prop where
  /-- A strong pixel (R191). -/
  | strong {x y : Nat} : x < w → y < h → high ^ 2 ≤ q x y → EdgePixel w h low high q x y
  /-- A weak pixel next to a member (R191, R192). -/
  | weak {x y x' y' : Nat} : x < w → y < h → low ^ 2 ≤ q x y → q x y < high ^ 2 →
      EdgePixel w h low high q x' y' → (x, y) ≠ (x', y') →
      x ≤ x' + 1 → x' ≤ x + 1 → y ≤ y' + 1 → y' ≤ y + 1 → EdgePixel w h low high q x y

/-- The pixel is in the edge set of the field in `NMS_MAG2` under the thresholds (R190 to R192). -/
def State.IsEdge (s : State) (x y : Nat) : Prop :=
  EdgePixel s.imgW s.imgH s.threshLow.toNat s.threshHigh.toNat (fun a b => (s.nmsMag2At (b * s.imgW + a)).toNat) x y

/-- `t` has in `BUF_EDGE` the edge map of `s`'s `NMS_MAG2` (R193). -/
def EdgeMapOf (s t : State) : Prop :=
  ∀ x y, x < s.imgW → y < s.imgH →
    (s.IsEdge x y → t.sample .edge (y * s.imgW + x) = 255) ∧
    (¬ s.IsEdge x y → t.sample .edge (y * s.imgW + x) = 0)

/-! Invariants. -/

/-- R26: `BUSY = 1` implies `DONE = 0` and `ERR = 0`. -/
def State.StatusOk (s : State) : Prop := s.busy = true → s.done = false ∧ s.err = .none

/-- The parameters are legal (R7), every store is in canonical form and lists only elements that exist: bytes of the
four windows (R63), field entries below `MAXPIX` (R37). -/
def State.StorageOk (s : State) : Prop :=
  s.cfg.WellFormed = true ∧
  s.mem.wf = true ∧ sparseWf s.fldMag2 = true ∧ sparseWf s.fldDir = true ∧ sparseWf s.nmsMag2 = true ∧
  (∀ c ∈ s.mem, ∃ b : Buf, b.holds s.cfg c.1 = true) ∧
  (∀ c ∈ s.fldMag2, c.1 < s.cfg.maxPix) ∧ (∀ c ∈ s.fldDir, c.1 < s.cfg.maxPix) ∧ (∀ c ∈ s.nmsMag2, c.1 < s.cfg.maxPix)

/-- The field buffers hold the output of computeGradient for the current dimensions (R30): every entry of `FLD_MAG2` and
`FLD_DIR` is written, the magnitudes are in the range of R182, and they are the gradient field of an image of these
dimensions: what was in `BUF_SMOOTH` when it was computed, which the host may have overwritten since (R31). -/
def State.HasField (s : State) : Prop :=
  s.AtLeast3x3 ∧ s.imgW * s.imgH ≤ s.cfg.maxPix ∧
  (∀ n < s.imgW * s.imgH, ∃ m d, sparseFind s.fldMag2 n = some m ∧ m.toNat ≤ 2080800 ∧ sparseFind s.fldDir n = some d) ∧
  ∃ u : State, u.width = s.width ∧ u.height = s.height ∧ GradientFieldOf u s

/-- The field buffers hold the output of nonMaxSuppress (R30): every entry of `NMS_MAG2` is written, and they are the
suppression of the field in `FLD_MAG2` and `FLD_DIR` (R187, R188). -/
def State.HasSuppressed (s : State) : Prop :=
  s.HasField ∧ (∀ n < s.imgW * s.imgH, ∃ q, sparseFind s.nmsMag2 n = some q) ∧ SuppressedFieldOf s s

/-- R30: what `PSTATE` says about the field buffers is so. Under THRESHOLDED they still hold the field and the
suppression that the edge map was produced from; of `BUF_EDGE` nothing is said, since the host may write it without
changing `PSTATE` (R112). -/
def State.FieldsOk (s : State) : Prop :=
  (s.pstate = .gradient → s.HasField) ∧
  (s.pstate = .suppressed ∨ s.pstate = .thresholded → s.HasSuppressed)

/-! Runs. -/

/-- `n` steps, stopping at the first that is no next state. -/
def stepN : Nat → State → Host.Outcome State Fault Refusal
  | 0, s => .next s
  | n + 1, s =>
    match step s with
    | .next t => stepN n t
    | .fault r => .fault r
    | .refused r => .refused r

/-- The host's write of a whole register word. -/
def hostWrite (addr : Addr) (d : Word) : Event := .host ⟨true, addr, 0b1111#4, d⟩

/-- The host's write of an opcode to `CMD` (R27, R98). -/
def hostCommand (op : Word) : Event := hostWrite 0x00000C#24 op

end Sys2Proof.Machine
end

