-- ==== Sys2Proof/Certificates/Slice0/Obligations.lean ====
section
/-! DEFINITION. The statements for the provers, one definition each. -/

open Sys2Proof Sys2Proof.Machine

/-! Decoding and encoding. -/

/-- Decoding the encoding of any instruction gives it back, every operand at every value (R91, R92). The byte layout and
the ignored bits the encoder writes as 0 are the model's (log entries 8 and 9). -/
def Obligations.DecodeEncodeAgree : Prop := ∀ i : Instr, i.WellFormed = true → decode (encode i) = .ok i

/-- R92: a command word is read from its low byte alone, opcodes 1 to 7, and every other opcode is rejected by name. -/
def Obligations.CommandDecodingReadsTheOpcode : Prop :=
  ∀ w : Word,
    (decodeCmdw w = .ok .gray ↔ w.toNat % 256 = 1) ∧
    (decodeCmdw w = .ok .smooth ↔ w.toNat % 256 = 2) ∧
    (decodeCmdw w = .ok .preprocess ↔ w.toNat % 256 = 3) ∧
    (decodeCmdw w = .ok .gradient ↔ w.toNat % 256 = 4) ∧
    (decodeCmdw w = .ok .nms ↔ w.toNat % 256 = 5) ∧
    (decodeCmdw w = .ok .hyst ↔ w.toNat % 256 = 6) ∧
    (decodeCmdw w = .ok .detect ↔ w.toNat % 256 = 7) ∧
    (decodeCmdw w = .error (.reservedOpcode (BitVec.ofNat 8 w.toNat)) ↔ w.toNat % 256 = 0 ∨ 8 ≤ w.toNat % 256)

/-- R91: the packed request is `we` at bit 60, `addr` at 59:36, `be` at 35:32, `wdata` at 31:0; `we` selects the
transaction, and a read ignores `be` and `wdata` (R111). The third clause, that a number of 2^61 or more, which is no
request of 61 bits, is refused by name, is the model's choice (log entry 8). -/
def Obligations.RequestDecodingReadsEveryField : Prop :=
  ∀ w : Nat,
    (w < 2 ^ 60 → decodePacked w = .ok (.hrd (BitVec.ofNat 24 (w / 2 ^ 36)))) ∧
    (2 ^ 60 ≤ w → w < 2 ^ 61 →
      decodePacked w = .ok (.hwr (BitVec.ofNat 24 (w / 2 ^ 36)) (BitVec.ofNat 4 (w / 2 ^ 32)) (BitVec.ofNat 32 w))) ∧
    (2 ^ 61 ≤ w → decodePacked w = .error (.requestTooWide w))

/-- A few words written out from R91 and R92 decode to the instructions they stand for; their byte layout is the model's
(log entries 8 and 10). -/
def Obligations.SpecWordsDecode : Prop :=
  decode [0x01#8, 0xEF#8, 0xCD#8, 0xAB#8] = .ok .gray ∧
  decode [0x07#8, 0x00#8, 0x00#8, 0x00#8] = .ok .detect ∧
  decode [0x08#8, 0x00#8, 0x00#8, 0x00#8] = .error (.reservedOpcode 0x08#8) ∧
  decodeTableWord 64 0x00000080_00000000 = some (.hrd 0x000008#24) ∧
  decodeTableWord 64 0x1900000F_AABBCCDD = some (.hwr 0x900000#24 0xF#4 0xAABBCCDD#32) ∧
  decodeTableWord 64 0x20000000_00000000 = none

/-! The step. -/

/-- A transaction at the front is decoded and run, and a command in execution is decoded from `CMD.OP` and run when the
engine has its turn: the step is exec of the decoded instruction on the state less the event taken. The list of events
and the engine's turn are the model's (log entry 4). -/
def Obligations.StepRunsTheDecodedInstruction : Prop :=
  (∀ (s : State) (r : Request) (rest : List Event), s.pending = .host r :: rest →
    step s = exec (decodeRequest r) { s with pending := rest }) ∧
  (∀ (s : State) (i : Instr) (rest : List Event), s.busy = true → decodeOpcode s.op = .ok i →
    s.pending = .engine :: rest → step s = exec i { s with pending := rest }) ∧
  (∀ (s : State) (i : Instr), s.busy = true → decodeOpcode s.op = .ok i → s.pending = [] → step s = exec i s)

/-- A word placed with withFetchWord is what the very next step runs: a command as the engine's command just started
(R131), a request as the next transaction. The placing is the model's (log entry 5). -/
def Obligations.FetchWordRunsTheInstruction : Prop :=
  (∀ (s : State) (w : Nat) (i : Instr), decodeTableWord 32 w = some i →
    step (s.withFetchWord 32 w) =
      exec i { s with op := BitVec.ofNat 8 w, busy := true, done := false, err := .none }) ∧
  (∀ (s : State) (w : Nat) (i : Instr), decodeTableWord 64 w = some i → step (s.withFetchWord 64 w) = exec i s)

/-- R232: no event stops the machine; every step answers a next state. -/
def Obligations.EveryStepAnswersANextState : Prop := ∀ s : State, ∃ t, step s = .next t

/-- R94, R225: a reserved opcode's completion step fails with IllegalCommand and has no other effect. When that step
comes is the model's (log entry 4). -/
def Obligations.ReservedOpcodeFails : Prop :=
  ∀ s : State, s.busy = true → (s.op.toNat = 0 ∨ 8 ≤ s.op.toNat) →
    (s.pending = [] → step s = .next { s with err := .illegalCommand, busy := false, done := true }) ∧
    (∀ rest, s.pending = .engine :: rest →
      step s = .next { s with pending := rest, err := .illegalCommand, busy := false, done := true })

/-- R130: when idle the engine does nothing (its turn is the model's, log entry 4), and no command takes effect (the
model's reading, log entry 7). -/
def Obligations.IdleEngineDoesNothing : Prop :=
  ∀ s : State, s.busy = false →
    (s.pending = [] → step s = .next s) ∧
    (∀ rest, s.pending = .engine :: rest → step s = .next { s with pending := rest }) ∧
    (∀ i : Instr, i.format = .cmdw → exec i s = .next s)

/-! Reset. -/

/-- R40: the register values after reset. -/
def Obligations.ResetStateValues : Prop :=
  State.reset.ie = false ∧ State.reset.busy = false ∧ State.reset.done = false ∧ State.reset.err = .none ∧
  State.reset.pstate = .raw ∧ State.reset.op = 0 ∧ State.reset.width = 0 ∧ State.reset.height = 0 ∧
  State.reset.channels = 3 ∧ State.reset.ksize = 5 ∧ State.reset.kshift = 16 ∧ State.reset.threshLow = 50 ∧
  State.reset.threshHigh = 150 ∧ State.reset.statusWord = 0 ∧ State.reset.irq = false

/-- R250, R252: reset at any time, busy or idle, gives every register its reset value, drops every written buffer
element, and lowers `irq`; the parameters stay. The contents after it need not be what they were (U1): the count of
resets that the free values depend on grows by one (the model's, log entry 2). The instantaneous event, which leaves the
events after it pending and leaves no response, is the model's (log entry 11). -/
def Obligations.ResetEventRestoresRegisters : Prop :=
  ∀ (s : State) (rest : List Event), s.pending = .reset :: rest →
    ∃ t, step s = .next t ∧
      t.ie = false ∧ t.busy = false ∧ t.done = false ∧ t.err = .none ∧ t.pstate = .raw ∧ t.op = 0 ∧
      t.width = 0 ∧ t.height = 0 ∧ t.channels = 3 ∧ t.ksize = 5 ∧ t.kshift = 16 ∧
      t.threshLow = 50 ∧ t.threshHigh = 150 ∧ t.kcoef = State.reset.kcoef ∧
      t.mem = [] ∧ t.fldMag2 = [] ∧ t.fldDir = [] ∧ t.nmsMag2 = [] ∧
      t.irq = false ∧ t.cfg = s.cfg ∧ t.epoch = s.epoch + 1 ∧ t.resp = none ∧ t.pending = rest

/-- R34: the default kernel is the outer product of (28, 61, 78, 61, 28), 0 outside the 5 by 5 corner, and its
coefficients sum to 2^16. -/
def Obligations.DefaultKernelValues : Prop :=
  State.reset.ksize.toNat = 5 ∧ State.reset.kshift.toNat = 16 ∧
  (∀ i < 7, ∀ j < 7, State.reset.coef i j = ([28, 61, 78, 61, 28, 0, 0] : List Int).getD i 0 *
    ([28, 61, 78, 61, 28, 0, 0] : List Int).getD j 0) ∧
  ∑ i ∈ Finset.range 5, ∑ j ∈ Finset.range 5, State.reset.coef i j = 65536

/-- R95, R220: the codes of the errors and of the stage states. -/
def Obligations.StatusCodes : Prop :=
  ErrCode.none.code = 0 ∧ ErrCode.invalidChannelCount.code = 1 ∧ ErrCode.invalidKernelSize.code = 2 ∧
  ErrCode.dimensionTooSmall.code = 3 ∧ ErrCode.invalidThresholds.code = 4 ∧ ErrCode.badConfig.code = 5 ∧
  ErrCode.badSequence.code = 6 ∧ ErrCode.illegalCommand.code = 7 ∧
  PState.raw.code = 0 ∧ PState.gradient.code = 1 ∧ PState.suppressed.code = 2 ∧ PState.thresholded.code = 3

/-! Host transactions. -/

/-- R115: a misaligned transaction is refused, whatever the address maps to. -/
def Obligations.MisalignedTransactionsRefused : Prop :=
  ∀ (s : State) (addr : Addr) (be : BitVec 4) (d : Word), addr.toNat % 4 ≠ 0 →
    Refused (.hrd addr) s ∧ Refused (.hwr addr be d) s

/-- R114: a transaction at an address that R22 and R63 leave unmapped is refused. -/
def Obligations.UnmappedAddressesRefused : Prop :=
  ∀ (s : State) (addr : Addr) (be : BitVec 4) (d : Word), s.cfg.WellFormed = true →
    ((0x034 ≤ addr.toNat ∧ addr.toNat < 0x100) ∨
     (0x100 ≤ addr.toNat ∧ addr.toNat < 0x1E0 ∧ addr.toNat / 4 % 8 = 7) ∨
     (0x1E0 ≤ addr.toNat ∧ addr.toNat < 0x400000) ∨
     (0x400000 + 3 * s.cfg.maxPix ≤ addr.toNat ∧ addr.toNat < 0x800000) ∨
     (0x800000 + s.cfg.maxPix ≤ addr.toNat ∧ addr.toNat < 0x900000) ∨
     (0x900000 + s.cfg.maxPix ≤ addr.toNat ∧ addr.toNat < 0xA00000) ∨
     0xA00000 + s.cfg.maxPix ≤ addr.toNat) →
    Refused (.hrd addr) s ∧ Refused (.hwr addr be d) s

/-- R117: a write of a register with any byte enables but 0b1111 is refused. -/
def Obligations.PartialRegisterWritesRefused : Prop :=
  ∀ (s : State) (r : Reg) (be : BitVec 4) (d : Word), be ≠ 0b1111#4 →
    Refused (.hwr (BitVec.ofNat 24 r.addr) be d) s

/-- R113: the value a read of each register returns, with no other effect. -/
def Obligations.RegisterReadValues : Prop :=
  ∀ s : State,
    exec (.hrd 0x000#24) s = .next { s with resp := some ⟨false, 0x49444537#32⟩ } ∧
    exec (.hrd 0x004#24) s = .next { s with resp := some ⟨false, BitVec.ofNat 32 s.ie.toNat⟩ } ∧
    exec (.hrd 0x008#24) s = .next { s with resp := some ⟨false, BitVec.ofNat 32
      (s.busy.toNat + 2 * s.done.toNat + 16 * s.err.code.toNat + 256 * s.pstate.code.toNat)⟩ } ∧
    exec (.hrd 0x00C#24) s = .next { s with resp := some ⟨false, BitVec.ofNat 32 s.op.toNat⟩ } ∧
    exec (.hrd 0x010#24) s = .next { s with resp := some ⟨false, BitVec.ofNat 32 s.width.toNat⟩ } ∧
    exec (.hrd 0x014#24) s = .next { s with resp := some ⟨false, BitVec.ofNat 32 s.height.toNat⟩ } ∧
    exec (.hrd 0x018#24) s = .next { s with resp := some ⟨false, BitVec.ofNat 32 s.channels.toNat⟩ } ∧
    exec (.hrd 0x01C#24) s = .next { s with resp := some ⟨false, BitVec.ofNat 32 s.ksize.toNat⟩ } ∧
    exec (.hrd 0x020#24) s = .next { s with resp := some ⟨false, BitVec.ofNat 32 s.kshift.toNat⟩ } ∧
    exec (.hrd 0x024#24) s = .next { s with resp := some ⟨false, BitVec.ofNat 32 s.threshLow.toNat⟩ } ∧
    exec (.hrd 0x028#24) s = .next { s with resp := some ⟨false, BitVec.ofNat 32 s.threshHigh.toNat⟩ } ∧
    exec (.hrd 0x02C#24) s = .next { s with resp := some ⟨false, BitVec.ofNat 32 s.cfg.maxPix⟩ } ∧
    exec (.hrd 0x030#24) s = .next { s with resp := some ⟨false, 7#32⟩ } ∧
    ∀ i < 7, ∀ j < 7, exec (.hrd (BitVec.ofNat 24 (0x100 + 4 * (8 * i + j)))) s =
      .next { s with resp := some ⟨false, BitVec.ofNat 32 (s.kcoefBits i j).toNat⟩ }

/-- R118: the effect of an accepted write of each register, and nothing else. The write of `CMD` starts a command
(R131). -/
def Obligations.RegisterWriteEffects : Prop :=
  ∀ (s : State) (d : Word),
    exec (.hwr 0x000#24 0b1111#4 d) s = .next { s with resp := some ⟨false, 0⟩ } ∧
    exec (.hwr 0x02C#24 0b1111#4 d) s = .next { s with resp := some ⟨false, 0⟩ } ∧
    exec (.hwr 0x030#24 0b1111#4 d) s = .next { s with resp := some ⟨false, 0⟩ } ∧
    exec (.hwr 0x004#24 0b1111#4 d) s = .next { s with ie := d.getLsbD 0, resp := some ⟨false, 0⟩ } ∧
    exec (.hwr 0x008#24 0b1111#4 d) s = .next { s with done := s.done && !d.getLsbD 1, resp := some ⟨false, 0⟩ } ∧
    (s.busy = false →
      exec (.hwr 0x00C#24 0b1111#4 d) s = .next { s with
        op := d.extractLsb' 0 8, busy := true, done := false, err := .none, resp := some ⟨false, 0⟩ } ∧
      exec (.hwr 0x010#24 0b1111#4 d) s =
        .next { s with width := d.extractLsb' 0 16, pstate := .raw, resp := some ⟨false, 0⟩ } ∧
      exec (.hwr 0x014#24 0b1111#4 d) s =
        .next { s with height := d.extractLsb' 0 16, pstate := .raw, resp := some ⟨false, 0⟩ } ∧
      exec (.hwr 0x018#24 0b1111#4 d) s = .next { s with channels := d.extractLsb' 0 8, resp := some ⟨false, 0⟩ } ∧
      exec (.hwr 0x01C#24 0b1111#4 d) s = .next { s with ksize := d.extractLsb' 0 8, resp := some ⟨false, 0⟩ } ∧
      exec (.hwr 0x020#24 0b1111#4 d) s = .next { s with kshift := d.extractLsb' 0 5, resp := some ⟨false, 0⟩ } ∧
      exec (.hwr 0x024#24 0b1111#4 d) s = .next { s with threshLow := d.extractLsb' 0 16, resp := some ⟨false, 0⟩ } ∧
      exec (.hwr 0x028#24 0b1111#4 d) s = .next { s with threshHigh := d.extractLsb' 0 16, resp := some ⟨false, 0⟩ } ∧
      ∀ i < 7, ∀ j < 7, ∃ t,
        exec (.hwr (BitVec.ofNat 24 (0x100 + 4 * (8 * i + j))) 0b1111#4 d) s = .next t ∧
        t = { s with kcoef := t.kcoef, resp := some ⟨false, 0⟩ } ∧
        t.kcoefBits i j = d.extractLsb' 0 16 ∧
        ∀ a < 7, ∀ b < 7, (a, b) ≠ (i, j) → t.kcoefBits a b = s.kcoefBits a b)

/-- R131: an accepted write of `CMD` starts a command, whatever the opcode and whether or not the last completion was
acknowledged; the four fields change and nothing else, and `irq` falls. -/
def Obligations.CommandStartEffects : Prop :=
  ∀ (s : State) (d : Word), s.busy = false →
    ∃ t, exec (.hwr 0x00000C#24 0b1111#4 d) s = .next t ∧
      t = { s with op := d.extractLsb' 0 8, busy := true, done := false, err := .none, resp := some ⟨false, 0⟩ } ∧
      t.irq = false

/-- R116: while busy every buffer access and every write of `CMD`, a configuration register or `KCOEF` is refused;
every register read and the writes of `CTRL`, `STATUS` and the read-only registers (which have no effect) are still
accepted. -/
def Obligations.BusyLockoutRefuses : Prop :=
  ∀ s : State, s.busy = true →
    (∀ (b : Buf) (addr : Addr) (be : BitVec 4) (d : Word),
      b.base ≤ addr.toNat → addr.toNat < b.base + b.length s.cfg →
      Refused (.hrd addr) s ∧ Refused (.hwr addr be d) s) ∧
    (∀ (r : Reg) (be : BitVec 4) (d : Word),
      (r = .cmd ∨ r = .width ∨ r = .height ∨ r = .channels ∨ r = .ksize ∨ r = .kshift ∨ r = .threshLow ∨
        r = .threshHigh ∨ ∃ i j, r = .kcoef i j) →
      Refused (.hwr (BitVec.ofNat 24 r.addr) be d) s) ∧
    (∀ r : Reg, ∃ v, exec (.hrd (BitVec.ofNat 24 r.addr)) s = .next { s with resp := some ⟨false, v⟩ }) ∧
    (∀ d : Word, ∃ t, exec (.hwr (BitVec.ofNat 24 (Reg.addr .ctrl)) 0b1111#4 d) s = .next t ∧ t.resp = some ⟨false, 0⟩) ∧
    (∀ d : Word, ∃ t,
      exec (.hwr (BitVec.ofNat 24 (Reg.addr .status)) 0b1111#4 d) s = .next t ∧ t.resp = some ⟨false, 0⟩) ∧
    (∀ (r : Reg) (d : Word), (r = .id ∨ r = .capMaxPix ∨ r = .capKmax) →
      exec (.hwr (BitVec.ofNat 24 r.addr) 0b1111#4 d) s = .next { s with resp := some ⟨false, 0⟩ })

/-- R31: `PSTATE` is RAW after reset and after every accepted write of `WIDTH` or `HEIGHT`, whatever the value; a host
write to `BUF_SMOOTH` does not change it. -/
def Obligations.DimensionWritesReturnToRaw : Prop :=
  State.reset.pstate = .raw ∧
  (∀ (s : State) (rest : List Event), s.pending = .reset :: rest → ∃ t, step s = .next t ∧ t.pstate = .raw) ∧
  (∀ (s : State) (d : Word), s.busy = false →
    (∃ t, exec (.hwr 0x000010#24 0b1111#4 d) s = .next t ∧ t.resp = some ⟨false, 0⟩ ∧ t.pstate = .raw) ∧
    (∃ t, exec (.hwr 0x000014#24 0b1111#4 d) s = .next t ∧ t.resp = some ⟨false, 0⟩ ∧ t.pstate = .raw)) ∧
  (∀ (s : State) (addr : Addr) (be : BitVec 4) (d : Word),
    0x900000 ≤ addr.toNat → addr.toNat < 0x900000 + s.cfg.maxPix →
    ∃ t, exec (.hwr addr be d) s = .next t ∧ t.pstate = s.pstate)

/-- R64, R111: a read of an aligned buffer word while idle returns its four bytes, the lowest address in the low bits,
and changes nothing. -/
def Obligations.BufferWordReads : Prop :=
  ∀ (s : State) (b : Buf) (addr : Addr), s.busy = false → addr.toNat % 4 = 0 →
    b.base ≤ addr.toNat → addr.toNat < b.base + b.length s.cfg →
    exec (.hrd addr) s = .next { s with resp := some ⟨false, BitVec.ofNat 32
      ((s.byte addr.toNat).toNat + 2 ^ 8 * (s.byte (addr.toNat + 1)).toNat +
        2 ^ 16 * (s.byte (addr.toNat + 2)).toNat + 2 ^ 24 * (s.byte (addr.toNat + 3)).toNat)⟩ }

/-- R66, R112: a write of an aligned buffer word while idle stores byte `k` of the data exactly where `be[k] = 1`, and
changes nothing else; byte enables 0b0000 write nothing. -/
def Obligations.BufferWordWrites : Prop :=
  ∀ (s : State) (b : Buf) (addr : Addr) (be : BitVec 4) (d : Word), s.busy = false → addr.toNat % 4 = 0 →
    b.base ≤ addr.toNat → addr.toNat < b.base + b.length s.cfg →
    ∃ t, exec (.hwr addr be d) s = .next t ∧ t = { s with mem := t.mem, resp := some ⟨false, 0⟩ } ∧
      (∀ k < 4, be.getLsbD k = true → (t.byte (addr.toNat + k)).toNat = d.toNat / 2 ^ (8 * k) % 256) ∧
      (∀ k < 4, be.getLsbD k = false → t.byte (addr.toNat + k) = s.byte (addr.toNat + k)) ∧
      (∀ a, ¬ (addr.toNat ≤ a ∧ a < addr.toNat + 4) → t.byte a = s.byte a)

/-- R67: a read answers and changes nothing, at every address, busy or idle. -/
def Obligations.ReadsOnlyAnswer : Prop :=
  ∀ (s : State) (addr : Addr), ∃ r, exec (.hrd addr) s = .next { s with resp := some r }

/-- R116: while busy no host write changes anything but `CTRL.IE` and `STATUS.DONE`, and none raises `DONE`. -/
def Obligations.BusyHostWritesOnlyTouchControl : Prop :=
  ∀ (s : State) (addr : Addr) (be : BitVec 4) (d : Word), s.busy = true →
    ∃ t, exec (.hwr addr be d) s = .next t ∧ t = { s with ie := t.ie, done := t.done, resp := t.resp } ∧
      (t.done = true → s.done = true)

/-! The commands. -/

/-- R153: `GRAY` writes the grey image of `BUF_IN` to the first `N` bytes of `BUF_GRAY`, and nothing else. -/
def Obligations.GrayResult : Prop :=
  ∀ s : State, s.GrayReady →
    ∃ t, exec .gray s = .next t ∧ t = { s.completed with mem := t.mem } ∧
      GreyImageOf s t ∧ SameBytesOutside .gray (s.imgW * s.imgH) s t

/-- R157: `SMOOTH` writes the smoothed image of `BUF_GRAY` to the first `N` bytes of `BUF_SMOOTH`, and nothing else. -/
def Obligations.SmoothResult : Prop :=
  ∀ s : State, s.SmoothReady →
    ∃ t, exec .smooth s = .next t ∧ t = { s.completed with mem := t.mem } ∧
      SmoothImageOf s t ∧ SameBytesOutside .smooth (s.imgW * s.imgH) s t

/-- R159: `PREPROCESS` writes the grey image of `BUF_IN` to `BUF_GRAY` and the smoothed image of that to
`BUF_SMOOTH`, the first `N` bytes of each, and nothing else. -/
def Obligations.PreprocessResult : Prop :=
  ∀ s : State, s.PreprocessReady → s.cfg.WellFormed = true →
    ∃ t, exec .preprocess s = .next t ∧ t = { s.completed with mem := t.mem } ∧
      GreyImageOf s t ∧ SmoothImageOf t t ∧
      ∀ a, ¬ (Buf.base .gray ≤ a ∧ a < Buf.base .gray + s.imgW * s.imgH) →
        ¬ (Buf.base .smooth ≤ a ∧ a < Buf.base .smooth + s.imgW * s.imgH) → t.byte a = s.byte a

/-- R185: `GRADIENT` writes the gradient field of `BUF_SMOOTH` to the first `N` entries of `FLD_MAG2` and `FLD_DIR`,
sets `PSTATE`, and nothing else; no byte of a host-visible buffer changes. -/
def Obligations.GradientResult : Prop :=
  ∀ s : State, s.GradientReady →
    ∃ t, exec .gradient s = .next t ∧
      t = { s.completed with fldMag2 := t.fldMag2, fldDir := t.fldDir, pstate := .gradient } ∧
      GradientFieldOf s t ∧ SameBytes s t ∧
      ∀ n, s.imgW * s.imgH ≤ n → t.fldMag2At n = s.fldMag2At n ∧ t.fldDirAt n = s.fldDirAt n

/-- R188: `NMS` writes the suppressed field to the first `N` entries of `NMS_MAG2`, sets `PSTATE`, and nothing else;
no byte of a host-visible buffer changes. -/
def Obligations.NmsResult : Prop :=
  ∀ s : State, s.NmsReady →
    ∃ t, exec .nms s = .next t ∧ t = { s.completed with nmsMag2 := t.nmsMag2, pstate := .suppressed } ∧
      SuppressedFieldOf s t ∧ SameBytes s t ∧ ∀ n, s.imgW * s.imgH ≤ n → t.nmsMag2At n = s.nmsMag2At n

/-- R192, R193: `HYST` writes 255 at exactly the pixels of the least edge set and 0 at the others of the first `N` bytes
of `BUF_EDGE`, sets `PSTATE`, and nothing else. -/
def Obligations.HystResult : Prop :=
  ∀ s : State, s.HystReady →
    ∃ t, exec .hyst s = .next t ∧ t = { s.completed with mem := t.mem, pstate := .thresholded } ∧
      EdgeMapOf s t ∧ SameBytesOutside .edge (s.imgW * s.imgH) s t

/-- R195: `DETECT` leaves in the field buffers the gradient field of `BUF_SMOOTH` and its suppression, and in
`BUF_EDGE` the edge map of that, sets `PSTATE`, and nothing else, whatever `PSTATE` was. -/
def Obligations.DetectResult : Prop :=
  ∀ s : State, s.DetectReady →
    ∃ t, exec .detect s = .next t ∧
      t = { s.completed with
        mem := t.mem, fldMag2 := t.fldMag2, fldDir := t.fldDir, nmsMag2 := t.nmsMag2, pstate := .thresholded } ∧
      GradientFieldOf s t ∧ SuppressedFieldOf t t ∧ EdgeMapOf t t ∧
      SameBytesOutside .edge (s.imgW * s.imgH) s t ∧
      ∀ n, s.imgW * s.imgH ≤ n →
        t.fldMag2At n = s.fldMag2At n ∧ t.fldDirAt n = s.fldDirAt n ∧ t.nmsMag2At n = s.nmsMag2At n

/-- R132, R230, R231: how `GRAY`, `SMOOTH` and `PREPROCESS` fail: the first check that applies gives the code, and the
command has no other effect. -/
def Obligations.PreprocessorErrors : Prop :=
  ∀ s : State, s.busy = true →
    let k := s.ksize.toNat
    let badKernel := k % 2 = 0 ∨ k < 3 ∨ 7 < k ∨ s.imgW < k ∨ s.imgH < k
    ((s.imgW = 0 ∨ s.imgH = 0 ∨ s.cfg.maxPix < s.imgW * s.imgH) →
      FailsWith .gray s .badConfig ∧ FailsWith .smooth s .badConfig ∧ FailsWith .preprocess s .badConfig) ∧
    (s.FitsBuffers → s.channels ≠ 3 →
      FailsWith .gray s .invalidChannelCount ∧ FailsWith .preprocess s .invalidChannelCount) ∧
    (s.FitsBuffers → badKernel → FailsWith .smooth s .invalidKernelSize) ∧
    (s.FitsBuffers → s.channels = 3 → badKernel → FailsWith .preprocess s .invalidKernelSize)

/-- R132, R230, R231: how `GRADIENT`, `NMS`, `HYST` and `DETECT` fail: the first check that applies gives the code, and
the command has no other effect. -/
def Obligations.EdgeDetectorErrors : Prop :=
  ∀ s : State, s.busy = true →
    let small := s.imgW < 3 ∨ s.imgH < 3
    let fallen := s.threshHigh.toNat ≤ s.threshLow.toNat
    ((s.imgW = 0 ∨ s.imgH = 0 ∨ s.cfg.maxPix < s.imgW * s.imgH) →
      FailsWith .gradient s .badConfig ∧ FailsWith .nms s .badConfig ∧ FailsWith .hyst s .badConfig ∧
      FailsWith .detect s .badConfig) ∧
    (s.FitsBuffers → small → FailsWith .gradient s .dimensionTooSmall ∧ FailsWith .detect s .dimensionTooSmall) ∧
    (s.FitsBuffers → s.pstate ≠ .gradient → FailsWith .nms s .badSequence) ∧
    (s.FitsBuffers → s.pstate ≠ .suppressed → FailsWith .hyst s .badSequence) ∧
    (s.FitsBuffers → s.pstate = .suppressed → fallen → FailsWith .hyst s .invalidThresholds) ∧
    (s.FitsBuffers → ¬ small → fallen → FailsWith .detect s .invalidThresholds)

/-! Composition and determinism. -/

/-- R136: `PREPROCESS` started and completed has the outcome of `GRAY` then `SMOOTH`, each started and completed, but
for the opcode that `CMD` holds. The schedule of the events is the model's (log entry 4). -/
def Obligations.PreprocessIsGrayThenSmooth : Prop :=
  ∀ s : State, s.busy = false → s.FitsBuffers → s.channels = 3 → s.KernelFits →
    ∃ t, stepN 4 { s with pending := [hostCommand 1, .engine, hostCommand 2, .engine] } = .next t ∧
      stepN 2 { s with pending := [hostCommand 3, .engine] } = .next { t with op := 3 } ∧
      t.busy = false ∧ t.err = .none

/-- R136: `DETECT` started and completed has the outcome of `GRADIENT`, `NMS`, `HYST`, each started and completed, but
for the opcode that `CMD` holds. The schedule of the events is the model's (log entry 4). -/
def Obligations.DetectIsItsThreeStages : Prop :=
  ∀ s : State, s.busy = false → s.FitsBuffers → s.AtLeast3x3 → s.ThresholdsRise →
    ∃ t, stepN 6 { s with pending :=
        [hostCommand 4, .engine, hostCommand 5, .engine, hostCommand 6, .engine] } = .next t ∧
      stepN 2 { s with pending := [hostCommand 7, .engine] } = .next { t with op := 7 } ∧
      t.busy = false ∧ t.err = .none

/-- R137: running `DETECT` again on the state it leaves rewrites what that state already holds: the whole state is the
same. -/
def Obligations.DetectIsIdempotent : Prop :=
  ∀ s : State, s.DetectReady → s.cfg.WellFormed = true →
    ∃ t, exec .detect s = .next t ∧ exec .detect { t with busy := true, done := false, err := .none } = .next t

/-- R137: the outputs of `DETECT` are a function of the dimensions, the thresholds and the first `N` bytes of
`BUF_SMOOTH`: two states that agree on these give equal fields and edge maps, whatever else differs. -/
def Obligations.DetectDependsOnlyOnItsInput : Prop :=
  ∀ s u : State, s.DetectReady → u.DetectReady → s.width = u.width → s.height = u.height →
    s.threshLow = u.threshLow → s.threshHigh = u.threshHigh →
    (∀ n < s.imgW * s.imgH, s.sample .smooth n = u.sample .smooth n) →
    ∃ t v, exec .detect s = .next t ∧ exec .detect u = .next v ∧
      ∀ n < s.imgW * s.imgH, t.sample .edge n = v.sample .edge n ∧ t.fldMag2At n = v.fldMag2At n ∧
        t.fldDirAt n = v.fldDirAt n ∧ t.nmsMag2At n = v.nmsMag2At n

/-- R135: whatever transactions the host issues meanwhile, a started command completes: after them the engine's turn
comes and the core is idle with `DONE` set. That the turn comes once nothing else is pending is the model's form of
"a finite time" (log entry 4). -/
def Obligations.CommandsCompleteUnderAnyTraffic : Prop :=
  ∀ (s : State) (traffic : List Request), s.busy = true → s.pending = traffic.map Event.host →
    ∃ t, stepN (traffic.length + 1) s = .next t ∧ t.busy = false ∧ t.done = true ∧ t.pending = []

/-- R270, U3: no result depends on the transactions issued while a command runs: with them or without them the command
leaves the same state, but for `CTRL.IE` and the last response. The schedule of the events is the model's (log
entry 4). -/
def Obligations.TrafficDoesNotChangeResults : Prop :=
  ∀ (s : State) (traffic : List Request), s.busy = true → s.pending = traffic.map Event.host →
    ∃ t u, stepN (traffic.length + 1) s = .next t ∧ step { s with pending := [] } = .next u ∧
      t = { u with ie := t.ie, resp := t.resp }

/-! Invariants and whole-machine rules. -/

/-- R26: every step keeps "`BUSY = 1` implies `DONE = 0` and `ERR = 0`". -/
def Obligations.StepKeepsStatusInvariant : Prop := ∀ s t : State, s.StatusOk → step s = .next t → t.StatusOk

/-- R36, R37, R138: every step keeps the storage in canonical form, listing only elements that exist. The canonical
form is the model's (log entry 1). -/
def Obligations.StepKeepsStorageInvariant : Prop := ∀ s t : State, s.StorageOk → step s = .next t → t.StorageOk

/-- R30, R255: every step keeps what `PSTATE` says of the field buffers. Under GRADIENT, `FLD_MAG2` and `FLD_DIR` hold,
every entry written, the gradient field of an image of the current dimensions, with magnitudes at most 2080800; under
SUPPRESSED, `NMS_MAG2` holds, every entry written, the suppression of that field; under THRESHOLDED both still do (an
inference: no rule says so of that state). -/
def Obligations.StepKeepsFieldInvariant : Prop := ∀ s t : State, s.FieldsOk → step s = .next t → t.FieldsOk

/-- The reset state meets the three invariants. -/
def Obligations.ResetMeetsInvariants : Prop := State.reset.StatusOk ∧ State.reset.StorageOk ∧ State.reset.FieldsOk

/-- R39: no step changes the parameters. -/
def Obligations.ParametersNeverChange : Prop := ∀ s t : State, step s = .next t → t.cfg = s.cfg

/-- R30: `PSTATE` changes only by reset, by an accepted write of `WIDTH` or `HEIGHT`, or by the successful completion
of the command that the stage state machine allows. -/
def Obligations.OnlyTheseEventsChangeTheStage : Prop :=
  ∀ s t : State, step s = .next t → t.pstate ≠ s.pstate →
    (s.nextEvent.1 = .reset ∧ t.pstate = .raw) ∨
    (∃ r, s.nextEvent.1 = .host r ∧ r.we = true ∧ (r.addr = 0x000010#24 ∨ r.addr = 0x000014#24) ∧
      s.busy = false ∧ t.pstate = .raw) ∨
    (s.nextEvent.1 = .engine ∧ s.busy = true ∧ t.err = .none ∧
      ((s.op = 4 ∧ t.pstate = .gradient) ∨
       (s.op = 5 ∧ s.pstate = .gradient ∧ t.pstate = .suppressed) ∨
       (s.op = 6 ∧ s.pstate = .suppressed ∧ t.pstate = .thresholded) ∨
       (s.op = 7 ∧ t.pstate = .thresholded)))

/-- R33, R138: a configuration register or a kernel coefficient changes only by reset or by a host write of its own
address while idle. -/
def Obligations.ConfigurationChangesOnlyByHostOrReset : Prop :=
  ∀ s t : State, step s = .next t →
    s.nextEvent.1 = .reset ∨
    (∃ r, s.nextEvent.1 = .host r ∧ r.we = true ∧ s.busy = false ∧
      (t.width ≠ s.width → r.addr = 0x000010#24) ∧ (t.height ≠ s.height → r.addr = 0x000014#24) ∧
      (t.channels ≠ s.channels → r.addr = 0x000018#24) ∧ (t.ksize ≠ s.ksize → r.addr = 0x00001C#24) ∧
      (t.kshift ≠ s.kshift → r.addr = 0x000020#24) ∧ (t.threshLow ≠ s.threshLow → r.addr = 0x000024#24) ∧
      (t.threshHigh ≠ s.threshHigh → r.addr = 0x000028#24) ∧
      (∀ i < 7, ∀ j < 7, t.kcoefBits i j ≠ s.kcoefBits i j → r.addr.toNat = 0x100 + 4 * (8 * i + j))) ∨
    (t.width = s.width ∧ t.height = s.height ∧ t.channels = s.channels ∧ t.ksize = s.ksize ∧ t.kshift = s.kshift ∧
      t.threshLow = s.threshLow ∧ t.threshHigh = s.threshHigh ∧ t.kcoef = s.kcoef)

/-- R32, R139: `BUSY` rises only by a host write of `CMD` and falls only by the engine's completion step or reset;
`DONE` rises only by a completion step. -/
def Obligations.OnlyCompletionEndsACommand : Prop :=
  ∀ s t : State, step s = .next t →
    (s.busy = false → t.busy = true → ∃ r, s.nextEvent.1 = .host r ∧ r.we = true ∧ r.addr = 0x00000C#24) ∧
    (s.busy = true → t.busy = false → s.nextEvent.1 = .engine ∨ s.nextEvent.1 = .reset) ∧
    (s.done = false → t.done = true → s.nextEvent.1 = .engine ∧ s.busy = true ∧ t.busy = false)

/-- R36, R93, R138: whatever a command's outcome, it changes no register but the status fields, no byte outside the
first `N` bytes of its own output buffers, and no field entry outside the first `N` of its own output fields. -/
def Obligations.CommandsTouchOnlyTheirOutputs : Prop :=
  ∀ (i : Instr) (s : State), i.format = .cmdw →
    ∃ t, exec i s = .next t ∧
      t = { s with busy := t.busy, done := t.done, err := t.err, pstate := t.pstate, mem := t.mem,
                   fldMag2 := t.fldMag2, fldDir := t.fldDir, nmsMag2 := t.nmsMag2 } ∧
      (∀ a, t.byte a ≠ s.byte a →
        ((i = .gray ∨ i = .preprocess) ∧ 0x800000 ≤ a ∧ a < 0x800000 + s.imgW * s.imgH) ∨
        ((i = .smooth ∨ i = .preprocess) ∧ 0x900000 ≤ a ∧ a < 0x900000 + s.imgW * s.imgH) ∨
        ((i = .hyst ∨ i = .detect) ∧ 0xA00000 ≤ a ∧ a < 0xA00000 + s.imgW * s.imgH)) ∧
      (∀ n, t.fldMag2At n ≠ s.fldMag2At n ∨ t.fldDirAt n ≠ s.fldDirAt n →
        (i = .gradient ∨ i = .detect) ∧ n < s.imgW * s.imgH) ∧
      (∀ n, t.nmsMag2At n ≠ s.nmsMag2At n → (i = .nms ∨ i = .detect) ∧ n < s.imgW * s.imgH)

/-- R41, R233: `irq` after a completion is `CTRL.IE`; it is 0 after an acknowledgement and after a start; enabling the
interrupt gives it the value of `DONE` at once. When the completion comes is the model's (log entry 4). -/
def Obligations.InterruptFollowsCompletion : Prop :=
  (∀ s : State, s.busy = true → s.pending = [] → ∃ t, step s = .next t ∧ t.irq = s.ie) ∧
  (∀ (s : State) (d : Word), d.getLsbD 1 = true →
    ∃ t, exec (.hwr 0x000008#24 0b1111#4 d) s = .next t ∧ t.irq = false ∧ t.err = s.err ∧ t.pstate = s.pstate) ∧
  (∀ (s : State) (d : Word), s.busy = false →
    ∃ t, exec (.hwr 0x00000C#24 0b1111#4 d) s = .next t ∧ t.irq = false) ∧
  (∀ (s : State) (d : Word), d.getLsbD 0 = true →
    ∃ t, exec (.hwr 0x000004#24 0b1111#4 d) s = .next t ∧ t.irq = s.done)

/-! The pixel functions. -/

/-- R152: for legal weights the grey function rounds the weighted mean to nearest, half up, its clamp never engages,
and a grey pixel maps to itself. -/
def Obligations.GreyRoundsToNearest : Prop :=
  ∀ cfg : Config.Params, cfg.WellFormed = true →
    (∀ c0 ≤ 255, ∀ c1 ≤ 255, ∀ c2 ≤ 255,
      2 * cfg.gden * grayPx cfg c0 c1 c2 ≤ 2 * (cfg.gw0 * c0 + cfg.gw1 * c1 + cfg.gw2 * c2) + cfg.gden ∧
      2 * (cfg.gw0 * c0 + cfg.gw1 * c1 + cfg.gw2 * c2) + cfg.gden < 2 * cfg.gden * (grayPx cfg c0 c1 c2 + 1)) ∧
    ∀ v ≤ 255, grayPx cfg v v v = v

/-- R158(b): when the used coefficients are not negative and sum to `2^KSHIFT`, every output sample of `SMOOTH` lies
between the least and the largest sample of its replicated neighbourhood. -/
def Obligations.NormalisedKernelStaysBetweenNeighbours : Prop :=
  ∀ (s : State) (x y lo hi : Nat), s.SmoothReady → x < s.imgW → y < s.imgH →
    (∀ i < s.ksize.toNat, ∀ j < s.ksize.toNat, 0 ≤ s.coef i j) →
    ∑ i ∈ Finset.range s.ksize.toNat, ∑ j ∈ Finset.range s.ksize.toNat, s.coef i j = 2 ^ s.kshift.toNat →
    (∀ i < s.ksize.toNat, ∀ j < s.ksize.toNat,
      (lo : Int) ≤ s.replicated .gray ((x : Int) + j - (s.ksize.toNat - 1) / 2)
        ((y : Int) + i - (s.ksize.toNat - 1) / 2) ∧
      s.replicated .gray ((x : Int) + j - (s.ksize.toNat - 1) / 2)
        ((y : Int) + i - (s.ksize.toNat - 1) / 2) ≤ (hi : Int)) →
    ∃ t, exec .smooth s = .next t ∧
      lo ≤ (t.sample .smooth (y * s.imgW + x)).toNat ∧ (t.sample .smooth (y * s.imgW + x)).toNat ≤ hi

/-- R182: over 8-bit samples the derivatives lie in -1020 to 1020 and the squared magnitude is at most 2080800, which
is below 2^21; on a constant image both derivatives are 0 everywhere, border included. -/
def Obligations.GradientStaysInRange : Prop :=
  ∀ (image : Nat → Nat) (w h x y : Nat),
    ((∀ n, image n ≤ 255) →
      |gradX image w h x y| ≤ 1020 ∧ |gradY image w h x y| ≤ 1020 ∧
      mag2Of (gradX image w h x y) (gradY image w h x y) ≤ 2080800 ∧
      mag2Of (gradX image w h x y) (gradY image w h x y) < 2 ^ 21) ∧
    (∀ v, (∀ n, image n = v) → gradX image w h x y = 0 ∧ gradY image w h x y = 0)

/-- R182, R195: on a constant `BUF_SMOOTH`, `DETECT` leaves magnitude 0 and direction 0 everywhere and an edge map of
zeros, for any thresholds it accepts. -/
def Obligations.ConstantImageHasNoEdges : Prop :=
  ∀ (s : State) (v : Byte), s.DetectReady → (∀ n < s.imgW * s.imgH, s.sample .smooth n = v) →
    ∃ t, exec .detect s = .next t ∧
      ∀ n < s.imgW * s.imgH,
        t.fldMag2At n = 0 ∧ t.fldDirAt n = 0 ∧ t.nmsMag2At n = 0 ∧ t.sample .edge n = 0

/-- R184: the direction code of a gradient is the 45 degree sector its angle lies in, the boundaries being where one
component is `√2 - 1` (the tangent of 22.5 degrees) of the other; the code of the opposite gradient is the same; a zero
gradient has code 0. -/
def Obligations.DirectionIsTheSectorOfTheAngle : Prop :=
  dirOf 0 0 = 0 ∧
  ∀ gx gy : Int, ¬ (gx = 0 ∧ gy = 0) →
    (dirOf gx gy = 0 ↔ |(gy : ℝ)| < (Real.sqrt 2 - 1) * |(gx : ℝ)|) ∧
    (dirOf gx gy = 2 ↔ |(gx : ℝ)| < (Real.sqrt 2 - 1) * |(gy : ℝ)|) ∧
    (dirOf gx gy = 1 ↔ (Real.sqrt 2 - 1) * |(gx : ℝ)| ≤ |(gy : ℝ)| ∧ (Real.sqrt 2 - 1) * |(gy : ℝ)| ≤ |(gx : ℝ)| ∧
      0 < gx * gy) ∧
    (dirOf gx gy = 3 ↔ (Real.sqrt 2 - 1) * |(gx : ℝ)| ≤ |(gy : ℝ)| ∧ (Real.sqrt 2 - 1) * |(gy : ℝ)| ≤ |(gx : ℝ)| ∧
      gx * gy < 0) ∧
    dirOf (-gx) (-gy) = dirOf gx gy

/-- R183, R191: comparing squares classifies a pixel exactly as comparing the real magnitude with the thresholds
would. -/
def Obligations.ThresholdsCompareTheRealMagnitude : Prop :=
  ∀ (s : State) (n : Nat),
    (s.strongAt n = true ↔ (s.threshHigh.toNat : ℝ) ≤ Real.sqrt ((s.nmsMag2At n).toNat : ℝ)) ∧
    (s.weakAt n = true ↔ (s.threshLow.toNat : ℝ) ≤ Real.sqrt ((s.nmsMag2At n).toNat : ℝ) ∧
      Real.sqrt ((s.nmsMag2At n).toNat : ℝ) < (s.threshHigh.toNat : ℝ))

/-- R188: suppression only zeroes: every output magnitude is the input magnitude or 0, and 0 on the outer ring. -/
def Obligations.SuppressionNeverAmplifies : Prop :=
  ∀ s : State, s.NmsReady →
    ∃ t, exec .nms s = .next t ∧
      ∀ x y, x < s.imgW → y < s.imgH →
        (t.nmsMag2At (y * s.imgW + x) = s.fldMag2At (y * s.imgW + x) ∨ t.nmsMag2At (y * s.imgW + x) = 0) ∧
        (x = 0 ∨ y = 0 ∨ x + 1 = s.imgW ∨ y + 1 = s.imgH → t.nmsMag2At (y * s.imgW + x) = 0)

/-- R193: every byte of the edge map is 0 or 255, no pixel below `low` is an edge, and every strong pixel is one. -/
def Obligations.EdgeMapIsBinaryAndAboveLow : Prop :=
  ∀ s : State, s.HystReady →
    ∃ t, exec .hyst s = .next t ∧
      ∀ n < s.imgW * s.imgH,
        (t.sample .edge n = 0 ∨ t.sample .edge n = 255) ∧
        ((s.nmsMag2At n).toNat < s.threshLow.toNat ^ 2 → t.sample .edge n = 0) ∧
        (s.threshHigh.toNat ^ 2 ≤ (s.nmsMag2At n).toNat → t.sample .edge n = 255)
end

