-- ==== Sys2Proof/Laws/Memory.lean ====
section
/-! SUPPORT. The laws of sparse storage: reading after a write or a fill, membership after them, and that each keeps the
canonical form. -/

namespace Sys2Proof.Machine

variable {α : Type}

/-! Reading after a write. -/

@[simp] theorem sparseFind_nil (a : Nat) : sparseFind ([] : Sparse α) a = none := rfl

theorem sparseFind_cons (k : Nat) (v : α) (m : Sparse α) (a : Nat) :
    sparseFind ((k, v) :: m) a = if k = a then some v else sparseFind m a := rfl

/-- A read after a write gives the written element there and is unchanged elsewhere. -/
theorem sparseFind_set (m : Sparse α) (a : Nat) (v : α) (b : Nat) :
    sparseFind (sparseSet m a v) b = if a = b then some v else sparseFind m b := by
  induction m with
  | nil => simp [sparseSet, sparseFind_cons]
  | cons c rest ih =>
    obtain ⟨k, w⟩ := c
    unfold sparseSet
    split
    · simp [sparseFind_cons]
    · split
      · subst a
        simp only [sparseFind_cons]
        split <;> rfl
      · simp only [sparseFind_cons, ih]
        split
        · subst k
          split
          · omega
          · rfl
        · rfl

theorem sparseFind_set_self (m : Sparse α) (a : Nat) (v : α) : sparseFind (sparseSet m a v) a = some v := by
  simp [sparseFind_set]

theorem sparseFind_set_other (m : Sparse α) {a b : Nat} (v : α) (h : a ≠ b) :
    sparseFind (sparseSet m a v) b = sparseFind m b := by
  simp [sparseFind_set, h]

/-! Reading after a fill. -/

theorem sparseFind_append (m n : Sparse α) (a : Nat) :
    sparseFind (m ++ n) a = (sparseFind m a).or (sparseFind n a) := by
  induction m with
  | nil => simp
  | cons c rest ih =>
    obtain ⟨k, v⟩ := c
    simp only [List.cons_append, sparseFind_cons, ih]
    split <;> simp

/-- Keeping the elements whose index passes a test. -/
theorem sparseFind_filter (m : Sparse α) (p : Nat → Bool) (a : Nat) :
    sparseFind (m.filter fun c => p c.1) a = if p a then sparseFind m a else none := by
  induction m with
  | nil => simp
  | cons c rest ih =>
    obtain ⟨k, v⟩ := c
    by_cases hk : p k
    · simp only [List.filter_cons, hk, if_true, sparseFind_cons, ih]
      by_cases hka : k = a
      · subst hka; simp [hk]
      · simp [hka]
    · rw [List.filter_cons_of_neg (by simpa using hk), ih, sparseFind_cons]
      by_cases hka : k = a
      · subst hka; simp [hk]
      · simp [hka]

theorem sparseFind_map_range (base n : Nat) (f : Nat → α) (a : Nat) :
    sparseFind ((List.range n).map fun k => (base + k, f k)) a =
      if base ≤ a ∧ a < base + n then some (f (a - base)) else none := by
  induction n with
  | zero =>
    have h : ¬ (base ≤ a ∧ a < base + 0) := by omega
    rw [if_neg h]
    rfl
  | succ n ih =>
    simp only [List.range_succ, List.map_append, List.map_cons, List.map_nil, sparseFind_append, ih, sparseFind_cons,
      sparseFind_nil]
    by_cases h : base ≤ a ∧ a < base + n
    · have h' : base ≤ a ∧ a < base + (n + 1) := by omega
      simp [h, h']
    · by_cases he : base + n = a
      · have h' : base ≤ a ∧ a < base + (n + 1) := by omega
        have hn : a - base = n := by omega
        simp [h', he, hn]
      · have h' : ¬ (base ≤ a ∧ a < base + (n + 1)) := by omega
        simp [h, h', he]

/-- A read after a fill gives the filled element inside the filled range and is unchanged outside it. -/
theorem sparseFind_fill (m : Sparse α) (base n : Nat) (f : Nat → α) (a : Nat) :
    sparseFind (sparseFill m base n f) a =
      if base ≤ a ∧ a < base + n then some (f (a - base)) else sparseFind m a := by
  unfold sparseFill
  rw [sparseFind_append, sparseFind_append, sparseFind_map_range,
    sparseFind_filter m (fun k => decide (k < base)), sparseFind_filter m (fun k => decide (base + n ≤ k))]
  by_cases h1 : a < base
  · have h2 : ¬ (base ≤ a ∧ a < base + n) := by omega
    have h3 : ¬ (base + n ≤ a) := by omega
    simp [h1, h2, h3]
  · by_cases h2 : base ≤ a ∧ a < base + n
    · simp [h1, h2]
    · have h3 : base + n ≤ a := by omega
      simp [h1, h2, h3]

/-! Membership. -/

theorem mem_of_sparseFind {m : Sparse α} {a : Nat} {v : α} (h : sparseFind m a = some v) : (a, v) ∈ m := by
  induction m with
  | nil => simp at h
  | cons c rest ih =>
    obtain ⟨k, w⟩ := c
    rw [sparseFind_cons] at h
    split at h
    · rename_i hk
      cases h
      simp [hk]
    · exact List.mem_cons_of_mem _ (ih h)

theorem mem_sparseSet {m : Sparse α} {a : Nat} {v : α} {c : Nat × α} (h : c ∈ sparseSet m a v) :
    c = (a, v) ∨ c ∈ m := by
  induction m with
  | nil => simpa [sparseSet] using h
  | cons d rest ih =>
    obtain ⟨k, w⟩ := d
    unfold sparseSet at h
    split at h
    · simpa using h
    · split at h
      · rcases List.mem_cons.1 h with h | h
        · exact .inl h
        · exact .inr (List.mem_cons_of_mem _ h)
      · rcases List.mem_cons.1 h with h | h
        · exact .inr (by simp [h])
        · rcases ih h with h | h
          · exact .inl h
          · exact .inr (List.mem_cons_of_mem _ h)

theorem mem_sparseFill {m : Sparse α} {base n : Nat} {f : Nat → α} {c : Nat × α} (h : c ∈ sparseFill m base n f) :
    (∃ k < n, c = (base + k, f k)) ∨ c ∈ m := by
  simp only [sparseFill, List.mem_append, List.mem_filter, List.mem_map, List.mem_range] at h
  rcases h with (h | ⟨k, hk, rfl⟩) | h
  · exact .inr h.1
  · exact .inl ⟨k, hk, rfl⟩
  · exact .inr h.1

/-! The canonical form. -/

@[simp] theorem sparseRisesFrom_nil (lo : Nat) : sparseRisesFrom lo ([] : Sparse α) = true := rfl

theorem sparseRisesFrom_cons (lo k : Nat) (v : α) (m : Sparse α) :
    sparseRisesFrom lo ((k, v) :: m) = true ↔ lo ≤ k ∧ sparseRisesFrom (k + 1) m = true := by
  simp [sparseRisesFrom]

theorem sparseRisesFrom_weaken {lo lo' : Nat} {m : Sparse α} (h : lo' ≤ lo) (hm : sparseRisesFrom lo m = true) :
    sparseRisesFrom lo' m = true := by
  cases m with
  | nil => rfl
  | cons c rest =>
    obtain ⟨k, v⟩ := c
    rw [sparseRisesFrom_cons] at hm ⊢
    exact ⟨h.trans hm.1, hm.2⟩

theorem le_of_mem_sparseRisesFrom {lo : Nat} {m : Sparse α} {c : Nat × α} (hm : sparseRisesFrom lo m = true)
    (hc : c ∈ m) : lo ≤ c.1 := by
  induction m generalizing lo with
  | nil => simp at hc
  | cons d rest ih =>
    obtain ⟨k, v⟩ := d
    rw [sparseRisesFrom_cons] at hm
    rcases List.mem_cons.1 hc with rfl | hc
    · exact hm.1
    · exact (hm.1.trans (Nat.le_succ k)).trans (ih hm.2 hc)

theorem sparseRisesFrom_set {lo : Nat} {m : Sparse α} {a : Nat} {v : α} (ha : lo ≤ a)
    (hm : sparseRisesFrom lo m = true) : sparseRisesFrom lo (sparseSet m a v) = true := by
  induction m generalizing lo with
  | nil => simp [sparseSet, sparseRisesFrom, ha]
  | cons c rest ih =>
    obtain ⟨k, w⟩ := c
    have hk := (sparseRisesFrom_cons lo k w rest).1 hm
    unfold sparseSet
    split
    · rw [sparseRisesFrom_cons, sparseRisesFrom_cons]
      exact ⟨ha, by omega, hk.2⟩
    · split
      · subst a
        rw [sparseRisesFrom_cons]
        exact hk
      · rw [sparseRisesFrom_cons]
        exact ⟨hk.1, ih (by omega) hk.2⟩

/-- A write keeps the canonical form. -/
theorem sparseWf_set {m : Sparse α} {a : Nat} {v : α} (hm : sparseWf m = true) : sparseWf (sparseSet m a v) = true :=
  sparseRisesFrom_set (Nat.zero_le a) hm

theorem sparseRisesFrom_filter {lo : Nat} {m : Sparse α} (p : Nat × α → Bool) (hm : sparseRisesFrom lo m = true) :
    sparseRisesFrom lo (m.filter p) = true := by
  induction m generalizing lo with
  | nil => rfl
  | cons c rest ih =>
    obtain ⟨k, v⟩ := c
    rw [sparseRisesFrom_cons] at hm
    by_cases hp : p (k, v)
    · simp only [List.filter_cons, hp, if_true, sparseRisesFrom_cons]
      exact ⟨hm.1, ih hm.2⟩
    · simp only [List.filter_cons, hp]
      exact sparseRisesFrom_weaken (by omega) (ih hm.2)

/-- Two stores one after the other rise when each does and the first ends before the second begins. -/
theorem sparseRisesFrom_append {lo hi : Nat} {m n : Sparse α} (hm : sparseRisesFrom lo m = true)
    (hn : sparseRisesFrom hi n = true) (hlo : lo ≤ hi) (hlt : ∀ c ∈ m, c.1 < hi) :
    sparseRisesFrom lo (m ++ n) = true := by
  induction m generalizing lo with
  | nil => exact sparseRisesFrom_weaken hlo hn
  | cons c rest ih =>
    obtain ⟨k, v⟩ := c
    rw [sparseRisesFrom_cons] at hm
    have hk : k < hi := hlt (k, v) (by simp)
    simp only [List.cons_append, sparseRisesFrom_cons]
    exact ⟨hm.1, ih hm.2 hk (fun c hc => hlt c (List.mem_cons_of_mem _ hc))⟩

theorem sparseRisesFrom_map_range (base n : Nat) (f : Nat → α) :
    sparseRisesFrom base ((List.range n).map fun k => (base + k, f k)) = true := by
  induction n with
  | zero => rfl
  | succ n ih =>
    rw [List.range_succ, List.map_append]
    refine sparseRisesFrom_append (hi := base + n) ih (by simp [sparseRisesFrom]) (by omega) ?_
    intro c hc
    obtain ⟨k, hk, rfl⟩ := List.mem_map.1 hc
    have := List.mem_range.1 hk
    show base + k < base + n
    omega

theorem sparseRisesFrom_filter_ge {lo hi : Nat} {m : Sparse α} (hm : sparseRisesFrom lo m = true) :
    sparseRisesFrom hi (m.filter fun c => decide (hi ≤ c.1)) = true := by
  induction m generalizing lo with
  | nil => rfl
  | cons c rest ih =>
    obtain ⟨k, v⟩ := c
    rw [sparseRisesFrom_cons] at hm
    by_cases hk : hi ≤ k
    · simp only [List.filter_cons, hk, decide_true, if_true, sparseRisesFrom_cons]
      exact ⟨trivial, sparseRisesFrom_filter _ hm.2⟩
    · simp only [List.filter_cons, hk, decide_false]
      exact ih hm.2

/-- A fill keeps the canonical form. -/
theorem sparseWf_fill {m : Sparse α} {base n : Nat} {f : Nat → α} (hm : sparseWf m = true) :
    sparseWf (sparseFill m base n f) = true := by
  unfold sparseWf sparseFill
  rw [List.append_assoc]
  refine sparseRisesFrom_append (hi := base) (sparseRisesFrom_filter _ hm) ?_ (Nat.zero_le _) ?_
  · refine sparseRisesFrom_append (hi := base + n) (sparseRisesFrom_map_range base n f)
      (sparseRisesFrom_filter_ge hm) (Nat.le_add_right _ _) ?_
    intro c hc
    obtain ⟨k, hk, rfl⟩ := List.mem_map.1 hc
    have := List.mem_range.1 hk
    show base + k < base + n
    omega
  · intro c hc
    have h := (List.mem_filter.1 hc).2
    simpa using h

/-- A fill depends only on the elements it stores. -/
theorem sparseFill_congr {m : Sparse α} {base n : Nat} {f g : Nat → α} (h : ∀ k < n, f k = g k) :
    sparseFill m base n f = sparseFill m base n g := by
  have hm : (List.range n).map (fun k => (base + k, f k)) = (List.range n).map (fun k => (base + k, g k)) :=
    List.map_congr_left fun k hk => by rw [h k (List.mem_range.1 hk)]
  simp only [sparseFill, hm]

/-- Filling the same elements twice is filling them once. -/
theorem sparseFill_fill (m : Sparse α) (base n : Nat) (f : Nat → α) :
    sparseFill (sparseFill m base n f) base n f = sparseFill m base n f := by
  have hlo : ∀ k, k ∈ List.range n → ¬ (base + k < base) := by intros; omega
  have hhi : ∀ k, k ∈ List.range n → ¬ (base + n ≤ base + k) := by
    intro k hk
    have := List.mem_range.1 hk
    omega
  have h1 : ((List.range n).map fun k => (base + k, f k)).filter (fun c => decide (c.1 < base)) = [] := by
    simp
  have h2 : ((List.range n).map fun k => (base + k, f k)).filter (fun c => decide (base + n ≤ c.1)) = [] := by
    simp
  have h3 : (m.filter fun c => decide (base + n ≤ c.1)).filter (fun c => decide (c.1 < base)) = [] := by
    rw [List.filter_filter, List.filter_eq_nil_iff]
    intro c _
    simp only [Bool.and_eq_true, decide_eq_true_eq]
    omega
  have h4 : (m.filter fun c => decide (c.1 < base)).filter (fun c => decide (base + n ≤ c.1)) = [] := by
    rw [List.filter_filter, List.filter_eq_nil_iff]
    intro c _
    simp only [Bool.and_eq_true, decide_eq_true_eq]
    omega
  conv_lhs => unfold sparseFill
  simp only [sparseFill, List.filter_append, h1, h2, h3, h4, List.append_nil, List.nil_append, List.filter_filter,
    Bool.and_self]

/-! A word write. -/

/-- A read after writing the enabled lanes below `n` of a word. -/
theorem sparseFind_writeLanes (be : BitVec 4) (d : Word) (a n : Nat) (m : Memory) (b : Nat) :
    sparseFind (writeLanes be d a n m) b =
      if a ≤ b ∧ b < a + n ∧ be.getLsbD (b - a) = true then some (d.extractLsb' (8 * (b - a)) 8) else sparseFind m b := by
  induction n with
  | zero =>
    have h : ¬ (a ≤ b ∧ b < a + 0 ∧ be.getLsbD (b - a) = true) := by omega
    simp only [writeLanes, h, if_false]
  | succ n ih =>
    unfold writeLanes
    by_cases hb : b = a + n
    · subst hb
      have h1 : ¬ (a ≤ a + n ∧ a + n < a + n ∧ be.getLsbD (a + n - a) = true) := by omega
      have h2 : a + n - a = n := by omega
      by_cases he : be.getLsbD n
      · simp [he, sparseFind_set, h2]
      · simp [he, ih, h2]
    · have h1 : (a ≤ b ∧ b < a + n ∧ be.getLsbD (b - a) = true) ↔
          (a ≤ b ∧ b < a + (n + 1) ∧ be.getLsbD (b - a) = true) := by
        constructor <;> rintro ⟨h, h', h''⟩ <;> exact ⟨h, by omega, h''⟩
      have h2 : a + n ≠ b := fun h => hb h.symm
      by_cases he : be.getLsbD n
      · simp only [he, if_true, sparseFind_set_other _ _ h2, ih, h1]
      · simp only [Bool.not_eq_true] at he
        simp only [he, Bool.false_eq_true, if_false, ih, h1]

/-- A word write keeps the canonical form. -/
theorem Memory_wf_writeLanes {be : BitVec 4} {d : Word} {a n : Nat} {m : Memory} (hm : m.wf = true) :
    (writeLanes be d a n m).wf = true := by
  induction n with
  | zero => exact hm
  | succ n ih =>
    unfold writeLanes
    split
    · exact sparseWf_set ih
    · exact ih

/-- A fill of the buffers' memory keeps the canonical form. -/
theorem Memory_wf_fill {m : Memory} {base n : Nat} {f : Nat → Byte} (hm : m.wf = true) :
    Memory.wf (sparseFill m base n f) = true := sparseWf_fill hm

/-- Nothing is listed at reset, which is canonical. -/
theorem Memory_wf_reset : Memory.wf State.reset.mem = true := rfl

theorem mem_writeLanes {be : BitVec 4} {d : Word} {a n : Nat} {m : Memory} {c : Host.Cell}
    (h : c ∈ writeLanes be d a n m) : (∃ k < n, c.1 = a + k) ∨ c ∈ m := by
  induction n with
  | zero => exact .inr h
  | succ n ih =>
    unfold writeLanes at h
    split at h
    · rcases mem_sparseSet h with rfl | h
      · exact .inl ⟨n, Nat.lt_succ_self n, rfl⟩
      · rcases ih h with ⟨k, hk, e⟩ | h
        · exact .inl ⟨k, by omega, e⟩
        · exact .inr h
    · rcases ih h with ⟨k, hk, e⟩ | h
      · exact .inl ⟨k, by omega, e⟩
      · exact .inr h

end Sys2Proof.Machine
end

