-- ==== Sys2Proof/Laws/State.lean ====
section
/-! SUPPORT. One lemma per field per update of the state, and what each update leaves of the readers. -/

namespace Sys2Proof.Machine

variable (s : State)

/-! `respond`. -/

@[simp] theorem State.respond_cfg (e : Bool) (d : Word) : (s.respond e d).cfg = s.cfg := rfl
@[simp] theorem State.respond_ie (e : Bool) (d : Word) : (s.respond e d).ie = s.ie := rfl
@[simp] theorem State.respond_busy (e : Bool) (d : Word) : (s.respond e d).busy = s.busy := rfl
@[simp] theorem State.respond_done (e : Bool) (d : Word) : (s.respond e d).done = s.done := rfl
@[simp] theorem State.respond_err (e : Bool) (d : Word) : (s.respond e d).err = s.err := rfl
@[simp] theorem State.respond_pstate (e : Bool) (d : Word) : (s.respond e d).pstate = s.pstate := rfl
@[simp] theorem State.respond_op (e : Bool) (d : Word) : (s.respond e d).op = s.op := rfl
@[simp] theorem State.respond_width (e : Bool) (d : Word) : (s.respond e d).width = s.width := rfl
@[simp] theorem State.respond_height (e : Bool) (d : Word) : (s.respond e d).height = s.height := rfl
@[simp] theorem State.respond_channels (e : Bool) (d : Word) : (s.respond e d).channels = s.channels := rfl
@[simp] theorem State.respond_ksize (e : Bool) (d : Word) : (s.respond e d).ksize = s.ksize := rfl
@[simp] theorem State.respond_kshift (e : Bool) (d : Word) : (s.respond e d).kshift = s.kshift := rfl
@[simp] theorem State.respond_threshLow (e : Bool) (d : Word) : (s.respond e d).threshLow = s.threshLow := rfl
@[simp] theorem State.respond_threshHigh (e : Bool) (d : Word) : (s.respond e d).threshHigh = s.threshHigh := rfl
@[simp] theorem State.respond_kcoef (e : Bool) (d : Word) : (s.respond e d).kcoef = s.kcoef := rfl
@[simp] theorem State.respond_mem (e : Bool) (d : Word) : (s.respond e d).mem = s.mem := rfl
@[simp] theorem State.respond_fldMag2 (e : Bool) (d : Word) : (s.respond e d).fldMag2 = s.fldMag2 := rfl
@[simp] theorem State.respond_fldDir (e : Bool) (d : Word) : (s.respond e d).fldDir = s.fldDir := rfl
@[simp] theorem State.respond_nmsMag2 (e : Bool) (d : Word) : (s.respond e d).nmsMag2 = s.nmsMag2 := rfl
@[simp] theorem State.respond_epoch (e : Bool) (d : Word) : (s.respond e d).epoch = s.epoch := rfl
@[simp] theorem State.respond_pending (e : Bool) (d : Word) : (s.respond e d).pending = s.pending := rfl
@[simp] theorem State.respond_resp (e : Bool) (d : Word) : (s.respond e d).resp = some ⟨e, d⟩ := rfl

/-! `refuse`. -/

@[simp] theorem State.refuse_cfg : (s.refuse).cfg = s.cfg := rfl
@[simp] theorem State.refuse_ie : (s.refuse).ie = s.ie := rfl
@[simp] theorem State.refuse_busy : (s.refuse).busy = s.busy := rfl
@[simp] theorem State.refuse_done : (s.refuse).done = s.done := rfl
@[simp] theorem State.refuse_err : (s.refuse).err = s.err := rfl
@[simp] theorem State.refuse_pstate : (s.refuse).pstate = s.pstate := rfl
@[simp] theorem State.refuse_op : (s.refuse).op = s.op := rfl
@[simp] theorem State.refuse_width : (s.refuse).width = s.width := rfl
@[simp] theorem State.refuse_height : (s.refuse).height = s.height := rfl
@[simp] theorem State.refuse_channels : (s.refuse).channels = s.channels := rfl
@[simp] theorem State.refuse_ksize : (s.refuse).ksize = s.ksize := rfl
@[simp] theorem State.refuse_kshift : (s.refuse).kshift = s.kshift := rfl
@[simp] theorem State.refuse_threshLow : (s.refuse).threshLow = s.threshLow := rfl
@[simp] theorem State.refuse_threshHigh : (s.refuse).threshHigh = s.threshHigh := rfl
@[simp] theorem State.refuse_kcoef : (s.refuse).kcoef = s.kcoef := rfl
@[simp] theorem State.refuse_mem : (s.refuse).mem = s.mem := rfl
@[simp] theorem State.refuse_fldMag2 : (s.refuse).fldMag2 = s.fldMag2 := rfl
@[simp] theorem State.refuse_fldDir : (s.refuse).fldDir = s.fldDir := rfl
@[simp] theorem State.refuse_nmsMag2 : (s.refuse).nmsMag2 = s.nmsMag2 := rfl
@[simp] theorem State.refuse_epoch : (s.refuse).epoch = s.epoch := rfl
@[simp] theorem State.refuse_pending : (s.refuse).pending = s.pending := rfl
@[simp] theorem State.refuse_resp : (s.refuse).resp = some ⟨true, 0⟩ := rfl

/-! `accept`. -/

@[simp] theorem State.accept_cfg : (s.accept).cfg = s.cfg := rfl
@[simp] theorem State.accept_ie : (s.accept).ie = s.ie := rfl
@[simp] theorem State.accept_busy : (s.accept).busy = s.busy := rfl
@[simp] theorem State.accept_done : (s.accept).done = s.done := rfl
@[simp] theorem State.accept_err : (s.accept).err = s.err := rfl
@[simp] theorem State.accept_pstate : (s.accept).pstate = s.pstate := rfl
@[simp] theorem State.accept_op : (s.accept).op = s.op := rfl
@[simp] theorem State.accept_width : (s.accept).width = s.width := rfl
@[simp] theorem State.accept_height : (s.accept).height = s.height := rfl
@[simp] theorem State.accept_channels : (s.accept).channels = s.channels := rfl
@[simp] theorem State.accept_ksize : (s.accept).ksize = s.ksize := rfl
@[simp] theorem State.accept_kshift : (s.accept).kshift = s.kshift := rfl
@[simp] theorem State.accept_threshLow : (s.accept).threshLow = s.threshLow := rfl
@[simp] theorem State.accept_threshHigh : (s.accept).threshHigh = s.threshHigh := rfl
@[simp] theorem State.accept_kcoef : (s.accept).kcoef = s.kcoef := rfl
@[simp] theorem State.accept_mem : (s.accept).mem = s.mem := rfl
@[simp] theorem State.accept_fldMag2 : (s.accept).fldMag2 = s.fldMag2 := rfl
@[simp] theorem State.accept_fldDir : (s.accept).fldDir = s.fldDir := rfl
@[simp] theorem State.accept_nmsMag2 : (s.accept).nmsMag2 = s.nmsMag2 := rfl
@[simp] theorem State.accept_epoch : (s.accept).epoch = s.epoch := rfl
@[simp] theorem State.accept_pending : (s.accept).pending = s.pending := rfl
@[simp] theorem State.accept_resp : (s.accept).resp = some ⟨false, 0⟩ := rfl

/-! `startCommand`. -/

@[simp] theorem State.startCommand_cfg (o : BitVec 8) : (s.startCommand o).cfg = s.cfg := rfl
@[simp] theorem State.startCommand_ie (o : BitVec 8) : (s.startCommand o).ie = s.ie := rfl
@[simp] theorem State.startCommand_busy (o : BitVec 8) : (s.startCommand o).busy = true := rfl
@[simp] theorem State.startCommand_done (o : BitVec 8) : (s.startCommand o).done = false := rfl
@[simp] theorem State.startCommand_err (o : BitVec 8) : (s.startCommand o).err = .none := rfl
@[simp] theorem State.startCommand_pstate (o : BitVec 8) : (s.startCommand o).pstate = s.pstate := rfl
@[simp] theorem State.startCommand_op (o : BitVec 8) : (s.startCommand o).op = o := rfl
@[simp] theorem State.startCommand_width (o : BitVec 8) : (s.startCommand o).width = s.width := rfl
@[simp] theorem State.startCommand_height (o : BitVec 8) : (s.startCommand o).height = s.height := rfl
@[simp] theorem State.startCommand_channels (o : BitVec 8) : (s.startCommand o).channels = s.channels := rfl
@[simp] theorem State.startCommand_ksize (o : BitVec 8) : (s.startCommand o).ksize = s.ksize := rfl
@[simp] theorem State.startCommand_kshift (o : BitVec 8) : (s.startCommand o).kshift = s.kshift := rfl
@[simp] theorem State.startCommand_threshLow (o : BitVec 8) : (s.startCommand o).threshLow = s.threshLow := rfl
@[simp] theorem State.startCommand_threshHigh (o : BitVec 8) : (s.startCommand o).threshHigh = s.threshHigh := rfl
@[simp] theorem State.startCommand_kcoef (o : BitVec 8) : (s.startCommand o).kcoef = s.kcoef := rfl
@[simp] theorem State.startCommand_mem (o : BitVec 8) : (s.startCommand o).mem = s.mem := rfl
@[simp] theorem State.startCommand_fldMag2 (o : BitVec 8) : (s.startCommand o).fldMag2 = s.fldMag2 := rfl
@[simp] theorem State.startCommand_fldDir (o : BitVec 8) : (s.startCommand o).fldDir = s.fldDir := rfl
@[simp] theorem State.startCommand_nmsMag2 (o : BitVec 8) : (s.startCommand o).nmsMag2 = s.nmsMag2 := rfl
@[simp] theorem State.startCommand_epoch (o : BitVec 8) : (s.startCommand o).epoch = s.epoch := rfl
@[simp] theorem State.startCommand_pending (o : BitVec 8) : (s.startCommand o).pending = s.pending := rfl
@[simp] theorem State.startCommand_resp (o : BitVec 8) : (s.startCommand o).resp = s.resp := rfl

/-! `failCommand`. -/

@[simp] theorem State.failCommand_cfg (e : ErrCode) : (s.failCommand e).cfg = s.cfg := rfl
@[simp] theorem State.failCommand_ie (e : ErrCode) : (s.failCommand e).ie = s.ie := rfl
@[simp] theorem State.failCommand_busy (e : ErrCode) : (s.failCommand e).busy = false := rfl
@[simp] theorem State.failCommand_done (e : ErrCode) : (s.failCommand e).done = true := rfl
@[simp] theorem State.failCommand_err (e : ErrCode) : (s.failCommand e).err = e := rfl
@[simp] theorem State.failCommand_pstate (e : ErrCode) : (s.failCommand e).pstate = s.pstate := rfl
@[simp] theorem State.failCommand_op (e : ErrCode) : (s.failCommand e).op = s.op := rfl
@[simp] theorem State.failCommand_width (e : ErrCode) : (s.failCommand e).width = s.width := rfl
@[simp] theorem State.failCommand_height (e : ErrCode) : (s.failCommand e).height = s.height := rfl
@[simp] theorem State.failCommand_channels (e : ErrCode) : (s.failCommand e).channels = s.channels := rfl
@[simp] theorem State.failCommand_ksize (e : ErrCode) : (s.failCommand e).ksize = s.ksize := rfl
@[simp] theorem State.failCommand_kshift (e : ErrCode) : (s.failCommand e).kshift = s.kshift := rfl
@[simp] theorem State.failCommand_threshLow (e : ErrCode) : (s.failCommand e).threshLow = s.threshLow := rfl
@[simp] theorem State.failCommand_threshHigh (e : ErrCode) : (s.failCommand e).threshHigh = s.threshHigh := rfl
@[simp] theorem State.failCommand_kcoef (e : ErrCode) : (s.failCommand e).kcoef = s.kcoef := rfl
@[simp] theorem State.failCommand_mem (e : ErrCode) : (s.failCommand e).mem = s.mem := rfl
@[simp] theorem State.failCommand_fldMag2 (e : ErrCode) : (s.failCommand e).fldMag2 = s.fldMag2 := rfl
@[simp] theorem State.failCommand_fldDir (e : ErrCode) : (s.failCommand e).fldDir = s.fldDir := rfl
@[simp] theorem State.failCommand_nmsMag2 (e : ErrCode) : (s.failCommand e).nmsMag2 = s.nmsMag2 := rfl
@[simp] theorem State.failCommand_epoch (e : ErrCode) : (s.failCommand e).epoch = s.epoch := rfl
@[simp] theorem State.failCommand_pending (e : ErrCode) : (s.failCommand e).pending = s.pending := rfl
@[simp] theorem State.failCommand_resp (e : ErrCode) : (s.failCommand e).resp = s.resp := rfl

/-! `succeedCommand`. -/

@[simp] theorem State.succeedCommand_cfg : (s.succeedCommand).cfg = s.cfg := rfl
@[simp] theorem State.succeedCommand_ie : (s.succeedCommand).ie = s.ie := rfl
@[simp] theorem State.succeedCommand_busy : (s.succeedCommand).busy = false := rfl
@[simp] theorem State.succeedCommand_done : (s.succeedCommand).done = true := rfl
@[simp] theorem State.succeedCommand_err : (s.succeedCommand).err = .none := rfl
@[simp] theorem State.succeedCommand_pstate : (s.succeedCommand).pstate = s.pstate := rfl
@[simp] theorem State.succeedCommand_op : (s.succeedCommand).op = s.op := rfl
@[simp] theorem State.succeedCommand_width : (s.succeedCommand).width = s.width := rfl
@[simp] theorem State.succeedCommand_height : (s.succeedCommand).height = s.height := rfl
@[simp] theorem State.succeedCommand_channels : (s.succeedCommand).channels = s.channels := rfl
@[simp] theorem State.succeedCommand_ksize : (s.succeedCommand).ksize = s.ksize := rfl
@[simp] theorem State.succeedCommand_kshift : (s.succeedCommand).kshift = s.kshift := rfl
@[simp] theorem State.succeedCommand_threshLow : (s.succeedCommand).threshLow = s.threshLow := rfl
@[simp] theorem State.succeedCommand_threshHigh : (s.succeedCommand).threshHigh = s.threshHigh := rfl
@[simp] theorem State.succeedCommand_kcoef : (s.succeedCommand).kcoef = s.kcoef := rfl
@[simp] theorem State.succeedCommand_mem : (s.succeedCommand).mem = s.mem := rfl
@[simp] theorem State.succeedCommand_fldMag2 : (s.succeedCommand).fldMag2 = s.fldMag2 := rfl
@[simp] theorem State.succeedCommand_fldDir : (s.succeedCommand).fldDir = s.fldDir := rfl
@[simp] theorem State.succeedCommand_nmsMag2 : (s.succeedCommand).nmsMag2 = s.nmsMag2 := rfl
@[simp] theorem State.succeedCommand_epoch : (s.succeedCommand).epoch = s.epoch := rfl
@[simp] theorem State.succeedCommand_pending : (s.succeedCommand).pending = s.pending := rfl
@[simp] theorem State.succeedCommand_resp : (s.succeedCommand).resp = s.resp := rfl

/-! `ackDone`. -/

@[simp] theorem State.ackDone_cfg : (s.ackDone).cfg = s.cfg := rfl
@[simp] theorem State.ackDone_ie : (s.ackDone).ie = s.ie := rfl
@[simp] theorem State.ackDone_busy : (s.ackDone).busy = s.busy := rfl
@[simp] theorem State.ackDone_done : (s.ackDone).done = false := rfl
@[simp] theorem State.ackDone_err : (s.ackDone).err = s.err := rfl
@[simp] theorem State.ackDone_pstate : (s.ackDone).pstate = s.pstate := rfl
@[simp] theorem State.ackDone_op : (s.ackDone).op = s.op := rfl
@[simp] theorem State.ackDone_width : (s.ackDone).width = s.width := rfl
@[simp] theorem State.ackDone_height : (s.ackDone).height = s.height := rfl
@[simp] theorem State.ackDone_channels : (s.ackDone).channels = s.channels := rfl
@[simp] theorem State.ackDone_ksize : (s.ackDone).ksize = s.ksize := rfl
@[simp] theorem State.ackDone_kshift : (s.ackDone).kshift = s.kshift := rfl
@[simp] theorem State.ackDone_threshLow : (s.ackDone).threshLow = s.threshLow := rfl
@[simp] theorem State.ackDone_threshHigh : (s.ackDone).threshHigh = s.threshHigh := rfl
@[simp] theorem State.ackDone_kcoef : (s.ackDone).kcoef = s.kcoef := rfl
@[simp] theorem State.ackDone_mem : (s.ackDone).mem = s.mem := rfl
@[simp] theorem State.ackDone_fldMag2 : (s.ackDone).fldMag2 = s.fldMag2 := rfl
@[simp] theorem State.ackDone_fldDir : (s.ackDone).fldDir = s.fldDir := rfl
@[simp] theorem State.ackDone_nmsMag2 : (s.ackDone).nmsMag2 = s.nmsMag2 := rfl
@[simp] theorem State.ackDone_epoch : (s.ackDone).epoch = s.epoch := rfl
@[simp] theorem State.ackDone_pending : (s.ackDone).pending = s.pending := rfl
@[simp] theorem State.ackDone_resp : (s.ackDone).resp = s.resp := rfl

/-! `writeWord`. -/

@[simp] theorem State.writeWord_cfg (a : Nat) (be : BitVec 4) (d : Word) : (s.writeWord a be d).cfg = s.cfg := rfl
@[simp] theorem State.writeWord_ie (a : Nat) (be : BitVec 4) (d : Word) : (s.writeWord a be d).ie = s.ie := rfl
@[simp] theorem State.writeWord_busy (a : Nat) (be : BitVec 4) (d : Word) : (s.writeWord a be d).busy = s.busy := rfl
@[simp] theorem State.writeWord_done (a : Nat) (be : BitVec 4) (d : Word) : (s.writeWord a be d).done = s.done := rfl
@[simp] theorem State.writeWord_err (a : Nat) (be : BitVec 4) (d : Word) : (s.writeWord a be d).err = s.err := rfl
@[simp] theorem State.writeWord_pstate (a : Nat) (be : BitVec 4) (d : Word) :
    (s.writeWord a be d).pstate = s.pstate := rfl
@[simp] theorem State.writeWord_op (a : Nat) (be : BitVec 4) (d : Word) : (s.writeWord a be d).op = s.op := rfl
@[simp] theorem State.writeWord_width (a : Nat) (be : BitVec 4) (d : Word) :
    (s.writeWord a be d).width = s.width := rfl
@[simp] theorem State.writeWord_height (a : Nat) (be : BitVec 4) (d : Word) :
    (s.writeWord a be d).height = s.height := rfl
@[simp] theorem State.writeWord_channels (a : Nat) (be : BitVec 4) (d : Word) :
    (s.writeWord a be d).channels = s.channels := rfl
@[simp] theorem State.writeWord_ksize (a : Nat) (be : BitVec 4) (d : Word) :
    (s.writeWord a be d).ksize = s.ksize := rfl
@[simp] theorem State.writeWord_kshift (a : Nat) (be : BitVec 4) (d : Word) :
    (s.writeWord a be d).kshift = s.kshift := rfl
@[simp] theorem State.writeWord_threshLow (a : Nat) (be : BitVec 4) (d : Word) :
    (s.writeWord a be d).threshLow = s.threshLow := rfl
@[simp] theorem State.writeWord_threshHigh (a : Nat) (be : BitVec 4) (d : Word) :
    (s.writeWord a be d).threshHigh = s.threshHigh := rfl
@[simp] theorem State.writeWord_kcoef (a : Nat) (be : BitVec 4) (d : Word) :
    (s.writeWord a be d).kcoef = s.kcoef := rfl
@[simp] theorem State.writeWord_mem (a : Nat) (be : BitVec 4) (d : Word) :
    (s.writeWord a be d).mem = writeLanes be d a 4 s.mem := rfl
@[simp] theorem State.writeWord_fldMag2 (a : Nat) (be : BitVec 4) (d : Word) :
    (s.writeWord a be d).fldMag2 = s.fldMag2 := rfl
@[simp] theorem State.writeWord_fldDir (a : Nat) (be : BitVec 4) (d : Word) :
    (s.writeWord a be d).fldDir = s.fldDir := rfl
@[simp] theorem State.writeWord_nmsMag2 (a : Nat) (be : BitVec 4) (d : Word) :
    (s.writeWord a be d).nmsMag2 = s.nmsMag2 := rfl
@[simp] theorem State.writeWord_epoch (a : Nat) (be : BitVec 4) (d : Word) :
    (s.writeWord a be d).epoch = s.epoch := rfl
@[simp] theorem State.writeWord_pending (a : Nat) (be : BitVec 4) (d : Word) :
    (s.writeWord a be d).pending = s.pending := rfl
@[simp] theorem State.writeWord_resp (a : Nat) (be : BitVec 4) (d : Word) : (s.writeWord a be d).resp = s.resp := rfl

/-! `grayStage`. -/

@[simp] theorem State.grayStage_cfg : (s.grayStage).cfg = s.cfg := rfl
@[simp] theorem State.grayStage_ie : (s.grayStage).ie = s.ie := rfl
@[simp] theorem State.grayStage_busy : (s.grayStage).busy = s.busy := rfl
@[simp] theorem State.grayStage_done : (s.grayStage).done = s.done := rfl
@[simp] theorem State.grayStage_err : (s.grayStage).err = s.err := rfl
@[simp] theorem State.grayStage_pstate : (s.grayStage).pstate = s.pstate := rfl
@[simp] theorem State.grayStage_op : (s.grayStage).op = s.op := rfl
@[simp] theorem State.grayStage_width : (s.grayStage).width = s.width := rfl
@[simp] theorem State.grayStage_height : (s.grayStage).height = s.height := rfl
@[simp] theorem State.grayStage_channels : (s.grayStage).channels = s.channels := rfl
@[simp] theorem State.grayStage_ksize : (s.grayStage).ksize = s.ksize := rfl
@[simp] theorem State.grayStage_kshift : (s.grayStage).kshift = s.kshift := rfl
@[simp] theorem State.grayStage_threshLow : (s.grayStage).threshLow = s.threshLow := rfl
@[simp] theorem State.grayStage_threshHigh : (s.grayStage).threshHigh = s.threshHigh := rfl
@[simp] theorem State.grayStage_kcoef : (s.grayStage).kcoef = s.kcoef := rfl
@[simp] theorem State.grayStage_mem :
    (s.grayStage).mem = sparseFill s.mem (Buf.base .gray) s.pixels (fun n => BitVec.ofNat 8 (s.grayAt n)) := rfl
@[simp] theorem State.grayStage_fldMag2 : (s.grayStage).fldMag2 = s.fldMag2 := rfl
@[simp] theorem State.grayStage_fldDir : (s.grayStage).fldDir = s.fldDir := rfl
@[simp] theorem State.grayStage_nmsMag2 : (s.grayStage).nmsMag2 = s.nmsMag2 := rfl
@[simp] theorem State.grayStage_epoch : (s.grayStage).epoch = s.epoch := rfl
@[simp] theorem State.grayStage_pending : (s.grayStage).pending = s.pending := rfl
@[simp] theorem State.grayStage_resp : (s.grayStage).resp = s.resp := rfl

/-! `smoothStage`. -/

@[simp] theorem State.smoothStage_cfg : (s.smoothStage).cfg = s.cfg := rfl
@[simp] theorem State.smoothStage_ie : (s.smoothStage).ie = s.ie := rfl
@[simp] theorem State.smoothStage_busy : (s.smoothStage).busy = s.busy := rfl
@[simp] theorem State.smoothStage_done : (s.smoothStage).done = s.done := rfl
@[simp] theorem State.smoothStage_err : (s.smoothStage).err = s.err := rfl
@[simp] theorem State.smoothStage_pstate : (s.smoothStage).pstate = s.pstate := rfl
@[simp] theorem State.smoothStage_op : (s.smoothStage).op = s.op := rfl
@[simp] theorem State.smoothStage_width : (s.smoothStage).width = s.width := rfl
@[simp] theorem State.smoothStage_height : (s.smoothStage).height = s.height := rfl
@[simp] theorem State.smoothStage_channels : (s.smoothStage).channels = s.channels := rfl
@[simp] theorem State.smoothStage_ksize : (s.smoothStage).ksize = s.ksize := rfl
@[simp] theorem State.smoothStage_kshift : (s.smoothStage).kshift = s.kshift := rfl
@[simp] theorem State.smoothStage_threshLow : (s.smoothStage).threshLow = s.threshLow := rfl
@[simp] theorem State.smoothStage_threshHigh : (s.smoothStage).threshHigh = s.threshHigh := rfl
@[simp] theorem State.smoothStage_kcoef : (s.smoothStage).kcoef = s.kcoef := rfl
@[simp] theorem State.smoothStage_mem :
    (s.smoothStage).mem = sparseFill s.mem (Buf.base .smooth) s.pixels (fun n => BitVec.ofNat 8 (s.smoothAt n)) := rfl
@[simp] theorem State.smoothStage_fldMag2 : (s.smoothStage).fldMag2 = s.fldMag2 := rfl
@[simp] theorem State.smoothStage_fldDir : (s.smoothStage).fldDir = s.fldDir := rfl
@[simp] theorem State.smoothStage_nmsMag2 : (s.smoothStage).nmsMag2 = s.nmsMag2 := rfl
@[simp] theorem State.smoothStage_epoch : (s.smoothStage).epoch = s.epoch := rfl
@[simp] theorem State.smoothStage_pending : (s.smoothStage).pending = s.pending := rfl
@[simp] theorem State.smoothStage_resp : (s.smoothStage).resp = s.resp := rfl

/-! `gradientStage`. -/

@[simp] theorem State.gradientStage_cfg : (s.gradientStage).cfg = s.cfg := rfl
@[simp] theorem State.gradientStage_ie : (s.gradientStage).ie = s.ie := rfl
@[simp] theorem State.gradientStage_busy : (s.gradientStage).busy = s.busy := rfl
@[simp] theorem State.gradientStage_done : (s.gradientStage).done = s.done := rfl
@[simp] theorem State.gradientStage_err : (s.gradientStage).err = s.err := rfl
@[simp] theorem State.gradientStage_pstate : (s.gradientStage).pstate = s.pstate := rfl
@[simp] theorem State.gradientStage_op : (s.gradientStage).op = s.op := rfl
@[simp] theorem State.gradientStage_width : (s.gradientStage).width = s.width := rfl
@[simp] theorem State.gradientStage_height : (s.gradientStage).height = s.height := rfl
@[simp] theorem State.gradientStage_channels : (s.gradientStage).channels = s.channels := rfl
@[simp] theorem State.gradientStage_ksize : (s.gradientStage).ksize = s.ksize := rfl
@[simp] theorem State.gradientStage_kshift : (s.gradientStage).kshift = s.kshift := rfl
@[simp] theorem State.gradientStage_threshLow : (s.gradientStage).threshLow = s.threshLow := rfl
@[simp] theorem State.gradientStage_threshHigh : (s.gradientStage).threshHigh = s.threshHigh := rfl
@[simp] theorem State.gradientStage_kcoef : (s.gradientStage).kcoef = s.kcoef := rfl
@[simp] theorem State.gradientStage_mem : (s.gradientStage).mem = s.mem := rfl
@[simp] theorem State.gradientStage_fldMag2 :
    (s.gradientStage).fldMag2 = sparseFill s.fldMag2 0 s.pixels (fun n => BitVec.ofNat 32 (mag2Of (s.gxAt n) (s.gyAt n))) := rfl
@[simp] theorem State.gradientStage_fldDir :
    (s.gradientStage).fldDir = sparseFill s.fldDir 0 s.pixels (fun n => dirOf (s.gxAt n) (s.gyAt n)) := rfl
@[simp] theorem State.gradientStage_nmsMag2 : (s.gradientStage).nmsMag2 = s.nmsMag2 := rfl
@[simp] theorem State.gradientStage_epoch : (s.gradientStage).epoch = s.epoch := rfl
@[simp] theorem State.gradientStage_pending : (s.gradientStage).pending = s.pending := rfl
@[simp] theorem State.gradientStage_resp : (s.gradientStage).resp = s.resp := rfl

/-! `suppressStage`. -/

@[simp] theorem State.suppressStage_cfg : (s.suppressStage).cfg = s.cfg := rfl
@[simp] theorem State.suppressStage_ie : (s.suppressStage).ie = s.ie := rfl
@[simp] theorem State.suppressStage_busy : (s.suppressStage).busy = s.busy := rfl
@[simp] theorem State.suppressStage_done : (s.suppressStage).done = s.done := rfl
@[simp] theorem State.suppressStage_err : (s.suppressStage).err = s.err := rfl
@[simp] theorem State.suppressStage_pstate : (s.suppressStage).pstate = s.pstate := rfl
@[simp] theorem State.suppressStage_op : (s.suppressStage).op = s.op := rfl
@[simp] theorem State.suppressStage_width : (s.suppressStage).width = s.width := rfl
@[simp] theorem State.suppressStage_height : (s.suppressStage).height = s.height := rfl
@[simp] theorem State.suppressStage_channels : (s.suppressStage).channels = s.channels := rfl
@[simp] theorem State.suppressStage_ksize : (s.suppressStage).ksize = s.ksize := rfl
@[simp] theorem State.suppressStage_kshift : (s.suppressStage).kshift = s.kshift := rfl
@[simp] theorem State.suppressStage_threshLow : (s.suppressStage).threshLow = s.threshLow := rfl
@[simp] theorem State.suppressStage_threshHigh : (s.suppressStage).threshHigh = s.threshHigh := rfl
@[simp] theorem State.suppressStage_kcoef : (s.suppressStage).kcoef = s.kcoef := rfl
@[simp] theorem State.suppressStage_mem : (s.suppressStage).mem = s.mem := rfl
@[simp] theorem State.suppressStage_fldMag2 : (s.suppressStage).fldMag2 = s.fldMag2 := rfl
@[simp] theorem State.suppressStage_fldDir : (s.suppressStage).fldDir = s.fldDir := rfl
@[simp] theorem State.suppressStage_nmsMag2 :
    (s.suppressStage).nmsMag2 = sparseFill s.nmsMag2 0 s.pixels (fun n => BitVec.ofNat 32 (s.suppressedAt n)) := rfl
@[simp] theorem State.suppressStage_epoch : (s.suppressStage).epoch = s.epoch := rfl
@[simp] theorem State.suppressStage_pending : (s.suppressStage).pending = s.pending := rfl
@[simp] theorem State.suppressStage_resp : (s.suppressStage).resp = s.resp := rfl

/-! `thresholdStage`. -/

@[simp] theorem State.thresholdStage_cfg : (s.thresholdStage).cfg = s.cfg := rfl
@[simp] theorem State.thresholdStage_ie : (s.thresholdStage).ie = s.ie := rfl
@[simp] theorem State.thresholdStage_busy : (s.thresholdStage).busy = s.busy := rfl
@[simp] theorem State.thresholdStage_done : (s.thresholdStage).done = s.done := rfl
@[simp] theorem State.thresholdStage_err : (s.thresholdStage).err = s.err := rfl
@[simp] theorem State.thresholdStage_pstate : (s.thresholdStage).pstate = s.pstate := rfl
@[simp] theorem State.thresholdStage_op : (s.thresholdStage).op = s.op := rfl
@[simp] theorem State.thresholdStage_width : (s.thresholdStage).width = s.width := rfl
@[simp] theorem State.thresholdStage_height : (s.thresholdStage).height = s.height := rfl
@[simp] theorem State.thresholdStage_channels : (s.thresholdStage).channels = s.channels := rfl
@[simp] theorem State.thresholdStage_ksize : (s.thresholdStage).ksize = s.ksize := rfl
@[simp] theorem State.thresholdStage_kshift : (s.thresholdStage).kshift = s.kshift := rfl
@[simp] theorem State.thresholdStage_threshLow : (s.thresholdStage).threshLow = s.threshLow := rfl
@[simp] theorem State.thresholdStage_threshHigh : (s.thresholdStage).threshHigh = s.threshHigh := rfl
@[simp] theorem State.thresholdStage_kcoef : (s.thresholdStage).kcoef = s.kcoef := rfl
@[simp] theorem State.thresholdStage_mem :
    (s.thresholdStage).mem = sparseFill s.mem (Buf.base .edge) s.pixels
      (fun n => if s.edgeSet.contains n then 255#8 else 0#8) := rfl
@[simp] theorem State.thresholdStage_fldMag2 : (s.thresholdStage).fldMag2 = s.fldMag2 := rfl
@[simp] theorem State.thresholdStage_fldDir : (s.thresholdStage).fldDir = s.fldDir := rfl
@[simp] theorem State.thresholdStage_nmsMag2 : (s.thresholdStage).nmsMag2 = s.nmsMag2 := rfl
@[simp] theorem State.thresholdStage_epoch : (s.thresholdStage).epoch = s.epoch := rfl
@[simp] theorem State.thresholdStage_pending : (s.thresholdStage).pending = s.pending := rfl
@[simp] theorem State.thresholdStage_resp : (s.thresholdStage).resp = s.resp := rfl

/-! `withPstate`. -/

@[simp] theorem State.withPstate_cfg (p : PState) : (s.withPstate p).cfg = s.cfg := rfl
@[simp] theorem State.withPstate_ie (p : PState) : (s.withPstate p).ie = s.ie := rfl
@[simp] theorem State.withPstate_busy (p : PState) : (s.withPstate p).busy = s.busy := rfl
@[simp] theorem State.withPstate_done (p : PState) : (s.withPstate p).done = s.done := rfl
@[simp] theorem State.withPstate_err (p : PState) : (s.withPstate p).err = s.err := rfl
@[simp] theorem State.withPstate_pstate (p : PState) : (s.withPstate p).pstate = p := rfl
@[simp] theorem State.withPstate_op (p : PState) : (s.withPstate p).op = s.op := rfl
@[simp] theorem State.withPstate_width (p : PState) : (s.withPstate p).width = s.width := rfl
@[simp] theorem State.withPstate_height (p : PState) : (s.withPstate p).height = s.height := rfl
@[simp] theorem State.withPstate_channels (p : PState) : (s.withPstate p).channels = s.channels := rfl
@[simp] theorem State.withPstate_ksize (p : PState) : (s.withPstate p).ksize = s.ksize := rfl
@[simp] theorem State.withPstate_kshift (p : PState) : (s.withPstate p).kshift = s.kshift := rfl
@[simp] theorem State.withPstate_threshLow (p : PState) : (s.withPstate p).threshLow = s.threshLow := rfl
@[simp] theorem State.withPstate_threshHigh (p : PState) : (s.withPstate p).threshHigh = s.threshHigh := rfl
@[simp] theorem State.withPstate_kcoef (p : PState) : (s.withPstate p).kcoef = s.kcoef := rfl
@[simp] theorem State.withPstate_mem (p : PState) : (s.withPstate p).mem = s.mem := rfl
@[simp] theorem State.withPstate_fldMag2 (p : PState) : (s.withPstate p).fldMag2 = s.fldMag2 := rfl
@[simp] theorem State.withPstate_fldDir (p : PState) : (s.withPstate p).fldDir = s.fldDir := rfl
@[simp] theorem State.withPstate_nmsMag2 (p : PState) : (s.withPstate p).nmsMag2 = s.nmsMag2 := rfl
@[simp] theorem State.withPstate_epoch (p : PState) : (s.withPstate p).epoch = s.epoch := rfl
@[simp] theorem State.withPstate_pending (p : PState) : (s.withPstate p).pending = s.pending := rfl
@[simp] theorem State.withPstate_resp (p : PState) : (s.withPstate p).resp = s.resp := rfl

/-! `placeEvent`. -/

@[simp] theorem State.placeEvent_cfg (e : Event) : (s.placeEvent e).cfg = s.cfg := rfl
@[simp] theorem State.placeEvent_ie (e : Event) : (s.placeEvent e).ie = s.ie := rfl
@[simp] theorem State.placeEvent_busy (e : Event) : (s.placeEvent e).busy = s.busy := rfl
@[simp] theorem State.placeEvent_done (e : Event) : (s.placeEvent e).done = s.done := rfl
@[simp] theorem State.placeEvent_err (e : Event) : (s.placeEvent e).err = s.err := rfl
@[simp] theorem State.placeEvent_pstate (e : Event) : (s.placeEvent e).pstate = s.pstate := rfl
@[simp] theorem State.placeEvent_op (e : Event) : (s.placeEvent e).op = s.op := rfl
@[simp] theorem State.placeEvent_width (e : Event) : (s.placeEvent e).width = s.width := rfl
@[simp] theorem State.placeEvent_height (e : Event) : (s.placeEvent e).height = s.height := rfl
@[simp] theorem State.placeEvent_channels (e : Event) : (s.placeEvent e).channels = s.channels := rfl
@[simp] theorem State.placeEvent_ksize (e : Event) : (s.placeEvent e).ksize = s.ksize := rfl
@[simp] theorem State.placeEvent_kshift (e : Event) : (s.placeEvent e).kshift = s.kshift := rfl
@[simp] theorem State.placeEvent_threshLow (e : Event) : (s.placeEvent e).threshLow = s.threshLow := rfl
@[simp] theorem State.placeEvent_threshHigh (e : Event) : (s.placeEvent e).threshHigh = s.threshHigh := rfl
@[simp] theorem State.placeEvent_kcoef (e : Event) : (s.placeEvent e).kcoef = s.kcoef := rfl
@[simp] theorem State.placeEvent_mem (e : Event) : (s.placeEvent e).mem = s.mem := rfl
@[simp] theorem State.placeEvent_fldMag2 (e : Event) : (s.placeEvent e).fldMag2 = s.fldMag2 := rfl
@[simp] theorem State.placeEvent_fldDir (e : Event) : (s.placeEvent e).fldDir = s.fldDir := rfl
@[simp] theorem State.placeEvent_nmsMag2 (e : Event) : (s.placeEvent e).nmsMag2 = s.nmsMag2 := rfl
@[simp] theorem State.placeEvent_epoch (e : Event) : (s.placeEvent e).epoch = s.epoch := rfl
@[simp] theorem State.placeEvent_pending (e : Event) : (s.placeEvent e).pending = e :: s.pending := rfl
@[simp] theorem State.placeEvent_resp (e : Event) : (s.placeEvent e).resp = s.resp := rfl

/-! `resetEvent`. -/

@[simp] theorem State.resetEvent_cfg : (s.resetEvent).cfg = s.cfg := rfl
@[simp] theorem State.resetEvent_ie : (s.resetEvent).ie = false := rfl
@[simp] theorem State.resetEvent_busy : (s.resetEvent).busy = false := rfl
@[simp] theorem State.resetEvent_done : (s.resetEvent).done = false := rfl
@[simp] theorem State.resetEvent_err : (s.resetEvent).err = .none := rfl
@[simp] theorem State.resetEvent_pstate : (s.resetEvent).pstate = .raw := rfl
@[simp] theorem State.resetEvent_op : (s.resetEvent).op = 0 := rfl
@[simp] theorem State.resetEvent_width : (s.resetEvent).width = 0 := rfl
@[simp] theorem State.resetEvent_height : (s.resetEvent).height = 0 := rfl
@[simp] theorem State.resetEvent_channels : (s.resetEvent).channels = 3 := rfl
@[simp] theorem State.resetEvent_ksize : (s.resetEvent).ksize = 5 := rfl
@[simp] theorem State.resetEvent_kshift : (s.resetEvent).kshift = 16 := rfl
@[simp] theorem State.resetEvent_threshLow : (s.resetEvent).threshLow = 50 := rfl
@[simp] theorem State.resetEvent_threshHigh : (s.resetEvent).threshHigh = 150 := rfl
@[simp] theorem State.resetEvent_kcoef : (s.resetEvent).kcoef = resetKcoef := rfl
@[simp] theorem State.resetEvent_mem : (s.resetEvent).mem = [] := rfl
@[simp] theorem State.resetEvent_fldMag2 : (s.resetEvent).fldMag2 = [] := rfl
@[simp] theorem State.resetEvent_fldDir : (s.resetEvent).fldDir = [] := rfl
@[simp] theorem State.resetEvent_nmsMag2 : (s.resetEvent).nmsMag2 = [] := rfl
@[simp] theorem State.resetEvent_epoch : (s.resetEvent).epoch = s.epoch + 1 := rfl
@[simp] theorem State.resetEvent_pending : (s.resetEvent).pending = s.pending := rfl
@[simp] theorem State.resetEvent_resp : (s.resetEvent).resp = none := rfl

/-! The readers, after each update that does not write what they read. -/

@[simp] theorem State.respond_byte (e : Bool) (d : Word) (b : Nat) : (s.respond e d).byte b = s.byte b := rfl
@[simp] theorem State.respond_wordAt (e : Bool) (d : Word) (b : Nat) : (s.respond e d).wordAt b = s.wordAt b := rfl
@[simp] theorem State.respond_fldMag2At (e : Bool) (d : Word) (n : Nat) : (s.respond e d).fldMag2At n = s.fldMag2At n := rfl
@[simp] theorem State.respond_fldDirAt (e : Bool) (d : Word) (n : Nat) : (s.respond e d).fldDirAt n = s.fldDirAt n := rfl
@[simp] theorem State.respond_nmsMag2At (e : Bool) (d : Word) (n : Nat) : (s.respond e d).nmsMag2At n = s.nmsMag2At n := rfl
@[simp] theorem State.respond_imgW (e : Bool) (d : Word) : (s.respond e d).imgW = s.imgW := rfl
@[simp] theorem State.respond_imgH (e : Bool) (d : Word) : (s.respond e d).imgH = s.imgH := rfl
@[simp] theorem State.respond_pixels (e : Bool) (d : Word) : (s.respond e d).pixels = s.pixels := rfl
@[simp] theorem State.respond_sample (e : Bool) (d : Word) (b : Buf) (n : Nat) : (s.respond e d).sample b n = s.sample b n := rfl
@[simp] theorem State.refuse_byte (b : Nat) : (s.refuse).byte b = s.byte b := rfl
@[simp] theorem State.refuse_wordAt (b : Nat) : (s.refuse).wordAt b = s.wordAt b := rfl
@[simp] theorem State.refuse_fldMag2At (n : Nat) : (s.refuse).fldMag2At n = s.fldMag2At n := rfl
@[simp] theorem State.refuse_fldDirAt (n : Nat) : (s.refuse).fldDirAt n = s.fldDirAt n := rfl
@[simp] theorem State.refuse_nmsMag2At (n : Nat) : (s.refuse).nmsMag2At n = s.nmsMag2At n := rfl
@[simp] theorem State.refuse_imgW : (s.refuse).imgW = s.imgW := rfl
@[simp] theorem State.refuse_imgH : (s.refuse).imgH = s.imgH := rfl
@[simp] theorem State.refuse_pixels : (s.refuse).pixels = s.pixels := rfl
@[simp] theorem State.refuse_sample (b : Buf) (n : Nat) : (s.refuse).sample b n = s.sample b n := rfl
@[simp] theorem State.accept_byte (b : Nat) : (s.accept).byte b = s.byte b := rfl
@[simp] theorem State.accept_wordAt (b : Nat) : (s.accept).wordAt b = s.wordAt b := rfl
@[simp] theorem State.accept_fldMag2At (n : Nat) : (s.accept).fldMag2At n = s.fldMag2At n := rfl
@[simp] theorem State.accept_fldDirAt (n : Nat) : (s.accept).fldDirAt n = s.fldDirAt n := rfl
@[simp] theorem State.accept_nmsMag2At (n : Nat) : (s.accept).nmsMag2At n = s.nmsMag2At n := rfl
@[simp] theorem State.accept_imgW : (s.accept).imgW = s.imgW := rfl
@[simp] theorem State.accept_imgH : (s.accept).imgH = s.imgH := rfl
@[simp] theorem State.accept_pixels : (s.accept).pixels = s.pixels := rfl
@[simp] theorem State.accept_sample (b : Buf) (n : Nat) : (s.accept).sample b n = s.sample b n := rfl
@[simp] theorem State.startCommand_byte (o : BitVec 8) (b : Nat) : (s.startCommand o).byte b = s.byte b := rfl
@[simp] theorem State.startCommand_wordAt (o : BitVec 8) (b : Nat) : (s.startCommand o).wordAt b = s.wordAt b := rfl
@[simp] theorem State.startCommand_fldMag2At (o : BitVec 8) (n : Nat) : (s.startCommand o).fldMag2At n = s.fldMag2At n := rfl
@[simp] theorem State.startCommand_fldDirAt (o : BitVec 8) (n : Nat) : (s.startCommand o).fldDirAt n = s.fldDirAt n := rfl
@[simp] theorem State.startCommand_nmsMag2At (o : BitVec 8) (n : Nat) : (s.startCommand o).nmsMag2At n = s.nmsMag2At n := rfl
@[simp] theorem State.startCommand_imgW (o : BitVec 8) : (s.startCommand o).imgW = s.imgW := rfl
@[simp] theorem State.startCommand_imgH (o : BitVec 8) : (s.startCommand o).imgH = s.imgH := rfl
@[simp] theorem State.startCommand_pixels (o : BitVec 8) : (s.startCommand o).pixels = s.pixels := rfl
@[simp] theorem State.startCommand_sample (o : BitVec 8) (b : Buf) (n : Nat) : (s.startCommand o).sample b n = s.sample b n := rfl
@[simp] theorem State.failCommand_byte (e : ErrCode) (b : Nat) : (s.failCommand e).byte b = s.byte b := rfl
@[simp] theorem State.failCommand_wordAt (e : ErrCode) (b : Nat) : (s.failCommand e).wordAt b = s.wordAt b := rfl
@[simp] theorem State.failCommand_fldMag2At (e : ErrCode) (n : Nat) : (s.failCommand e).fldMag2At n = s.fldMag2At n := rfl
@[simp] theorem State.failCommand_fldDirAt (e : ErrCode) (n : Nat) : (s.failCommand e).fldDirAt n = s.fldDirAt n := rfl
@[simp] theorem State.failCommand_nmsMag2At (e : ErrCode) (n : Nat) : (s.failCommand e).nmsMag2At n = s.nmsMag2At n := rfl
@[simp] theorem State.failCommand_imgW (e : ErrCode) : (s.failCommand e).imgW = s.imgW := rfl
@[simp] theorem State.failCommand_imgH (e : ErrCode) : (s.failCommand e).imgH = s.imgH := rfl
@[simp] theorem State.failCommand_pixels (e : ErrCode) : (s.failCommand e).pixels = s.pixels := rfl
@[simp] theorem State.failCommand_sample (e : ErrCode) (b : Buf) (n : Nat) : (s.failCommand e).sample b n = s.sample b n := rfl
@[simp] theorem State.succeedCommand_byte (b : Nat) : (s.succeedCommand).byte b = s.byte b := rfl
@[simp] theorem State.succeedCommand_wordAt (b : Nat) : (s.succeedCommand).wordAt b = s.wordAt b := rfl
@[simp] theorem State.succeedCommand_fldMag2At (n : Nat) : (s.succeedCommand).fldMag2At n = s.fldMag2At n := rfl
@[simp] theorem State.succeedCommand_fldDirAt (n : Nat) : (s.succeedCommand).fldDirAt n = s.fldDirAt n := rfl
@[simp] theorem State.succeedCommand_nmsMag2At (n : Nat) : (s.succeedCommand).nmsMag2At n = s.nmsMag2At n := rfl
@[simp] theorem State.succeedCommand_imgW : (s.succeedCommand).imgW = s.imgW := rfl
@[simp] theorem State.succeedCommand_imgH : (s.succeedCommand).imgH = s.imgH := rfl
@[simp] theorem State.succeedCommand_pixels : (s.succeedCommand).pixels = s.pixels := rfl
@[simp] theorem State.succeedCommand_sample (b : Buf) (n : Nat) : (s.succeedCommand).sample b n = s.sample b n := rfl
@[simp] theorem State.ackDone_byte (b : Nat) : (s.ackDone).byte b = s.byte b := rfl
@[simp] theorem State.ackDone_wordAt (b : Nat) : (s.ackDone).wordAt b = s.wordAt b := rfl
@[simp] theorem State.ackDone_fldMag2At (n : Nat) : (s.ackDone).fldMag2At n = s.fldMag2At n := rfl
@[simp] theorem State.ackDone_fldDirAt (n : Nat) : (s.ackDone).fldDirAt n = s.fldDirAt n := rfl
@[simp] theorem State.ackDone_nmsMag2At (n : Nat) : (s.ackDone).nmsMag2At n = s.nmsMag2At n := rfl
@[simp] theorem State.ackDone_imgW : (s.ackDone).imgW = s.imgW := rfl
@[simp] theorem State.ackDone_imgH : (s.ackDone).imgH = s.imgH := rfl
@[simp] theorem State.ackDone_pixels : (s.ackDone).pixels = s.pixels := rfl
@[simp] theorem State.ackDone_sample (b : Buf) (n : Nat) : (s.ackDone).sample b n = s.sample b n := rfl
@[simp] theorem State.writeWord_fldMag2At (a : Nat) (be : BitVec 4) (d : Word) (n : Nat) : (s.writeWord a be d).fldMag2At n = s.fldMag2At n := rfl
@[simp] theorem State.writeWord_fldDirAt (a : Nat) (be : BitVec 4) (d : Word) (n : Nat) : (s.writeWord a be d).fldDirAt n = s.fldDirAt n := rfl
@[simp] theorem State.writeWord_nmsMag2At (a : Nat) (be : BitVec 4) (d : Word) (n : Nat) : (s.writeWord a be d).nmsMag2At n = s.nmsMag2At n := rfl
@[simp] theorem State.writeWord_imgW (a : Nat) (be : BitVec 4) (d : Word) : (s.writeWord a be d).imgW = s.imgW := rfl
@[simp] theorem State.writeWord_imgH (a : Nat) (be : BitVec 4) (d : Word) : (s.writeWord a be d).imgH = s.imgH := rfl
@[simp] theorem State.writeWord_pixels (a : Nat) (be : BitVec 4) (d : Word) : (s.writeWord a be d).pixels = s.pixels := rfl
@[simp] theorem State.grayStage_fldMag2At (n : Nat) : (s.grayStage).fldMag2At n = s.fldMag2At n := rfl
@[simp] theorem State.grayStage_fldDirAt (n : Nat) : (s.grayStage).fldDirAt n = s.fldDirAt n := rfl
@[simp] theorem State.grayStage_nmsMag2At (n : Nat) : (s.grayStage).nmsMag2At n = s.nmsMag2At n := rfl
@[simp] theorem State.grayStage_imgW : (s.grayStage).imgW = s.imgW := rfl
@[simp] theorem State.grayStage_imgH : (s.grayStage).imgH = s.imgH := rfl
@[simp] theorem State.grayStage_pixels : (s.grayStage).pixels = s.pixels := rfl
@[simp] theorem State.smoothStage_fldMag2At (n : Nat) : (s.smoothStage).fldMag2At n = s.fldMag2At n := rfl
@[simp] theorem State.smoothStage_fldDirAt (n : Nat) : (s.smoothStage).fldDirAt n = s.fldDirAt n := rfl
@[simp] theorem State.smoothStage_nmsMag2At (n : Nat) : (s.smoothStage).nmsMag2At n = s.nmsMag2At n := rfl
@[simp] theorem State.smoothStage_imgW : (s.smoothStage).imgW = s.imgW := rfl
@[simp] theorem State.smoothStage_imgH : (s.smoothStage).imgH = s.imgH := rfl
@[simp] theorem State.smoothStage_pixels : (s.smoothStage).pixels = s.pixels := rfl
@[simp] theorem State.gradientStage_byte (b : Nat) : (s.gradientStage).byte b = s.byte b := rfl
@[simp] theorem State.gradientStage_wordAt (b : Nat) : (s.gradientStage).wordAt b = s.wordAt b := rfl
@[simp] theorem State.gradientStage_nmsMag2At (n : Nat) : (s.gradientStage).nmsMag2At n = s.nmsMag2At n := rfl
@[simp] theorem State.gradientStage_imgW : (s.gradientStage).imgW = s.imgW := rfl
@[simp] theorem State.gradientStage_imgH : (s.gradientStage).imgH = s.imgH := rfl
@[simp] theorem State.gradientStage_pixels : (s.gradientStage).pixels = s.pixels := rfl
@[simp] theorem State.gradientStage_sample (b : Buf) (n : Nat) : (s.gradientStage).sample b n = s.sample b n := rfl
@[simp] theorem State.suppressStage_byte (b : Nat) : (s.suppressStage).byte b = s.byte b := rfl
@[simp] theorem State.suppressStage_wordAt (b : Nat) : (s.suppressStage).wordAt b = s.wordAt b := rfl
@[simp] theorem State.suppressStage_fldMag2At (n : Nat) : (s.suppressStage).fldMag2At n = s.fldMag2At n := rfl
@[simp] theorem State.suppressStage_fldDirAt (n : Nat) : (s.suppressStage).fldDirAt n = s.fldDirAt n := rfl
@[simp] theorem State.suppressStage_imgW : (s.suppressStage).imgW = s.imgW := rfl
@[simp] theorem State.suppressStage_imgH : (s.suppressStage).imgH = s.imgH := rfl
@[simp] theorem State.suppressStage_pixels : (s.suppressStage).pixels = s.pixels := rfl
@[simp] theorem State.suppressStage_sample (b : Buf) (n : Nat) : (s.suppressStage).sample b n = s.sample b n := rfl
@[simp] theorem State.thresholdStage_fldMag2At (n : Nat) : (s.thresholdStage).fldMag2At n = s.fldMag2At n := rfl
@[simp] theorem State.thresholdStage_fldDirAt (n : Nat) : (s.thresholdStage).fldDirAt n = s.fldDirAt n := rfl
@[simp] theorem State.thresholdStage_nmsMag2At (n : Nat) : (s.thresholdStage).nmsMag2At n = s.nmsMag2At n := rfl
@[simp] theorem State.thresholdStage_imgW : (s.thresholdStage).imgW = s.imgW := rfl
@[simp] theorem State.thresholdStage_imgH : (s.thresholdStage).imgH = s.imgH := rfl
@[simp] theorem State.thresholdStage_pixels : (s.thresholdStage).pixels = s.pixels := rfl
@[simp] theorem State.withPstate_byte (p : PState) (b : Nat) : (s.withPstate p).byte b = s.byte b := rfl
@[simp] theorem State.withPstate_wordAt (p : PState) (b : Nat) : (s.withPstate p).wordAt b = s.wordAt b := rfl
@[simp] theorem State.withPstate_fldMag2At (p : PState) (n : Nat) : (s.withPstate p).fldMag2At n = s.fldMag2At n := rfl
@[simp] theorem State.withPstate_fldDirAt (p : PState) (n : Nat) : (s.withPstate p).fldDirAt n = s.fldDirAt n := rfl
@[simp] theorem State.withPstate_nmsMag2At (p : PState) (n : Nat) : (s.withPstate p).nmsMag2At n = s.nmsMag2At n := rfl
@[simp] theorem State.withPstate_imgW (p : PState) : (s.withPstate p).imgW = s.imgW := rfl
@[simp] theorem State.withPstate_imgH (p : PState) : (s.withPstate p).imgH = s.imgH := rfl
@[simp] theorem State.withPstate_pixels (p : PState) : (s.withPstate p).pixels = s.pixels := rfl
@[simp] theorem State.withPstate_sample (p : PState) (b : Buf) (n : Nat) : (s.withPstate p).sample b n = s.sample b n := rfl
@[simp] theorem State.placeEvent_byte (e : Event) (b : Nat) : (s.placeEvent e).byte b = s.byte b := rfl
@[simp] theorem State.placeEvent_wordAt (e : Event) (b : Nat) : (s.placeEvent e).wordAt b = s.wordAt b := rfl
@[simp] theorem State.placeEvent_fldMag2At (e : Event) (n : Nat) : (s.placeEvent e).fldMag2At n = s.fldMag2At n := rfl
@[simp] theorem State.placeEvent_fldDirAt (e : Event) (n : Nat) : (s.placeEvent e).fldDirAt n = s.fldDirAt n := rfl
@[simp] theorem State.placeEvent_nmsMag2At (e : Event) (n : Nat) : (s.placeEvent e).nmsMag2At n = s.nmsMag2At n := rfl
@[simp] theorem State.placeEvent_imgW (e : Event) : (s.placeEvent e).imgW = s.imgW := rfl
@[simp] theorem State.placeEvent_imgH (e : Event) : (s.placeEvent e).imgH = s.imgH := rfl
@[simp] theorem State.placeEvent_pixels (e : Event) : (s.placeEvent e).pixels = s.pixels := rfl
@[simp] theorem State.placeEvent_sample (e : Event) (b : Buf) (n : Nat) : (s.placeEvent e).sample b n = s.sample b n := rfl

end Sys2Proof.Machine
end

