-- ==== Sys2Proof/Laws/Ops.lean ====
section
/-! SUPPORT. One lemma per shared operation that says what it can do: the checks, the completion step, target decoding,
the stages' writes. -/

namespace Sys2Proof.Machine

/-! The checks. -/

theorem firstError_cons_none (rest : List (Option ErrCode)) : firstError (none :: rest) = firstError rest := rfl

theorem firstError_cons_some (e : ErrCode) (rest : List (Option ErrCode)) : firstError (some e :: rest) = some e := rfl

/-- All checks of a list pass exactly when each does. -/
theorem firstError_eq_none {l : List (Option ErrCode)} : firstError l = none ↔ ∀ c ∈ l, c = none := by
  induction l with
  | nil => simp [firstError]
  | cons c rest ih =>
    cases c with
    | none => simp [firstError, ih]
    | some e => simp [firstError]

theorem checkDimensions_eq_none {s : State} : checkDimensions s = none ↔ s.FitsBuffers := by
  unfold checkDimensions State.FitsBuffers State.pixels
  split
  · rename_i h
    simp only [reduceCtorEq, false_iff]
    omega
  · rename_i h
    simp only [true_iff]
    omega

theorem checkSequence_eq_none {p : PState} {s : State} : checkSequence p s = none ↔ s.pstate = p := by
  unfold checkSequence
  split <;> simp [*]

theorem checkChannels_eq_none {s : State} : checkChannels s = none ↔ s.channels = 3 := by
  unfold checkChannels
  split
  · rename_i h; exact ⟨fun _ => h, fun _ => rfl⟩
  · rename_i h; exact ⟨nofun, fun h' => absurd h' h⟩

/-- R154: "the accepted sizes are exactly 3, 5, 7 with `W ≥ k` and `H ≥ k`". -/
theorem checkKernel_eq_none {s : State} : checkKernel s = none ↔ s.KernelFits := by
  have hk : (s.ksize = 3 ∨ s.ksize = 5 ∨ s.ksize = 7) ↔
      ¬ (s.ksize.toNat % 2 = 0 ∨ s.ksize.toNat < 3 ∨ 7 < s.ksize.toNat) := by
    have h3 : (3 : BitVec 8).toNat = 3 := rfl
    have h5 : (5 : BitVec 8).toNat = 5 := rfl
    have h7 : (7 : BitVec 8).toNat = 7 := rfl
    simp only [← BitVec.toNat_inj, h3, h5, h7]
    omega
  unfold checkKernel State.KernelFits
  rw [hk]
  split
  · simp only [reduceCtorEq, false_iff]
    omega
  · simp only [true_iff]
    omega

theorem checkMinimum_eq_none {s : State} : checkMinimum s = none ↔ s.AtLeast3x3 := by
  unfold checkMinimum State.AtLeast3x3
  split
  · simp only [reduceCtorEq, false_iff]; omega
  · simp only [true_iff]; omega

theorem checkThresholds_eq_none {s : State} : checkThresholds s = none ↔ s.ThresholdsRise := by
  unfold checkThresholds State.ThresholdsRise
  split
  · simp only [reduceCtorEq, false_iff]; omega
  · simp only [true_iff]; omega

theorem checksGray_eq_none {s : State} : checksGray s = none ↔ s.FitsBuffers ∧ s.channels = 3 := by
  simp [checksGray, firstError_eq_none, checkDimensions_eq_none, checkChannels_eq_none]

theorem checksSmooth_eq_none {s : State} : checksSmooth s = none ↔ s.FitsBuffers ∧ s.KernelFits := by
  simp only [checksSmooth, firstError_eq_none, List.forall_mem_cons, List.not_mem_nil, false_implies, implies_true,
    and_true, checkDimensions_eq_none, checkKernel_eq_none]

theorem checksPreprocess_eq_none {s : State} :
    checksPreprocess s = none ↔ s.FitsBuffers ∧ s.channels = 3 ∧ s.KernelFits := by
  simp only [checksPreprocess, firstError_eq_none, List.forall_mem_cons, List.not_mem_nil, false_implies,
    implies_true, and_true, checkDimensions_eq_none, checkChannels_eq_none, checkKernel_eq_none]

theorem checksGradient_eq_none {s : State} : checksGradient s = none ↔ s.FitsBuffers ∧ s.AtLeast3x3 := by
  simp only [checksGradient, firstError_eq_none, List.forall_mem_cons, List.not_mem_nil, false_implies, implies_true,
    and_true, checkDimensions_eq_none, checkMinimum_eq_none]

theorem checksNms_eq_none {s : State} : checksNms s = none ↔ s.FitsBuffers ∧ s.pstate = .gradient := by
  simp only [checksNms, firstError_eq_none, List.forall_mem_cons, List.not_mem_nil, false_implies, implies_true,
    and_true, checkDimensions_eq_none, checkSequence_eq_none]

theorem checksHyst_eq_none {s : State} :
    checksHyst s = none ↔ s.FitsBuffers ∧ s.pstate = .suppressed ∧ s.ThresholdsRise := by
  simp only [checksHyst, firstError_eq_none, List.forall_mem_cons, List.not_mem_nil, false_implies, implies_true,
    and_true, checkDimensions_eq_none, checkSequence_eq_none, checkThresholds_eq_none]

theorem checksDetect_eq_none {s : State} :
    checksDetect s = none ↔ s.FitsBuffers ∧ s.AtLeast3x3 ∧ s.ThresholdsRise := by
  simp only [checksDetect, firstError_eq_none, List.forall_mem_cons, List.not_mem_nil, false_implies, implies_true,
    and_true, checkDimensions_eq_none, checkMinimum_eq_none, checkThresholds_eq_none]

/-! The completion step. -/

theorem complete_idle {s : State} {c : Option ErrCode} {f : State → State} (h : s.busy = false) :
    s.complete c f = s := by simp [State.complete, h]

theorem complete_fail {s : State} {e : ErrCode} {f : State → State} (h : s.busy = true) :
    s.complete (some e) f = s.failCommand e := by simp [State.complete, h]

theorem complete_succeed {s : State} {f : State → State} (h : s.busy = true) :
    s.complete none f = (f s).succeedCommand := by simp [State.complete, h]

/-- All a completion step can do. -/
theorem complete_cases (s : State) (c : Option ErrCode) (f : State → State) :
    (s.busy = false ∧ s.complete c f = s) ∨
    (s.busy = true ∧ ∃ e, c = some e ∧ s.complete c f = s.failCommand e) ∨
    (s.busy = true ∧ c = none ∧ s.complete c f = (f s).succeedCommand) := by
  cases hb : s.busy with
  | false => exact .inl ⟨rfl, complete_idle hb⟩
  | true =>
    cases c with
    | some e => exact .inr (.inl ⟨rfl, e, rfl, complete_fail hb⟩)
    | none => exact .inr (.inr ⟨rfl, rfl, complete_succeed hb⟩)

/-! Target decoding. -/

theorem kcoefRegAt_eq_some {i j : Nat} {r : Reg} (h : kcoefRegAt i j = some r) :
    ∃ a b : Fin 7, r = .kcoef a b ∧ a.val = i ∧ b.val = j := by
  unfold kcoefRegAt at h
  split at h
  · rename_i hij
    exact ⟨⟨i, hij.1⟩, ⟨j, hij.2⟩, (Option.some.inj h).symm, rfl, rfl⟩
  · cases h

theorem regAt_addr (r : Reg) : regAt r.addr = some r := by
  cases r with
  | kcoef i j => fin_cases i <;> fin_cases j <;> rfl
  | _ => rfl

theorem regAt_high {a : Nat} (h : 0x200 ≤ a) : regAt a = none := by
  unfold regAt
  repeat rw [if_neg (by omega)]

theorem regAt_lt {a : Nat} {r : Reg} (h : regAt a = some r) : a < 0x200 := by
  by_contra hge
  rw [regAt_high (by omega)] at h
  cases h

/-- A register is at one word-aligned address only. -/
theorem regAt_eq_some {a : Nat} {r : Reg} (ha : a % 4 = 0) (h : regAt a = some r) : a = r.addr := by
  have key : ∀ a < 0x200, a % 4 = 0 → ((regAt a).map Reg.addr).getD a = a := by decide +kernel
  have := key a (regAt_lt h) ha
  rw [h] at this
  exact this.symm

theorem Reg_addr_lt (r : Reg) : r.addr < 0x200 := regAt_lt (regAt_addr r)

theorem Reg_addr_aligned (r : Reg) : r.addr % 4 = 0 := by
  cases r with
  | kcoef i j => simp only [Reg.addr]; omega
  | _ => rfl

/-- A register's own address names it (R110). -/
theorem targetOf_reg (cfg : Config.Params) (r : Reg) : targetOf cfg (BitVec.ofNat 24 r.addr) = .reg r := by
  have h : (BitVec.ofNat 24 r.addr).toNat = r.addr := by
    rw [BitVec.toNat_ofNat]
    exact Nat.mod_eq_of_lt ((Reg_addr_lt r).trans (by decide))
  simp [targetOf, h, regAt_addr]

theorem aligned_reg (r : Reg) : aligned (BitVec.ofNat 24 r.addr) = true := by
  have h : (BitVec.ofNat 24 r.addr).toNat = r.addr := by
    rw [BitVec.toNat_ofNat]
    exact Nat.mod_eq_of_lt ((Reg_addr_lt r).trans (by decide))
  simp [aligned, h, Reg_addr_aligned]

/-- All that target decoding can answer (R110). -/
theorem targetOf_cases (cfg : Config.Params) (addr : Addr) :
    (∃ r, regAt addr.toNat = some r ∧ targetOf cfg addr = .reg r) ∨
    (∃ b, Buf.holds cfg b addr.toNat = true ∧ targetOf cfg addr = .buf b (addr.toNat - b.base)) ∨
    ((∀ b, Buf.holds cfg b addr.toNat = false) ∧ regAt addr.toNat = none ∧ targetOf cfg addr = .unmapped) := by
  cases hr : regAt addr.toNat with
  | some r => exact .inl ⟨r, rfl, by simp [targetOf, hr]⟩
  | none =>
    refine .inr ?_
    by_cases h1 : Buf.holds cfg .input addr.toNat = true
    · exact .inl ⟨.input, h1, by simp [targetOf, hr, h1]⟩
    by_cases h2 : Buf.holds cfg .gray addr.toNat = true
    · exact .inl ⟨.gray, h2, by simp [targetOf, hr, h1, h2]⟩
    by_cases h3 : Buf.holds cfg .smooth addr.toNat = true
    · exact .inl ⟨.smooth, h3, by simp [targetOf, hr, h1, h2, h3]⟩
    by_cases h4 : Buf.holds cfg .edge addr.toNat = true
    · exact .inl ⟨.edge, h4, by simp [targetOf, hr, h1, h2, h3, h4]⟩
    · refine .inr ⟨?_, rfl, by simp [targetOf, hr, h1, h2, h3, h4]⟩
      intro b
      cases b <;> simp_all

/-- A buffer target starts inside its buffer's window. -/
theorem targetOf_buf {cfg : Config.Params} {addr : Addr} {b : Buf} {n : Nat} (h : targetOf cfg addr = .buf b n) :
    b.base + n = addr.toNat ∧ n < b.length cfg := by
  rcases targetOf_cases cfg addr with ⟨r, _, h'⟩ | ⟨b', hb, h'⟩ | ⟨_, _, h'⟩
  · rw [h] at h'; cases h'
  · rw [h] at h'
    cases h'
    simp only [Buf.holds, Bool.and_eq_true, decide_eq_true_eq] at hb
    omega
  · rw [h] at h'; cases h'

/-! The transactions. -/

/-- All a read transaction can do: it answers, and changes nothing else (R67, R111). -/
theorem execHrd_eq (addr : Addr) (s : State) :
    ∃ e d, execHrd addr s = .next (s.respond e d) := by
  unfold execHrd
  split
  · cases h : targetOf s.cfg addr with
    | unmapped => exact ⟨true, 0, rfl⟩
    | reg r => exact ⟨false, s.regRead r, rfl⟩
    | buf b n =>
      cases hb : s.busy with
      | true => exact ⟨true, 0, by simp [State.readTarget, hb, State.refuse]⟩
      | false => exact ⟨false, s.wordAt (b.base + n), by simp [State.readTarget, hb]⟩
  · exact ⟨true, 0, rfl⟩

/-- All a write transaction can do: it is refused, or stores enabled lanes in an idle core's buffer, or writes a
register that is not locked (R112). -/
theorem execHwr_cases (addr : Addr) (be : BitVec 4) (d : Word) (s : State) :
    execHwr addr be d s = .next s.refuse ∨
    (∃ b n, aligned addr = true ∧ targetOf s.cfg addr = .buf b n ∧ s.busy = false ∧
      execHwr addr be d s = .next (s.writeWord (b.base + n) be d).accept) ∨
    (∃ r, aligned addr = true ∧ targetOf s.cfg addr = .reg r ∧ be = 0b1111#4 ∧ ¬ (s.busy = true ∧ r.locked = true) ∧
      execHwr addr be d s = .next (s.regWrite r d).accept) := by
  unfold execHwr
  by_cases ha : aligned addr = true
  · cases h : targetOf s.cfg addr with
    | unmapped => exact .inl (by simp [ha, State.writeTarget])
    | buf b n =>
      cases hb : s.busy with
      | true => exact .inl (by simp [ha, State.writeTarget, hb])
      | false => exact .inr (.inl ⟨b, n, ha, rfl, rfl, by simp [ha, State.writeTarget, hb]⟩)
    | reg r =>
      by_cases he : be = 0b1111#4
      · by_cases hl : s.busy = true ∧ r.locked = true
        · exact .inl (by simp [ha, State.writeTarget, he, hl])
        · exact .inr (.inr ⟨r, ha, rfl, he, hl, by simp only [ha, State.writeTarget, he]; simp [hl]⟩)
      · exact .inl (by simp [ha, State.writeTarget, he])
  · exact .inl (by simp [ha])

/-! The stages' writes, byte by byte. -/

theorem grayStage_byte (s : State) (a : Nat) :
    s.grayStage.byte a =
      if Buf.base .gray ≤ a ∧ a < Buf.base .gray + s.pixels then BitVec.ofNat 8 (s.grayAt (a - Buf.base .gray))
      else s.byte a := by
  simp only [State.byte, State.grayStage_mem, State.grayStage_epoch, sparseFind_fill]
  split <;> rfl

theorem smoothStage_byte (s : State) (a : Nat) :
    s.smoothStage.byte a =
      if Buf.base .smooth ≤ a ∧ a < Buf.base .smooth + s.pixels then BitVec.ofNat 8 (s.smoothAt (a - Buf.base .smooth))
      else s.byte a := by
  simp only [State.byte, State.smoothStage_mem, State.smoothStage_epoch, sparseFind_fill]
  split <;> rfl

theorem thresholdStage_byte (s : State) (a : Nat) :
    s.thresholdStage.byte a =
      if Buf.base .edge ≤ a ∧ a < Buf.base .edge + s.pixels then
        (if s.edgeSet.contains (a - Buf.base .edge) then 255#8 else 0#8)
      else s.byte a := by
  simp only [State.byte, State.thresholdStage_mem, State.thresholdStage_epoch, sparseFind_fill]
  split <;> rfl

theorem gradientStage_fldMag2At (s : State) (n : Nat) :
    s.gradientStage.fldMag2At n =
      if n < s.pixels then BitVec.ofNat 32 (mag2Of (s.gxAt n) (s.gyAt n)) else s.fldMag2At n := by
  simp only [State.fldMag2At, State.gradientStage_fldMag2, State.gradientStage_epoch, sparseFind_fill, Nat.zero_le,
    true_and, Nat.zero_add, Nat.sub_zero]
  split <;> rfl

theorem gradientStage_fldDirAt (s : State) (n : Nat) :
    s.gradientStage.fldDirAt n = if n < s.pixels then dirOf (s.gxAt n) (s.gyAt n) else s.fldDirAt n := by
  simp only [State.fldDirAt, State.gradientStage_fldDir, State.gradientStage_epoch, sparseFind_fill, Nat.zero_le,
    true_and, Nat.zero_add, Nat.sub_zero]
  split <;> rfl

theorem suppressStage_nmsMag2At (s : State) (n : Nat) :
    s.suppressStage.nmsMag2At n =
      if n < s.pixels then BitVec.ofNat 32 (s.suppressedAt n) else s.nmsMag2At n := by
  simp only [State.nmsMag2At, State.suppressStage_nmsMag2, State.suppressStage_epoch, sparseFind_fill, Nat.zero_le,
    true_and, Nat.zero_add, Nat.sub_zero]
  split <;> rfl

/-- A byte after a word write (R64, R112). -/
theorem writeWord_byte (s : State) (a : Nat) (be : BitVec 4) (d : Word) (b : Nat) :
    (s.writeWord a be d).byte b =
      if a ≤ b ∧ b < a + 4 ∧ be.getLsbD (b - a) = true then d.extractLsb' (8 * (b - a)) 8 else s.byte b := by
  simp only [State.byte, State.writeWord_mem, State.writeWord_epoch, sparseFind_writeLanes]
  split <;> rfl

/-! Reset. -/

/-- What the reset event gives is State.reset but for the model's own fields. -/
theorem resetEvent_eq (s : State) :
    s.resetEvent = { State.reset with cfg := s.cfg, epoch := s.epoch + 1, pending := s.pending } := rfl

end Sys2Proof.Machine
end

