-- ==== Sys2Proof/Laws/Stages.lean ====
section
/-! SUPPORT. The pixel functions of the stages, each said once in the rules' own terms: indices of pixels, sums,
edge-replicating reads, grey, smooth, gradient and suppression. -/

namespace Sys2Proof.Machine

/-! Pixel indices (R11). -/

theorem pixelIndex_mod {w x : Nat} (y : Nat) (h : x < w) : (y * w + x) % w = x := by
  rw [Nat.add_comm, Nat.add_mul_mod_self_right, Nat.mod_eq_of_lt h]

theorem pixelIndex_div {w x : Nat} (y : Nat) (h : x < w) : (y * w + x) / w = y := by
  rw [Nat.add_comm, Nat.add_mul_div_right _ _ (by omega), Nat.div_eq_of_lt h, Nat.zero_add]

theorem pixelIndex_lt {w h x y : Nat} (hx : x < w) (hy : y < h) : y * w + x < w * h := by
  have : (y + 1) * w ≤ h * w := Nat.mul_le_mul_right w hy
  rw [Nat.add_mul] at this
  rw [Nat.mul_comm w h]
  omega

/-- Every index below `N` is the index of a pixel of the image. -/
theorem pixelIndex_surj {w h n : Nat} (hn : n < w * h) : n % w < w ∧ n / w < h ∧ n / w * w + n % w = n := by
  have hw : 0 < w := Nat.pos_of_ne_zero fun h0 => by simp [h0] at hn
  exact ⟨Nat.mod_lt _ hw, Nat.div_lt_of_lt_mul hn, Nat.div_add_mod' n w⟩

/-! Sums and reads. -/

theorem clampInt_eq {v lo hi : Int} (h : lo ≤ hi) : clampInt v lo hi = max lo (min v hi) := by
  unfold clampInt
  split_ifs <;> omega

theorem sumTo_eq_sum (n : Nat) (f : Nat → Int) : sumTo n f = ∑ i ∈ Finset.range n, f i := by
  unfold sumTo
  induction n with
  | zero => rfl
  | succ n ih => rw [List.range_succ, List.map_append, List.sum_append, ih, Finset.sum_range_succ]; simp

/-- R72: the edge-replicating read reads the sample at the clamped coordinates. -/
theorem pxc_eq_replicated (s : State) (b : Buf) (x y : Int) (hw : s.imgW ≠ 0) (hh : s.imgH ≠ 0) :
    (pxc (fun n => (s.sample b n).toNat) s.imgW s.imgH x y : Int) = s.replicated b x y := by
  unfold pxc clampedIndex State.replicated
  rw [clampInt_eq (by omega), clampInt_eq (by omega)]

theorem replicated_range (s : State) (b : Buf) (x y : Int) : 0 ≤ s.replicated b x y ∧ s.replicated b x y ≤ 255 := by
  unfold State.replicated
  have := (s.sample b ((max 0 (min y ((s.imgH : Int) - 1))).toNat * s.imgW
    + (max 0 (min x ((s.imgW : Int) - 1))).toNat)).isLt
  constructor <;> omega

/-- The clamped pixel is a pixel of the image, so the read depends on the first `N` bytes only. -/
theorem replicated_congr {s t : State} {b : Buf} (hw : t.width = s.width) (hh : t.height = s.height)
    (h : s.imgW ≠ 0 ∧ s.imgH ≠ 0) (hs : ∀ n < s.imgW * s.imgH, t.sample b n = s.sample b n) (x y : Int) :
    t.replicated b x y = s.replicated b x y := by
  have hw' : t.imgW = s.imgW := by unfold State.imgW; rw [hw]
  have hh' : t.imgH = s.imgH := by unfold State.imgH; rw [hh]
  unfold State.replicated
  rw [hw', hh', hs]
  apply pixelIndex_lt <;> omega

/-! Grey and smooth. -/

/-- R152, R153: the grey stage's sample at a pixel. -/
theorem grayAt_eq_greyOf (s : State) (x y : Nat) : s.grayAt (y * s.imgW + x) = s.greyOf x y := by
  simp only [State.grayAt, State.greyOf, grayPx, grayAcc]
  rw [Nat.mul_comm 3]
  rfl

theorem greyOf_le (s : State) (x y : Nat) : s.greyOf x y ≤ 255 := Nat.min_le_right _ _

theorem one_le_ksize {s : State} (h : s.KernelFits) : 1 ≤ s.ksize.toNat := by
  rcases h.1 with h | h | h <;> rw [h] <;> decide

/-- R156: the accumulator as a double sum. -/
theorem smoothAcc_eq_blurSum (s : State) (x y : Nat) (hw : s.imgW ≠ 0) (hh : s.imgH ≠ 0) (hk : 1 ≤ s.ksize.toNat) :
    s.smoothAcc x y = s.blurSum x y := by
  unfold State.smoothAcc convolve State.blurSum
  rw [sumTo_eq_sum]
  refine Finset.sum_congr rfl fun i _ => ?_
  rw [sumTo_eq_sum]
  refine Finset.sum_congr rfl fun j _ => ?_
  have hr : (((s.ksize.toNat - 1) / 2 : Nat) : Int) = ((s.ksize.toNat : Int) - 1) / 2 := by omega
  rw [pxc_eq_replicated s .gray _ _ hw hh, hr]

/-- R156: the smooth stage's sample at a pixel. -/
theorem smoothAt_eq_blurOf (s : State) {x y : Nat} (hx : x < s.imgW) (hy : y < s.imgH) (hk : 1 ≤ s.ksize.toNat) :
    (s.smoothAt (y * s.imgW + x) : Int) = s.blurOf x y := by
  unfold State.smoothAt
  rw [pixelIndex_mod y hx, pixelIndex_div y hx, smoothAcc_eq_blurSum s x y (by omega) (by omega) hk]
  unfold roundShift State.blurOf roundingHalf
  rw [clampInt_eq (by omega)]
  push_cast
  rw [Int.toNat_of_nonneg (by omega)]

theorem blurOf_range (s : State) (x y : Nat) : 0 ≤ s.blurOf x y ∧ s.blurOf x y ≤ 255 := by
  unfold State.blurOf
  dsimp only
  omega

/-- What the grey stage leaves in `BUF_GRAY` (R153). -/
theorem grayStage_image (s : State) : GreyImageOf s s.grayStage := by
  intro x y hx hy
  have hlt := pixelIndex_lt hx hy
  unfold State.sample
  rw [grayStage_byte, if_pos ⟨by omega, by unfold State.pixels; omega⟩, Nat.add_sub_cancel_left, grayAt_eq_greyOf,
    BitVec.toNat_ofNat]
  have := greyOf_le s x y
  omega

/-- What the smooth stage leaves in `BUF_SMOOTH` (R157). -/
theorem smoothStage_image (s : State) (h : s.KernelFits) : SmoothImageOf s s.smoothStage := by
  intro x y hx hy
  have hlt := pixelIndex_lt hx hy
  unfold State.sample
  rw [smoothStage_byte, if_pos ⟨by omega, by unfold State.pixels; omega⟩, Nat.add_sub_cancel_left, BitVec.toNat_ofNat]
  have e := smoothAt_eq_blurOf s hx hy (one_le_ksize h)
  have := blurOf_range s x y
  omega

/-! Gradient. -/

theorem sumTo_three (f : Nat → Int) : sumTo 3 f = f 0 + f 1 + f 2 := by
  rw [sumTo_eq_sum]
  simp [Finset.sum_range_succ]

theorem gradX_eq_sobelGx (s : State) (x y : Nat) (hw : s.imgW ≠ 0) (hh : s.imgH ≠ 0) :
    gradX s.smoothImage s.imgW s.imgH x y = s.sobelGx x y := by
  have hp : ∀ x y, (pxc s.smoothImage s.imgW s.imgH x y : Int) = s.replicated .smooth x y :=
    fun x y => pxc_eq_replicated s .smooth x y hw hh
  unfold gradX convolve State.sobelGx
  simp only [sumTo_three, hp]
  simp [sobelX]
  ring_nf

theorem gradY_eq_sobelGy (s : State) (x y : Nat) (hw : s.imgW ≠ 0) (hh : s.imgH ≠ 0) :
    gradY s.smoothImage s.imgW s.imgH x y = s.sobelGy x y := by
  have hp : ∀ x y, (pxc s.smoothImage s.imgW s.imgH x y : Int) = s.replicated .smooth x y :=
    fun x y => pxc_eq_replicated s .smooth x y hw hh
  unfold gradY convolve State.sobelGy
  simp only [sumTo_three, hp]
  simp [sobelY]
  ring_nf

theorem sobel_range (s : State) (x y : Nat) :
    -1020 ≤ s.sobelGx x y ∧ s.sobelGx x y ≤ 1020 ∧ -1020 ≤ s.sobelGy x y ∧ s.sobelGy x y ≤ 1020 := by
  have r := fun dx dy => replicated_range s .smooth ((x : Int) + dx) ((y : Int) + dy)
  have a := r 1 (-1); have b := r 1 0; have c := r 1 1; have d := r (-1) (-1)
  have e := r (-1) 0; have f := r (-1) 1; have g := r 0 1; have h := r 0 (-1)
  unfold State.sobelGx State.sobelGy
  dsimp only
  refine ⟨?_, ?_, ?_, ?_⟩ <;> omega

theorem square_range {a : Int} (h : -1020 ≤ a) (h' : a ≤ 1020) : 0 ≤ a * a ∧ a * a ≤ 1040400 := by
  constructor <;> nlinarith

/-- R184: the direction code, with squares of absolute values written out. -/
theorem dirOf_eq_sectorOf (a b : Int) : dirOf a b = sectorOf a b := by
  have e1 : (a.natAbs = 0 ∧ b.natAbs = 0) ↔ (a = 0 ∧ b = 0) := by omega
  have h1 : ((a.natAbs + b.natAbs) * (a.natAbs + b.natAbs) < 2 * (a.natAbs * a.natAbs)) ↔
      ((|a| + |b|) ^ 2 < 2 * a ^ 2) := by
    rw [← Int.ofNat_lt]; push_cast; rw [← sq_abs a]; constructor <;> intro h <;> nlinarith
  have h2 : ((a.natAbs + b.natAbs) * (a.natAbs + b.natAbs) < 2 * (b.natAbs * b.natAbs)) ↔
      ((|a| + |b|) ^ 2 < 2 * b ^ 2) := by
    rw [← Int.ofNat_lt]; push_cast; rw [← sq_abs b]; constructor <;> intro h <;> nlinarith
  unfold dirOf sectorOf
  dsimp only
  simp only [e1, h1, h2]
  split_ifs with q1 q2 q3 q4 q5 q6 <;> try rfl
  · exfalso
    apply q5
    have ha : a ≠ 0 := by
      rintro rfl
      simp at q3
      have hb : b ≠ 0 := by tauto
      have : 0 < b ^ 2 := by positivity
      linarith
    have hb : b ≠ 0 := by
      rintro rfl
      simp at q2
      have : 0 < a ^ 2 := by positivity
      linarith
    simp only [eq_iff_iff] at q4
    rcases lt_or_gt_of_ne ha with h | h <;> rcases lt_or_gt_of_ne hb with h' | h'
    · nlinarith
    · exfalso; have := q4.2 h'; omega
    · exfalso; have := q4.1 h; omega
    · nlinarith
  · exfalso
    apply q4
    simp only [eq_iff_iff]
    constructor <;> intro h <;> by_contra hc <;> nlinarith

/-- The derivatives of a pixel, by its index (R181, R185). -/
theorem gxAt_eq_sobelGx (s : State) {x y : Nat} (hx : x < s.imgW) (hy : y < s.imgH) :
    s.gxAt (y * s.imgW + x) = s.sobelGx x y := by
  unfold State.gxAt
  rw [pixelIndex_mod y hx, pixelIndex_div y hx, gradX_eq_sobelGx s x y (by omega) (by omega)]

theorem gyAt_eq_sobelGy (s : State) {x y : Nat} (hx : x < s.imgW) (hy : y < s.imgH) :
    s.gyAt (y * s.imgW + x) = s.sobelGy x y := by
  unfold State.gyAt
  rw [pixelIndex_mod y hx, pixelIndex_div y hx, gradY_eq_sobelGy s x y (by omega) (by omega)]

/-- The derivatives depend on the first `N` bytes of `BUF_SMOOTH` only (R185, R72). -/
theorem gxAt_congr {s t : State} (hw : t.width = s.width) (hh : t.height = s.height)
    (hs : ∀ n < s.pixels, t.sample .smooth n = s.sample .smooth n) {n : Nat} (hn : n < s.pixels) :
    t.gxAt n = s.gxAt n ∧ t.gyAt n = s.gyAt n := by
  obtain ⟨hx, hy, he⟩ := pixelIndex_surj hn
  have hw' : t.imgW = s.imgW := by unfold State.imgW; rw [hw]
  have hh' : t.imgH = s.imgH := by unfold State.imgH; rw [hh]
  have hr := replicated_congr (b := .smooth) hw hh ⟨Nat.ne_zero_of_lt hx, Nat.ne_zero_of_lt hy⟩ hs
  have h1 := gxAt_eq_sobelGx t (x := n % t.imgW) (y := n / t.imgW) (by rw [hw']; exact hx) (by rw [hw', hh']; exact hy)
  have h2 := gyAt_eq_sobelGy t (x := n % t.imgW) (y := n / t.imgW) (by rw [hw']; exact hx) (by rw [hw', hh']; exact hy)
  have h3 := gxAt_eq_sobelGx s hx hy
  have h4 := gyAt_eq_sobelGy s hx hy
  rw [hw', he] at h1 h2
  rw [he] at h3 h4
  rw [h1, h2, h3, h4]
  constructor
  · simp only [State.sobelGx, hr]
  · simp only [State.sobelGy, hr]

/-- What the gradient stage leaves in `FLD_MAG2` and `FLD_DIR` (R185). -/
theorem gradientStage_field (s : State) : GradientFieldOf s s.gradientStage := by
  intro x y hx hy
  have hlt : y * s.imgW + x < s.pixels := pixelIndex_lt hx hy
  rw [gradientStage_fldMag2At, gradientStage_fldDirAt, if_pos hlt, if_pos hlt, gxAt_eq_sobelGx s hx hy,
    gyAt_eq_sobelGy s hx hy]
  obtain ⟨a, b, c, d⟩ := sobel_range s x y
  have p := square_range a b
  have q := square_range c d
  refine ⟨?_, dirOf_eq_sectorOf _ _⟩
  unfold mag2Of
  rw [BitVec.toNat_ofNat, pow_two, pow_two]
  omega

/-! Suppression. -/

theorem offsetIndex_eq {w x y a b : Nat} {dx dy : Int} (ha : (a : Int) = x + dx) (hb : (b : Int) = y + dy) :
    offsetIndex w x y dx dy = b * w + a := by
  unfold offsetIndex
  rw [← ha, ← hb]
  omega

theorem onBorder_eq_true {w h x y : Nat} : onBorder w h x y = true ↔ x = 0 ∨ y = 0 ∨ x + 1 = w ∨ y + 1 = h := by
  simp only [onBorder, Bool.or_eq_true, decide_eq_true_eq]
  tauto

/-- R187: the two neighbours that an inner pixel is compared with are those of its direction code. -/
theorem neighbours_le_iff (m : Nat → Nat) (d : BitVec 2) (w x y here : Nat) (hx : 0 < x) (hy : 0 < y)
    (hh : here = m (y * w + x)) :
    (m (offsetIndex w x y (dirOffset d).1 (dirOffset d).2) ≤ here ∧
      m (offsetIndex w x y (-(dirOffset d).1) (-(dirOffset d).2)) ≤ here) ↔
    IsLocalMaximum (fun a b => m (b * w + a)) d x y := by
  subst hh
  unfold IsLocalMaximum
  have hd : d = 0 ∨ d = 1 ∨ d = 2 ∨ d = 3 := by revert d; decide
  rcases hd with rfl | rfl | rfl | rfl
  · rw [show dirOffset 0 = (1, 0) from rfl]
    simp only
    rw [offsetIndex_eq (a := x + 1) (b := y) (by omega) (by omega),
      offsetIndex_eq (a := x - 1) (b := y) (by omega) (by omega)]
    simp
  · rw [show dirOffset 1 = (1, 1) from rfl]
    simp only
    rw [offsetIndex_eq (a := x + 1) (b := y + 1) (by omega) (by omega),
      offsetIndex_eq (a := x - 1) (b := y - 1) (by omega) (by omega)]
    simp
  · rw [show dirOffset 2 = (0, 1) from rfl]
    simp only
    rw [offsetIndex_eq (a := x) (b := y + 1) (by omega) (by omega),
      offsetIndex_eq (a := x) (b := y - 1) (by omega) (by omega)]
    simp
  · rw [show dirOffset 3 = (1, -1) from rfl]
    simp only
    rw [offsetIndex_eq (a := x + 1) (b := y - 1) (by omega) (by omega),
      offsetIndex_eq (a := x - 1) (b := y + 1) (by omega) (by omega)]
    simp

/-- What the suppress stage leaves in `NMS_MAG2` (R188). -/
theorem suppressStage_field (s : State) : SuppressedFieldOf s s.suppressStage := by
  intro x y hx hy
  have hlt : y * s.imgW + x < s.pixels := pixelIndex_lt hx hy
  rw [suppressStage_nmsMag2At, if_pos hlt]
  unfold State.suppressedAt
  rw [pixelIndex_mod y hx, pixelIndex_div y hx]
  unfold nmsPx
  by_cases hb : onBorder s.imgW s.imgH x y = true
  · have hb' := onBorder_eq_true.1 hb
    simp only [hb, if_true]
    exact ⟨fun h => by omega, fun _ => rfl⟩
  · have hb' : ¬ _ := fun h => hb (onBorder_eq_true.2 h)
    have hin : 0 < x ∧ x < s.imgW - 1 ∧ 0 < y ∧ y < s.imgH - 1 := by omega
    have key := neighbours_le_iff (fun n => (s.fldMag2At n).toNat) (s.fldDirAt (y * s.imgW + x)) s.imgW x y _
      hin.1 hin.2.2.1 rfl
    simp only [hb, Bool.false_eq_true, if_false]
    constructor
    · intro h
      rw [if_pos (key.2 h.2.2.2.2)]
      simp
    · intro h
      rw [if_neg fun hl => h ⟨hin.1, hin.2.1, hin.2.2.1, hin.2.2.2, key.1 hl⟩]
      rfl

end Sys2Proof.Machine
end

