-- ==== Sys2Proof/Laws/Closure.lean ====
section
/-! SUPPORT. The hysteresis closure (R192): what one pass adds, that the closure is a fixed point of it reached within
its fuel, and that it holds nothing but what promotion yields. -/

namespace Sys2Proof.Machine

variable {w count : Nat} {weak : Nat → Bool}

/-- What one pass leaves: the members, and every weak pixel next to a member. -/
theorem mem_edgePass {edges : List Nat} {n : Nat} :
    n ∈ edgePass w count weak edges ↔
      n < count ∧ (n ∈ edges ∨ (weak n = true ∧ ∃ m ∈ edges, adjacent8 w n m = true)) := by
  simp [edgePass]

/-- A set of pixels as the list of its indices in rising order. -/
def IsPixelSet (count : Nat) (edges : List Nat) : Prop := edges = (List.range count).filter edges.contains

theorem isPixelSet_filter (p : Nat → Bool) : IsPixelSet count ((List.range count).filter p) := by
  unfold IsPixelSet
  refine List.filter_congr fun n hn => ?_
  rw [Bool.eq_iff_iff]
  simp only [List.contains_iff_mem, List.mem_filter]
  exact ⟨fun h => ⟨hn, h⟩, fun h => h.2⟩

theorem isPixelSet_edgePass (edges : List Nat) : IsPixelSet count (edgePass w count weak edges) :=
  isPixelSet_filter _

theorem lt_of_mem_isPixelSet {edges : List Nat} (h : IsPixelSet count edges) {n : Nat} (hn : n ∈ edges) : n < count := by
  rw [h] at hn
  exact List.mem_range.1 (List.mem_filter.1 hn).1

theorem length_le_of_isPixelSet {edges : List Nat} (h : IsPixelSet count edges) : edges.length ≤ count := by
  rw [h]
  exact (List.length_filter_le _ _).trans_eq List.length_range

/-- A pixel set inside another is a sublist of it, so equal to it when no shorter. -/
theorem eq_of_subset_of_length {e f : List Nat} (he : IsPixelSet count e) (hf : IsPixelSet count f) (hs : e ⊆ f)
    (hl : f.length ≤ e.length) : e = f := by
  have hsub : e.Sublist f := by
    rw [he, hf]
    refine List.monotone_filter_right _ fun n hn => ?_
    simp only [List.contains_iff_mem] at hn ⊢
    exact hs hn
  exact hsub.eq_of_length_le hl

theorem subset_edgePass {edges : List Nat} (h : IsPixelSet count edges) : edges ⊆ edgePass w count weak edges :=
  fun _ hn => mem_edgePass.2 ⟨lt_of_mem_isPixelSet h hn, .inl hn⟩

/-- With enough fuel the closure is a fixed point of the pass: no further pixel is promoted (R192, R135). -/
theorem edgePass_edgeClosure {fuel : Nat} {edges : List Nat} (h : IsPixelSet count edges)
    (hf : count < edges.length + fuel) :
    edgePass w count weak (edgeClosure w count weak fuel edges) = edgeClosure w count weak fuel edges := by
  induction fuel generalizing edges with
  | zero => have := length_le_of_isPixelSet h; omega
  | succ fuel ih =>
    unfold edgeClosure
    dsimp only
    split
    · assumption
    · rename_i hne
      refine ih (isPixelSet_edgePass _) ?_
      have hlt : edges.length < (edgePass w count weak edges).length := by
        by_contra hge
        exact hne (eq_of_subset_of_length h (isPixelSet_edgePass _) (subset_edgePass h) (by omega)).symm
      omega

theorem subset_edgeClosure {fuel : Nat} {edges : List Nat} (h : IsPixelSet count edges) :
    edges ⊆ edgeClosure w count weak fuel edges := by
  induction fuel generalizing edges with
  | zero => exact fun _ hn => hn
  | succ fuel ih =>
    unfold edgeClosure
    dsimp only
    split
    · exact fun _ hn => hn
    · exact fun n hn => ih (isPixelSet_edgePass _) (subset_edgePass h hn)

theorem isPixelSet_edgeClosure {fuel : Nat} {edges : List Nat} (h : IsPixelSet count edges) :
    IsPixelSet count (edgeClosure w count weak fuel edges) := by
  induction fuel generalizing edges with
  | zero => exact h
  | succ fuel ih =>
    unfold edgeClosure
    dsimp only
    split
    · exact h
    · exact ih (isPixelSet_edgePass _)

/-- What holds of the members and passes to a weak pixel next to one holds of the whole closure. -/
theorem edgeClosure_induction {P : Nat → Prop} {fuel : Nat} {edges : List Nat} (h0 : ∀ n ∈ edges, P n)
    (hs : ∀ n m, n < count → weak n = true → adjacent8 w n m = true → P m → P n) :
    ∀ n ∈ edgeClosure w count weak fuel edges, P n := by
  induction fuel generalizing edges with
  | zero => exact h0
  | succ fuel ih =>
    unfold edgeClosure
    dsimp only
    split
    · exact h0
    · refine ih fun n hn => ?_
      obtain ⟨hlt, hn | ⟨hw, m, hm, ha⟩⟩ := mem_edgePass.1 hn
      · exact h0 n hn
      · exact hs n m hlt hw ha (h0 m hm)

/-- Adjacency of indices is adjacency of the pixels' coordinates (R192). -/
theorem adjacent8_iff {n m : Nat} :
    adjacent8 w n m = true ↔
      n ≠ m ∧ n % w ≤ m % w + 1 ∧ m % w ≤ n % w + 1 ∧ n / w ≤ m / w + 1 ∧ m / w ≤ n / w + 1 := by
  simp only [adjacent8, Bool.and_eq_true, decide_eq_true_eq]
  tauto

theorem strongAt_iff (s : State) (n : Nat) :
    s.strongAt n = true ↔ s.threshHigh.toNat ^ 2 ≤ (s.nmsMag2At n).toNat := by
  simp [State.strongAt, pow_two]

theorem weakAt_iff (s : State) (n : Nat) :
    s.weakAt n = true ↔
      s.threshLow.toNat ^ 2 ≤ (s.nmsMag2At n).toNat ∧ (s.nmsMag2At n).toNat < s.threshHigh.toNat ^ 2 := by
  simp [State.weakAt, State.strongAt, pow_two]

/-- R192: the edge set computed by passes is the least set that the rule describes. -/
theorem mem_edgeSet_iff (s : State) {x y : Nat} (hx : x < s.imgW) :
    y * s.imgW + x ∈ s.edgeSet ↔ s.IsEdge x y := by
  have hcan : IsPixelSet s.pixels ((List.range s.pixels).filter s.strongAt) := isPixelSet_filter _
  constructor
  · intro h
    have := edgeClosure_induction (w := s.imgW) (count := s.pixels) (weak := s.weakAt) (fuel := s.pixels + 1)
      (edges := (List.range s.pixels).filter s.strongAt)
      (P := fun n => n < s.imgW * s.imgH ∧ s.IsEdge (n % s.imgW) (n / s.imgW)) ?_ ?_ _ h
    · rw [pixelIndex_mod y hx, pixelIndex_div y hx] at this
      exact this.2
    · intro n hn
      obtain ⟨h1, h2⟩ := List.mem_filter.1 hn
      have hlt : n < s.imgW * s.imgH := List.mem_range.1 h1
      obtain ⟨a, b, c⟩ := pixelIndex_surj hlt
      refine ⟨hlt, .strong a b ?_⟩
      rw [c]
      exact (strongAt_iff s n).1 h2
    · intro n m hn hw ha hm
      have hlt : n < s.imgW * s.imgH := hn
      obtain ⟨a, b, c⟩ := pixelIndex_surj hlt
      have hw := (weakAt_iff s n).1 hw
      obtain ⟨e1, e2, e3, e4, e5⟩ := adjacent8_iff.1 ha
      refine ⟨hlt, .weak a b ?_ ?_ hm.2 ?_ e2 e3 e4 e5⟩
      · rw [c]; exact hw.1
      · rw [c]; exact hw.2
      · intro he
        simp only [Prod.mk.injEq] at he
        apply e1
        rw [← c, ← (pixelIndex_surj hm.1).2.2, he.1, he.2]
  · intro h
    clear hx
    induction h with
    | @strong x y hx hy hs =>
      refine subset_edgeClosure hcan (List.mem_filter.2 ⟨List.mem_range.2 (pixelIndex_lt hx hy), ?_⟩)
      exact (strongAt_iff s _).2 hs
    | @weak x y x' y' hx hy h1 h2 h3 hne a b c d ih =>
      have fix := edgePass_edgeClosure (w := s.imgW) (weak := s.weakAt) (fuel := s.pixels + 1) hcan (by omega)
      show y * s.imgW + x ∈ edgeClosure s.imgW s.pixels s.weakAt (s.pixels + 1) ((List.range s.pixels).filter s.strongAt)
      rw [← fix]
      have hx' : x' < s.imgW := by cases h3 <;> assumption
      refine mem_edgePass.2 ⟨pixelIndex_lt hx hy, .inr ⟨(weakAt_iff s _).2 ⟨h1, h2⟩, _, ih, ?_⟩⟩
      rw [adjacent8_iff, pixelIndex_mod y hx, pixelIndex_div y hx, pixelIndex_mod y' hx', pixelIndex_div y' hx']
      refine ⟨fun he => hne ?_, a, b, c, d⟩
      have e1 := congrArg (· % s.imgW) he
      have e2 := congrArg (· / s.imgW) he
      simp only [pixelIndex_mod y hx, pixelIndex_mod y' hx'] at e1
      simp only [pixelIndex_div y hx, pixelIndex_div y' hx'] at e2
      rw [e1, e2]
/-- What the threshold stage leaves in `BUF_EDGE` (R193). -/
theorem thresholdStage_edgeMap (s : State) : EdgeMapOf s s.thresholdStage := by
  intro x y hx hy
  have hlt := pixelIndex_lt hx hy
  have hif : Buf.base .edge ≤ Buf.base .edge + (y * s.imgW + x) ∧
      Buf.base .edge + (y * s.imgW + x) < Buf.base .edge + s.pixels := ⟨by omega, by unfold State.pixels; omega⟩
  unfold State.sample
  rw [thresholdStage_byte, if_pos hif, Nat.add_sub_cancel_left]
  constructor
  · intro h
    rw [if_pos (List.contains_iff_mem.2 ((mem_edgeSet_iff s hx).2 h))]
    rfl
  · intro h
    rw [if_neg (fun hc => h ((mem_edgeSet_iff s hx).1 (List.contains_iff_mem.1 hc)))]
    rfl

end Sys2Proof.Machine
end

