-- ==== Sys2Proof/Laws/Decode.lean ====
section
/-! SUPPORT. The laws of the byte order and the packing that decoding and encoding share. -/

namespace Sys2Proof

@[simp] theorem length_toBytesLE (n w : Nat) : (toBytesLE n w).length = n := by
  induction n generalizing w with
  | zero => rfl
  | succ n ih => simp [toBytesLE, ih]

/-- Reading back the low bytes of a number. -/
theorem fromBytesLE_toBytesLE (n w : Nat) : fromBytesLE (toBytesLE n w) = w % 256 ^ n := by
  induction n generalizing w with
  | zero => simp [toBytesLE, fromBytesLE, Nat.mod_one]
  | succ n ih =>
    have h : w % (256 * 256 ^ n) = w % 256 + 256 * (w / 256 % 256 ^ n) := Nat.mod_mul
    have hb : (BitVec.ofNat 8 w).toNat = w % 256 := BitVec.toNat_ofNat w 8
    simp only [toBytesLE, fromBytesLE, ih, hb]
    rw [Nat.pow_succ, Nat.mul_comm (256 ^ n), h]

/-- A packed request fits 61 bits (R91). -/
theorem packRequest_lt (r : Request) : packRequest r < 2 ^ 61 := by
  have h1 := r.addr.isLt
  have h2 := r.be.isLt
  have h3 := r.wdata.isLt
  unfold packRequest
  cases r.we <;> simp only [Bool.toNat_true, Bool.toNat_false] <;> omega

/-- Unpacking a packed request gives it back (R91). -/
theorem unpackRequest_packRequest (r : Request) : unpackRequest (packRequest r) = r := by
  obtain ⟨we, addr, be, wdata⟩ := r
  have h1 := addr.isLt
  have h2 := be.isLt
  have h3 := wdata.isLt
  have hw : (packRequest ⟨we, addr, be, wdata⟩).testBit 60 = we := by
    rw [Nat.testBit_eq_decide_div_mod_eq]
    unfold packRequest
    cases we <;> simp only [Bool.toNat_true, Bool.toNat_false, decide_eq_true_eq, decide_eq_false_iff_not] <;> omega
  have ha : BitVec.ofNat 24 (packRequest ⟨we, addr, be, wdata⟩ / 2 ^ 36) = addr := by
    apply BitVec.eq_of_toNat_eq
    rw [BitVec.toNat_ofNat]
    unfold packRequest
    cases we <;> simp only [Bool.toNat_true, Bool.toNat_false] <;> omega
  have hb : BitVec.ofNat 4 (packRequest ⟨we, addr, be, wdata⟩ / 2 ^ 32) = be := by
    apply BitVec.eq_of_toNat_eq
    rw [BitVec.toNat_ofNat]
    unfold packRequest
    cases we <;> simp only [Bool.toNat_true, Bool.toNat_false] <;> omega
  have hd : BitVec.ofNat 32 (packRequest ⟨we, addr, be, wdata⟩) = wdata := by
    apply BitVec.eq_of_toNat_eq
    rw [BitVec.toNat_ofNat]
    unfold packRequest
    cases we <;> simp only [Bool.toNat_true, Bool.toNat_false] <;> omega
  simp only [unpackRequest, hw, ha, hb, hd]

/-- All that opcode decoding can answer with an instruction (R92). -/
theorem decodeOpcode_ok {op : BitVec 8} {i : Instr} (h : decodeOpcode op = .ok i) : opcodeOf i = some op := by
  unfold decodeOpcode at h
  repeat'
    split at h
    · cases h
      simp_all [opcodeOf]
  cases h

end Sys2Proof
end

