-- ==== Sys2Proof/Laws/Step.lean ====
section
/-! SUPPORT. What one step can do, said once: no instruction stops the machine, and a step is one of the events. -/

namespace Sys2Proof.Machine

/-! The meanings, as the dispatcher names them. -/

theorem exec_gray (s : State) : exec .gray s = .next (s.complete (checksGray s) State.grayStage) := rfl
theorem exec_smooth (s : State) : exec .smooth s = .next (s.complete (checksSmooth s) State.smoothStage) := rfl
theorem exec_preprocess (s : State) :
    exec .preprocess s = .next (s.complete (checksPreprocess s) fun u => u.grayStage.smoothStage) := rfl
theorem exec_gradient (s : State) :
    exec .gradient s = .next (s.complete (checksGradient s) fun u => u.gradientStage.withPstate .gradient) := rfl
theorem exec_nms (s : State) :
    exec .nms s = .next (s.complete (checksNms s) fun u => u.suppressStage.withPstate .suppressed) := rfl
theorem exec_hyst (s : State) :
    exec .hyst s = .next (s.complete (checksHyst s) fun u => u.thresholdStage.withPstate .thresholded) := rfl
theorem exec_detect (s : State) :
    exec .detect s = .next (s.complete (checksDetect s) fun u =>
      u.gradientStage.suppressStage.thresholdStage.withPstate .thresholded) := rfl
theorem exec_hrd (addr : Addr) (s : State) :
    exec (.hrd addr) s =
      .next (if aligned addr then s.readTarget (targetOf s.cfg addr) else s.refuse) := rfl
theorem exec_hwr (addr : Addr) (be : BitVec 4) (d : Word) (s : State) :
    exec (.hwr addr be d) s =
      .next (if aligned addr then s.writeTarget (targetOf s.cfg addr) be d else s.refuse) := rfl

/-! The events. -/

theorem step_of_pending {s : State} {e : Event} {rest : List Event} (h : s.pending = e :: rest) :
    step s = onEvent e { s with pending := rest } := by
  simp [step, State.nextEvent, h]

theorem step_of_none_pending {s : State} (h : s.pending = []) : step s = engineTurn s := by
  simp [step, State.nextEvent, h, onEvent]

theorem engineTurn_idle {s : State} (h : s.busy = false) : engineTurn s = .next s := by
  simp [engineTurn, h]

theorem engineTurn_busy {s : State} {i : Instr} (h : s.busy = true) (hi : decodeOpcode s.op = .ok i) :
    engineTurn s = exec i s := by
  simp [engineTurn, h, State.fetchCommand, hi]

theorem engineTurn_reserved {s : State} {e : DecodeError} (h : s.busy = true) (he : decodeOpcode s.op = .error e) :
    engineTurn s = .next (s.failCommand .illegalCommand) := by
  simp [engineTurn, h, State.fetchCommand, he, State.illegalCommand, complete_fail]

/-- The engine's turn, all of it. -/
theorem engineTurn_cases (s : State) :
    (s.busy = false ∧ engineTurn s = .next s) ∨
    (s.busy = true ∧ ∃ i, decodeOpcode s.op = .ok i ∧ engineTurn s = exec i s) ∨
    (s.busy = true ∧ (∃ e, decodeOpcode s.op = .error e) ∧ engineTurn s = .next (s.failCommand .illegalCommand)) := by
  cases hb : s.busy with
  | false => exact .inl ⟨rfl, engineTurn_idle hb⟩
  | true =>
    cases hd : decodeOpcode s.op with
    | ok i => exact .inr (.inl ⟨rfl, i, rfl, engineTurn_busy hb hd⟩)
    | error e => exact .inr (.inr ⟨rfl, ⟨e, rfl⟩, engineTurn_reserved hb hd⟩)

/-- A step, all of it: a transaction, the engine's turn, or a reset, on the state less the event taken. -/
theorem step_cases {s t : State} (h : step s = .next t) :
    (∃ r rest, s.pending = .host r :: rest ∧ exec (decodeRequest r) { s with pending := rest } = .next t) ∨
    (∃ rest, s.pending = .engine :: rest ∧ engineTurn { s with pending := rest } = .next t) ∨
    (s.pending = [] ∧ engineTurn s = .next t) ∨
    (∃ rest, s.pending = .reset :: rest ∧ t = { s with pending := rest }.resetEvent) := by
  cases hp : s.pending with
  | nil => exact .inr (.inr (.inl ⟨rfl, by rw [step_of_none_pending hp] at h; exact h⟩))
  | cons e rest =>
    rw [step_of_pending hp] at h
    cases e with
    | host r => exact .inl ⟨r, rest, rfl, h⟩
    | engine => exact .inr (.inl ⟨rest, rfl, h⟩)
    | reset =>
      refine .inr (.inr (.inr ⟨rest, rfl, ?_⟩))
      injection h with h
      exact h.symm

end Sys2Proof.Machine
end

