-- ==== Sys2Proof/Laws/Events.lean ====
section
/-! SUPPORT. Inversion of a step: the three kinds of event, all that a host transaction can do, all that the engine's
turn can do. Every invariant of the machine follows from these by cases, with no unfolding of the step. -/

namespace Sys2Proof.Machine

/-! Reading and writing a register by its own address (R113, R118). -/

theorem exec_hrd_reg (s : State) (r : Reg) :
    exec (.hrd (BitVec.ofNat 24 r.addr)) s = .next (s.respond false (s.regRead r)) := by
  rw [exec_hrd, aligned_reg, targetOf_reg]
  rfl

theorem exec_hwr_reg {s : State} {r : Reg} (d : Word) (h : ¬ (s.busy = true ∧ r.locked = true)) :
    exec (.hwr (BitVec.ofNat 24 r.addr) 0b1111#4 d) s = .next (s.regWrite r d).accept := by
  rw [exec_hwr, aligned_reg, targetOf_reg]
  simp only [State.writeTarget, h]
  rfl

/-! A step, by its event. -/

/-- The event taken, and the step from the state less that event. -/
theorem step_event {s t : State} (h : step s = .next t) :
    (∃ r rest, s.pending = .host r :: rest ∧ s.nextEvent = (.host r, { s with pending := rest }) ∧
      exec (decodeRequest r) { s with pending := rest } = .next t) ∨
    (∃ p, s.nextEvent = (.engine, { s with pending := p }) ∧ engineTurn { s with pending := p } = .next t) ∨
    (∃ p, s.nextEvent = (.reset, { s with pending := p }) ∧ t = { s with pending := p }.resetEvent) := by
  rcases step_cases h with ⟨r, rest, hp, he⟩ | ⟨rest, hp, he⟩ | ⟨hp, he⟩ | ⟨rest, hp, he⟩
  · exact .inl ⟨r, rest, hp, by simp [State.nextEvent, hp], he⟩
  · exact .inr (.inl ⟨rest, by simp [State.nextEvent, hp], he⟩)
  · exact .inr (.inl ⟨s.pending, by simp only [State.nextEvent, hp]; rw [← hp], he⟩)
  · exact .inr (.inr ⟨rest, by simp [State.nextEvent, hp], he⟩)

/-- All a host transaction can do: it only answers; or it writes enabled lanes of an aligned buffer word while idle; or
it writes a register that is not locked (R111, R112). -/
theorem request_cases {r : Request} {s t : State} (h : exec (decodeRequest r) s = .next t) :
    (∃ e d, t = s.respond e d) ∨
    (r.we = true ∧ s.busy = false ∧ ∃ (b : Buf) (n : Nat), b.base + n = r.addr.toNat ∧ n < b.length s.cfg ∧
      r.addr.toNat % 4 = 0 ∧ t = (s.writeWord r.addr.toNat r.be r.wdata).accept) ∨
    (r.we = true ∧ ∃ g : Reg, r.addr.toNat = g.addr ∧ ¬ (s.busy = true ∧ g.locked = true) ∧
      t = (s.regWrite g r.wdata).accept) := by
  unfold decodeRequest at h
  split at h
  · rename_i hw
    rcases execHwr_cases r.addr r.be r.wdata s with h' | ⟨b, n, ha, ht, hb, h'⟩ | ⟨g, ha, ht, _, hl, h'⟩
    · have h' : exec (.hwr r.addr r.be r.wdata) s = _ := h'
      rw [h'] at h
      injection h with h
      exact .inl ⟨true, 0, h.symm⟩
    · have h' : exec (.hwr r.addr r.be r.wdata) s = _ := h'
      rw [h'] at h
      injection h with h
      obtain ⟨h1, h2⟩ := targetOf_buf ht
      refine .inr (.inl ⟨hw, hb, b, n, h1, h2, by simpa [aligned] using ha, ?_⟩)
      rw [← h1]
      exact h.symm
    · have h' : exec (.hwr r.addr r.be r.wdata) s = _ := h'
      rw [h'] at h
      injection h with h
      refine .inr (.inr ⟨hw, g, ?_, hl, h.symm⟩)
      rcases targetOf_cases s.cfg r.addr with ⟨g', hg, h2⟩ | ⟨b, _, h2⟩ | ⟨_, _, h2⟩
      · rw [ht] at h2
        cases h2
        exact regAt_eq_some (by simpa [aligned] using ha) hg
      · rw [ht] at h2; cases h2
      · rw [ht] at h2; cases h2
  · obtain ⟨e, d, h'⟩ := execHrd_eq r.addr s
    have h' : exec (.hrd r.addr) s = _ := h'
    rw [h'] at h
    injection h with h
    exact .inl ⟨e, d, h.symm⟩

/-- The seven commands: opcode, instruction, checks and effect (R92, R153 to R195). -/
inductive CommandIs (op : BitVec 8) : Instr → (State → Option ErrCode) → (State → State) → Prop where
  /-- `GRAY`. -/
  | gray : op = 1 → CommandIs op .gray checksGray State.grayStage
  /-- `SMOOTH`. -/
  | smooth : op = 2 → CommandIs op .smooth checksSmooth State.smoothStage
  /-- `PREPROCESS`. -/
  | preprocess : op = 3 → CommandIs op .preprocess checksPreprocess (fun u => u.grayStage.smoothStage)
  /-- `GRADIENT`. -/
  | gradient : op = 4 → CommandIs op .gradient checksGradient (fun u => u.gradientStage.withPstate .gradient)
  /-- `NMS`. -/
  | nms : op = 5 → CommandIs op .nms checksNms (fun u => u.suppressStage.withPstate .suppressed)
  /-- `HYST`. -/
  | hyst : op = 6 → CommandIs op .hyst checksHyst (fun u => u.thresholdStage.withPstate .thresholded)
  /-- `DETECT`. -/
  | detect : op = 7 → CommandIs op .detect checksDetect
      (fun u => u.gradientStage.suppressStage.thresholdStage.withPstate .thresholded)

theorem exec_command {op : BitVec 8} {i : Instr} {c : State → Option ErrCode} {f : State → State}
    (h : CommandIs op i c f) (s : State) : exec i s = .next (s.complete (c s) f) := by
  cases h <;> rfl

theorem commandIs_of_decodeOpcode {op : BitVec 8} {i : Instr} (h : decodeOpcode op = .ok i) :
    ∃ c f, CommandIs op i c f := by
  have ho := decodeOpcode_ok h
  cases i <;> simp only [opcodeOf, Option.some.injEq, reduceCtorEq] at ho
  exacts [⟨_, _, .gray ho.symm⟩, ⟨_, _, .smooth ho.symm⟩, ⟨_, _, .preprocess ho.symm⟩, ⟨_, _, .gradient ho.symm⟩,
    ⟨_, _, .nms ho.symm⟩, ⟨_, _, .hyst ho.symm⟩, ⟨_, _, .detect ho.symm⟩]

/-- All the engine's turn can do: nothing while idle; else the command fails, or its checks pass and its effect
happens (R130, R133). -/
theorem engineTurn_next {s t : State} (h : engineTurn s = .next t) :
    (s.busy = false ∧ t = s) ∨
    (s.busy = true ∧ ∃ e, t = s.failCommand e) ∨
    (s.busy = true ∧ ∃ i c f, CommandIs s.op i c f ∧ c s = none ∧ t = (f s).succeedCommand) := by
  rcases engineTurn_cases s with ⟨hb, he⟩ | ⟨hb, i, hi, he⟩ | ⟨hb, _, he⟩
  · rw [he] at h
    injection h with h
    exact .inl ⟨hb, h.symm⟩
  · obtain ⟨c, f, hc⟩ := commandIs_of_decodeOpcode hi
    rw [he, exec_command hc] at h
    injection h with h
    cases hcs : c s with
    | none => rw [hcs, complete_succeed hb] at h; exact .inr (.inr ⟨hb, i, c, f, hc, hcs, h.symm⟩)
    | some e => rw [hcs, complete_fail hb] at h; exact .inr (.inl ⟨hb, e, h.symm⟩)
  · rw [he] at h
    injection h with h
    exact .inr (.inl ⟨hb, _, h.symm⟩)

/-- A command that passes its checks fits the buffers (R132 check 2). -/
theorem fitsBuffers_of_checks {op : BitVec 8} {i : Instr} {c : State → Option ErrCode} {f : State → State} {s : State}
    (h : CommandIs op i c f) (hc : c s = none) : s.FitsBuffers := by
  cases h
  · exact (checksGray_eq_none.1 hc).1
  · exact (checksSmooth_eq_none.1 hc).1
  · exact (checksPreprocess_eq_none.1 hc).1
  · exact (checksGradient_eq_none.1 hc).1
  · exact (checksNms_eq_none.1 hc).1
  · exact (checksHyst_eq_none.1 hc).1
  · exact (checksDetect_eq_none.1 hc).1

/-! Several steps. -/

theorem stepN_of_step {n : Nat} {s t : State} (h : step s = .next t) : stepN (n + 1) s = stepN n t := by
  rw [stepN, h]

/-- The host's write of `CMD` while idle, as an event (R131). -/
theorem step_hostCommand {s : State} {o : Word} {rest : List Event} (hb : s.busy = false)
    (hp : s.pending = hostCommand o :: rest) :
    step s = .next ({ s with pending := rest }.startCommand (o.setWidth 8)).accept := by
  rw [step_of_pending hp]
  exact exec_hwr_reg (r := .cmd) o (by simp [hb])

/-- Starting a command and letting it complete successfully. -/
theorem stepN_command {s u : State} {o : Word} {i : Instr} {c : State → Option ErrCode} {f : State → State}
    {rest : List Event} {n : Nat} (hi : CommandIs (o.setWidth 8) i c f) (hd : decodeOpcode (o.setWidth 8) = .ok i)
    (hb : s.busy = false) (hp : s.pending = hostCommand o :: .engine :: rest)
    (hu : u = ({ s with pending := rest }.startCommand (o.setWidth 8)).accept) (hc : c u = none) :
    stepN (n + 2) s = stepN n (f u).succeedCommand := by
  subst hu
  rw [stepN_of_step (step_hostCommand hb hp)]
  refine stepN_of_step ?_
  rw [step_of_pending (e := .engine) (rest := rest) rfl]
  refine (engineTurn_busy (i := i) rfl hd).trans ((exec_command hi _).trans ?_)
  refine congrArg _ (Eq.trans (congrArg (fun e => State.complete _ e f) hc) (complete_succeed rfl))

/-! The stages read none of the status fields, so a status update commutes with them. -/

theorem grayStage_startCommand (s : State) (o : BitVec 8) : (s.startCommand o).grayStage = s.grayStage.startCommand o := rfl
theorem smoothStage_startCommand (s : State) (o : BitVec 8) : (s.startCommand o).smoothStage = s.smoothStage.startCommand o := rfl
theorem gradientStage_startCommand (s : State) (o : BitVec 8) :
    (s.startCommand o).gradientStage = s.gradientStage.startCommand o := rfl
theorem suppressStage_startCommand (s : State) (o : BitVec 8) :
    (s.startCommand o).suppressStage = s.suppressStage.startCommand o := rfl
theorem thresholdStage_startCommand (s : State) (o : BitVec 8) :
    (s.startCommand o).thresholdStage = s.thresholdStage.startCommand o := rfl
theorem gradientStage_accept (s : State) : s.accept.gradientStage = s.gradientStage.accept := rfl
theorem suppressStage_accept (s : State) : s.accept.suppressStage = s.suppressStage.accept := rfl
theorem thresholdStage_accept (s : State) : s.accept.thresholdStage = s.thresholdStage.accept := rfl
theorem grayStage_accept (s : State) : s.accept.grayStage = s.grayStage.accept := rfl
theorem smoothStage_accept (s : State) : s.accept.smoothStage = s.smoothStage.accept := rfl
theorem smoothStage_succeedCommand (s : State) : s.succeedCommand.smoothStage = s.smoothStage.succeedCommand := rfl
theorem suppressStage_succeedCommand (s : State) : s.succeedCommand.suppressStage = s.suppressStage.succeedCommand := rfl
theorem thresholdStage_succeedCommand (s : State) :
    s.succeedCommand.thresholdStage = s.thresholdStage.succeedCommand := rfl
theorem suppressStage_withPstate (s : State) (p : PState) : (s.withPstate p).suppressStage = s.suppressStage.withPstate p := rfl
theorem thresholdStage_withPstate (s : State) (p : PState) :
    (s.withPstate p).thresholdStage = s.thresholdStage.withPstate p := rfl

/-! What the stages' preconditions rest on. -/

theorem fitsBuffers_congr {s t : State} (hw : t.width = s.width) (hh : t.height = s.height) (hc : t.cfg = s.cfg)
    (h : s.FitsBuffers) : t.FitsBuffers := by
  unfold State.FitsBuffers State.imgW State.imgH at *
  rw [hw, hh, hc]
  exact h

theorem thresholdsRise_congr {s t : State} (hl : t.threshLow = s.threshLow) (hh : t.threshHigh = s.threshHigh)
    (h : s.ThresholdsRise) : t.ThresholdsRise := by
  unfold State.ThresholdsRise at *
  rw [hl, hh]
  exact h

theorem atLeast3x3_congr {s t : State} (hw : t.width = s.width) (hh : t.height = s.height) (h : s.AtLeast3x3) :
    t.AtLeast3x3 := by
  unfold State.AtLeast3x3 State.imgW State.imgH at *
  rw [hw, hh]
  exact h

/-- Suppression reads the field buffers and the dimensions only (R188). -/
theorem suppressedAt_congr {s t : State} (hw : t.width = s.width) (hh : t.height = s.height) (he : t.epoch = s.epoch)
    (hm : t.fldMag2 = s.fldMag2) (hd : t.fldDir = s.fldDir) (n : Nat) : t.suppressedAt n = s.suppressedAt n := by
  have hf : t.fldDirAt = s.fldDirAt := by funext m; unfold State.fldDirAt; rw [he, hd]
  unfold State.suppressedAt State.imgW State.imgH State.fldMag2At
  rw [hw, hh, he, hm, hf]

/-- The edge set reads `NMS_MAG2`, the thresholds and the dimensions only (R193). -/
theorem edgeSet_congr {s t : State} (hw : t.width = s.width) (hh : t.height = s.height)
    (hl : t.threshLow = s.threshLow) (hi : t.threshHigh = s.threshHigh) (hq : ∀ n, t.nmsMag2At n = s.nmsMag2At n) :
    t.edgeSet = s.edgeSet := by
  have hp : t.pixels = s.pixels := by unfold State.pixels State.imgW State.imgH; rw [hw, hh]
  have hW : t.imgW = s.imgW := by unfold State.imgW; rw [hw]
  have e1 : t.strongAt = s.strongAt := by funext n; unfold State.strongAt; rw [hi, hq]
  have e2 : t.weakAt = s.weakAt := by funext n; unfold State.weakAt; rw [e1, hl, hq]
  unfold State.edgeSet
  rw [hp, hW, e1, e2]

end Sys2Proof.Machine
end

