-- ==== Sys2Proof/Laws/PerInstr.lean ====
section
/-! SUPPORT. The per-instruction family: the encoding of an instruction has its format's fixed length, and its word
fits the format (R90). -/

namespace Sys2Proof.Laws.EncodingFitsFormat

/-- The bytes are as many as the format has, and the word is a word of the format. -/
def Statement (i : Instr) : Prop :=
  (encode i).length = (match i.format with | .cmdw => 4 | .bus => 8) ∧ i.format.wordFits (encodeWord i) = true

theorem gray : Statement .gray := ⟨rfl, by decide⟩
theorem smooth : Statement .smooth := ⟨rfl, by decide⟩
theorem preprocess : Statement .preprocess := ⟨rfl, by decide⟩
theorem gradient : Statement .gradient := ⟨rfl, by decide⟩
theorem nms : Statement .nms := ⟨rfl, by decide⟩
theorem hyst : Statement .hyst := ⟨rfl, by decide⟩
theorem detect : Statement .detect := ⟨rfl, by decide⟩
theorem hrd (addr : Addr) : Statement (.hrd addr) :=
  ⟨rfl, decide_eq_true (packRequest_lt ⟨false, addr, 0, 0⟩)⟩
theorem hwr (addr : Addr) (be : BitVec 4) (wdata : Word) : Statement (.hwr addr be wdata) :=
  ⟨rfl, decide_eq_true (packRequest_lt ⟨true, addr, be, wdata⟩)⟩

end Sys2Proof.Laws.EncodingFitsFormat
end

