-- ==== Sys2Proof/Tests/Slice0.lean ====
section
/-! SUPPORT. Tests: ill-formed terms are refused, every constructor's word written out from the spec decodes to it,
single steps against the examples of the rules and spec/95_test_vectors.md, and a witness for the hypotheses of every
statement. -/

namespace Sys2Proof.Machine.Tests

/-! Helpers. -/

/-- The next state of an outcome. -/
def nextOf : Host.Outcome State Fault Refusal → State
  | .next t => t
  | .fault _ => State.reset
  | .refused _ => State.reset

/-- A `w` by `h` image with a command in execution, and the 3 by 3 kernel (1 2 1), (2 4 2), (1 2 1) over 16. -/
def busyWith (w h : BitVec 16) (op : BitVec 8) : State :=
  { State.reset with
    width := w, height := h, busy := true, op := op, ksize := 3, kshift := 4
    kcoef := #v[1, 2, 1, 0, 0, 0, 0, 2, 4, 2, 0, 0, 0, 0, 1, 2, 1, 0, 0, 0, 0,
      0, 0, 0, 0, 0, 0, 0, 0, 0, 0, 0, 0, 0, 0, 0, 0, 0, 0, 0, 0, 0, 0, 0, 0, 0, 0, 0, 0] }

/-- The bytes given, from a host address on. -/
def storing (s : State) (base : Nat) (bytes : List Nat) : State :=
  { s with mem := bytes.mapIdx fun n v => (base + n, BitVec.ofNat 8 v) }

/-- The gradient field given. -/
def withField (s : State) (mag2 dir : List Nat) : State :=
  { s with
    fldMag2 := mag2.mapIdx fun n v => (n, BitVec.ofNat 32 v)
    fldDir := dir.mapIdx fun n v => (n, BitVec.ofNat 2 v)
    pstate := .gradient }

/-- The suppressed field given. -/
def withSuppressed (s : State) (mag2 : List Nat) : State :=
  { s with nmsMag2 := mag2.mapIdx (fun n v => (n, BitVec.ofNat 32 v)), pstate := .suppressed }

/-- The first `n` samples of a buffer. -/
def samples (s : State) (b : Buf) (n : Nat) : List Nat := (List.range n).map fun k => (s.sample b k).toNat

/-- R185's 4 by 4 example image. -/
def image4 : List Nat := [10, 10, 10, 10, 10, 50, 90, 10, 10, 50, 200, 10, 10, 10, 10, 255]

/-- R188's example field of that image. -/
def mag4 : List Nat :=
  [3200, 32000, 41600, 12800, 16000, 195400, 190800, 158600, 16000, 237200, 17650, 475250, 3200, 109000, 513650, 594050]

/-- R188's example directions. -/
def dir4 : List Nat := [1, 1, 2, 3, 0, 1, 2, 3, 0, 0, 0, 2, 3, 3, 0, 1]

/-- R193's 5 by 5 example field. -/
def supp5 : List Nat :=
  [0, 0, 0, 0, 0, 0, 40000, 3600, 0, 4900, 0, 0, 0, 0, 0, 0, 3600, 0, 0, 0, 0, 0, 0, 0, 1600]

/-- R195's and the example's `DETECT`, ready to complete. -/
def detect4 : State := storing (busyWith 4 4 7) 0x900000 image4

/-- A host write as an event. -/
def write (addr : Addr) (d : Word) : Event := .host ⟨true, addr, 0b1111#4, d⟩

/-! WellFormed: what is ill-formed is refused. -/

theorem test_wf_cmdw_too_wide : Format.cmdw.wordFits 0x100000001 = false := by decide
theorem test_wf_cmdw_widest : Format.cmdw.wordFits 0xFFFFFFFF = true := by decide
theorem test_wf_bus_too_wide : Format.bus.wordFits 0x2000000000000000 = false := by decide
theorem test_wf_bus_widest : Format.bus.wordFits 0x1FFFFFFFFFFFFFFF = true := by decide
theorem test_wf_maxpix_not_multiple_of_4 : Config.Params.WellFormed ⟨1022, 299, 587, 114⟩ = false := by decide
theorem test_wf_maxpix_zero : Config.Params.WellFormed ⟨0, 299, 587, 114⟩ = false := by decide
theorem test_wf_maxpix_too_large : Config.Params.WellFormed ⟨1048580, 299, 587, 114⟩ = false := by decide
theorem test_wf_gden_zero : Config.Params.WellFormed ⟨1048576, 0, 0, 0⟩ = false := by decide
theorem test_wf_defaults : Config.defaults.WellFormed = true := by decide
theorem test_wf_hwr : (Instr.hwr 0xFFFFFF#24 0xF#4 0xFFFFFFFF#32).WellFormed = true := by decide
theorem test_wf_memory_out_of_order : Memory.wf [(2, 0#8), (1, 0#8)] = false := by decide
theorem test_wf_memory_repeated : Memory.wf [(1, 0#8), (1, 5#8)] = false := by decide

/-! Decode: R92's opcode map and R91's packing, bit by bit. -/

theorem test_decode_gray : decodeTableWord 32 0b00000000_00000000_00000000_00000001 = some .gray := by decide
theorem test_decode_smooth : decodeTableWord 32 0b11111111_11111111_11111111_00000010 = some .smooth := by decide
theorem test_decode_preprocess : decodeTableWord 32 0b00000000_00000000_00000001_00000011 = some .preprocess := by decide
theorem test_decode_gradient : decodeTableWord 32 0b10000000_00000000_00000000_00000100 = some .gradient := by decide
theorem test_decode_nms : decodeTableWord 32 0b00000000_00000000_00000000_00000101 = some .nms := by decide
theorem test_decode_hyst : decodeTableWord 32 0b00000000_00000000_00000000_00000110 = some .hyst := by decide
theorem test_decode_detect : decodeTableWord 8 0b00000111 = some .detect := by decide
/-- `we = 0`, `addr = 0xA00004`, the ignored `be` and `wdata` all ones. -/
theorem test_decode_hrd :
    decodeTableWord 64 0b000_0_101000000000000000000100_1111_11111111111111111111111111111111 =
      some (.hrd 0xA00004#24) := by decide
/-- `we = 1`, `addr = 0x900000`, `be = 0b0101`, `wdata = 0xAABBCCDD` (R112's example). -/
theorem test_decode_hwr :
    decodeTableWord 64 0b000_1_100100000000000000000000_0101_10101010101110111100110011011101 =
      some (.hwr 0x900000#24 0b0101#4 0xAABBCCDD#32) := by decide
theorem test_decode_reserved_zero : decode [0x00#8, 0#8, 0#8, 0#8] = .error (.reservedOpcode 0x00#8) := by decide
theorem test_decode_reserved_high : decode [0xFF#8, 0#8, 0#8, 0#8] = .error (.reservedOpcode 0xFF#8) := by decide
theorem test_decode_bad_length : decode [0x01#8, 0#8, 0#8] = .error (.badLength 3) := by decide
theorem test_decode_too_wide :
    decode [0#8, 0#8, 0#8, 0#8, 0#8, 0#8, 0#8, 0x20#8] = .error (.requestTooWide 0x2000000000000000) := by decide
/-- The lowest byte comes first (R64). -/
theorem test_encode_hwr :
    encode (.hwr 0x00000C#24 0xF#4 0x00000007#32) = [0x07#8, 0#8, 0#8, 0#8, 0xCF#8, 0#8, 0#8, 0x10#8] := by decide

/-! The step fetches what is placed. -/

/-- R24: the first read after reset finds the identification. -/
theorem test_step_reads_id :
    (nextOf (step (State.reset.withFetchWord 64 0))).resp = some ⟨false, 0x49444537#32⟩ := by decide
/-- R254: after reset every command fails with `BadConfig`. -/
theorem test_step_detect_after_reset : (nextOf (step (State.reset.withFetchWord 32 7))).err = .badConfig := by decide
/-- R251: nothing executes until the host writes `CMD`. -/
theorem test_step_reset_waits : step State.reset = .next State.reset := rfl
/-- R225: a reserved opcode completes with code 7. -/
theorem test_step_reserved : (nextOf (step (busyWith 4 4 8))).err = .illegalCommand := by decide

/-! One step of each instruction. -/

/-- R153's example. -/
theorem test_gray_example :
    (nextOf (exec .gray (storing (busyWith 1 1 1) 0x400000 [10, 20, 30]))).sample .gray 0 = 18#8 := by decide
/-- R152: a tie rounds up; weights apply by channel position. -/
theorem test_gray_tie : grayPx Config.defaults 0 0 250 = 29 ∧ grayPx Config.defaults 255 0 0 = 76 := by decide
/-- R157's example and P4 of 95_test_vectors.md: all twelve samples. -/
theorem test_smooth_example :
    samples (nextOf (exec .smooth (storing (busyWith 4 3 2) 0x800000 [0, 100, 200, 255, 10, 50, 90, 130, 255, 0, 255, 0])))
      .smooth 12 = [24, 88, 164, 211, 64, 82, 124, 136, 148, 108, 118, 78] := by decide
/-- S3: an even kernel. -/
theorem test_smooth_even_kernel :
    (nextOf (exec .smooth { busyWith 4 4 2 with ksize := 4 })).statusWord = 0x00000022#32 := by decide
/-- R159's uniform colour, on 3 by 3 with a kernel whose weights sum to 1 (R158). -/
theorem test_preprocess_uniform :
    samples (nextOf (exec .preprocess (storing (busyWith 3 3 3) 0x400000 (List.replicate 9 [200, 100, 50]).flatten)))
      .smooth 9 = List.replicate 9 124 := by decide
/-- R132: `PREPROCESS` with `CHANNELS = 4` and `KSIZE = 4` reports the channels. -/
theorem test_preprocess_error_order :
    (nextOf (exec .preprocess { busyWith 4 4 3 with channels := 4, ksize := 4 })).err = .invalidChannelCount := by decide
/-- R188's field of R185's example image: magnitudes. -/
theorem test_gradient_mag2 :
    (List.range 16).map (fun n => ((nextOf (exec .gradient detect4)).fldMag2At n).toNat) = mag4 := by decide +kernel
/-- The directions. -/
theorem test_gradient_dir :
    (List.range 16).map (fun n => ((nextOf (exec .gradient detect4)).fldDirAt n).toNat) = dir4 := by decide +kernel
/-- R188's example. -/
theorem test_nms_example :
    (List.range 16).map (fun n => ((nextOf (exec .nms (withField (busyWith 4 4 5) mag4 dir4))).nmsMag2At n).toNat) =
      [0, 0, 0, 0, 0, 195400, 190800, 0, 0, 237200, 0, 0, 0, 0, 0, 0] := by decide
/-- R188: `NMS` needs a gradient field. -/
theorem test_nms_sequence : (nextOf (exec .nms (busyWith 4 4 5))).err = .badSequence := by decide
/-- R193's example. -/
theorem test_hyst_example :
    samples (nextOf (exec .hyst (withSuppressed (busyWith 5 5 6) supp5))) .edge 25 =
      [0, 0, 0, 0, 0, 0, 255, 255, 0, 0, 0, 0, 0, 0, 0, 0, 0, 0, 0, 0, 0, 0, 0, 0, 0] := by decide +kernel
/-- R193's example with (3,2) = 3025 added: the chain (2,1), (3,2), (4,1) is promoted whole. -/
theorem test_hyst_chain :
    samples (nextOf (exec .hyst (withSuppressed (busyWith 5 5 6) (supp5.set 13 3025)))) .edge 15 =
      [0, 0, 0, 0, 0, 0, 255, 255, 0, 255, 0, 0, 0, 255, 0] := by decide +kernel
/-- R185's image through `DETECT` with 50, 150: the suppressed pixels of R188's example are all strong. -/
theorem test_detect_example :
    samples (nextOf (exec .detect detect4)) .edge 16 = [0, 0, 0, 0, 0, 255, 255, 0, 0, 255, 0, 0, 0, 0, 0, 0] := by
  decide +kernel
/-- R132: `DETECT` on a 2 by 2 image with `low ≥ high` reports the dimensions. -/
theorem test_detect_error_order :
    (nextOf (exec .detect { busyWith 2 2 7 with threshLow := 100, threshHigh := 50 })).err = .dimensionTooSmall := by
  decide
/-- R111's example. -/
theorem test_hrd_example :
    (nextOf (exec (.hrd 0xA00004#24) (storing State.reset 0xA00004 [255, 255, 0, 0]))).resp =
      some ⟨false, 0x0000FFFF#32⟩ := by decide
/-- R113: a coefficient of -1 reads 0x0000FFFF. -/
theorem test_hrd_coefficient :
    (nextOf (exec (.hrd 0x100#24) { State.reset with kcoef := State.reset.kcoef.set 0 0xFFFF })).resp =
      some ⟨false, 0x0000FFFF#32⟩ := by decide
/-- R112's example. -/
theorem test_hwr_example :
    samples (nextOf (exec (.hwr 0x900000#24 0b0101#4 0xAABBCCDD#32) (storing State.reset 0x900000 [1, 2, 3, 4])))
      .smooth 4 = [0xDD, 2, 0xBB, 4] := by decide
/-- R21: writing 0x00010005 to `KSIZE` stores 5. -/
theorem test_hwr_narrow_field :
    (nextOf (exec (.hwr 0x01C#24 0b1111#4 0x00010005#32) { State.reset with ksize := 3 })).ksize = 5#8 := by decide
/-- R184's examples. -/
theorem test_dir_examples :
    dirOf 5 2 = 0 ∧ dirOf 12 5 = 1 ∧ dirOf 29 12 = 0 ∧ dirOf 12 29 = 2 ∧ dirOf (-3) 3 = 3 ∧ dirOf (-3) (-3) = 1 ∧
      dirOf 0 (-7) = 2 ∧ dirOf 0 0 = 0 := by decide
/-- R250: reset while busy. -/
theorem test_reset_event :
    (nextOf (step { detect4 with done := true, pending := [.reset] })).statusWord = 0 ∧
      (nextOf (step { detect4 with pending := [.reset] })).width = 0 := by decide

/-! Witnesses: for every statement with hypotheses, concrete states and operands that meet them together, one for each
clause, at boundary values where a clause has a range. -/

theorem witness_RequestDecodingReadsEveryField :
    (2 ^ 60 - 1 < 2 ^ 60) ∧ (2 ^ 60 ≤ 2 ^ 60 ∧ 2 ^ 60 < 2 ^ 61) ∧ (2 ^ 61 ≤ 2 ^ 61) := by decide

theorem witness_DecodeEncodeAgree : (Instr.hwr 0xFFFFFF#24 0b1010#4 0x80000001#32).WellFormed = true := by decide

theorem witness_StepRunsTheDecodedInstruction :
    ({ State.reset with pending := [write 0x010#24 9] } : State).pending = Event.host ⟨true, 0x010#24, 0b1111#4, 9⟩ :: [] ∧
    ((busyWith 4 4 7).busy = true ∧ decodeOpcode (busyWith 4 4 7).op = .ok .detect ∧
      ({ busyWith 4 4 7 with pending := [.engine] } : State).pending = .engine :: []) ∧
    ((busyWith 4 4 1).busy = true ∧ decodeOpcode (busyWith 4 4 1).op = .ok .gray ∧ (busyWith 4 4 1).pending = []) :=
  ⟨rfl, by decide, by decide⟩

theorem witness_FetchWordRunsTheInstruction :
    decodeTableWord 32 0xFFFFFF07 = some .detect ∧ decodeTableWord 64 0x0000008_0_00000000 = some (.hrd 0x000008#24) := by
  decide

theorem witness_ReservedOpcodeFails :
    ((busyWith 4 4 0).busy = true ∧ (busyWith 4 4 0).op.toNat = 0 ∧ (busyWith 4 4 0).pending = []) ∧
    ((busyWith 4 4 8).busy = true ∧ 8 ≤ (busyWith 4 4 8).op.toNat ∧
      ({ busyWith 4 4 8 with pending := [.engine] } : State).pending = .engine :: []) ∧
    ((busyWith 4 4 0xFF).busy = true ∧ 8 ≤ (busyWith 4 4 0xFF).op.toNat ∧ (busyWith 4 4 0xFF).pending = []) := by decide

theorem witness_IdleEngineDoesNothing :
    (State.reset.busy = false ∧ State.reset.pending = []) ∧
    ({ State.reset with pending := [.engine] } : State).pending = .engine :: [] ∧
    Instr.format .gray = .cmdw ∧ Instr.format .detect = .cmdw := by decide

theorem witness_ResetEventRestoresRegisters :
    ({ detect4 with ie := true, pending := [.reset, .engine] } : State).pending = .reset :: [.engine] := by decide

theorem witness_MisalignedTransactionsRefused :
    (0x400001#24 : Addr).toNat % 4 ≠ 0 ∧ (0x000002#24 : Addr).toNat % 4 ≠ 0 ∧ (0xFFFFFF#24 : Addr).toNat % 4 ≠ 0 := by
  decide

/-- Legal parameters with the smallest capacity, under which every range of unmapped addresses is inhabited. -/
def smallest : State := { State.reset with cfg := ⟨4, 299, 587, 114⟩ }

theorem witness_UnmappedAddressesRefused :
    smallest.cfg.WellFormed = true ∧ Config.defaults.WellFormed = true ∧
    (0x034 ≤ (0x000034#24 : Addr).toNat ∧ (0x0000FC#24 : Addr).toNat < 0x100) ∧
    (∀ a ∈ [0x11C#24, 0x13C#24, 0x15C#24, 0x17C#24, 0x19C#24, 0x1BC#24, (0x1DC#24 : Addr)],
      0x100 ≤ a.toNat ∧ a.toNat < 0x1E0 ∧ a.toNat / 4 % 8 = 7) ∧
    (0x1E0 ≤ (0x0001E0#24 : Addr).toNat ∧ (0x3FFFFC#24 : Addr).toNat < 0x400000) ∧
    (0x400000 + 3 * smallest.cfg.maxPix ≤ (0x40000C#24 : Addr).toNat ∧ (0x7FFFFC#24 : Addr).toNat < 0x800000) ∧
    (0x800000 + smallest.cfg.maxPix ≤ (0x800004#24 : Addr).toNat ∧ (0x8FFFFC#24 : Addr).toNat < 0x900000) ∧
    (0x900000 + smallest.cfg.maxPix ≤ (0x900004#24 : Addr).toNat ∧ (0x9FFFFC#24 : Addr).toNat < 0xA00000) ∧
    0xA00000 + smallest.cfg.maxPix ≤ (0xA00004#24 : Addr).toNat ∧
    0xA00000 + State.reset.cfg.maxPix ≤ (0xB00000#24 : Addr).toNat := by
  refine ⟨by decide, by decide, by decide, by simp, by decide, ?_, ?_, ?_, ?_, ?_⟩ <;>
    simp [smallest, State.reset, Config.defaults]

/-- The mapped neighbours of those ranges answer, so that no range reaches too far. -/
theorem test_unmapped_ranges_are_tight :
    (∀ a ∈ [0x030#24, 0x100#24, 0x118#24, 0x120#24, 0x1D8#24, 0x400000#24, 0x400008#24, 0x800000#24, 0x900000#24,
      (0xA00000#24 : Addr)], ((nextOf (exec (.hrd a) smallest)).resp.map Response.err) = some false) ∧
    (∀ a ∈ [0x034#24, 0x0FC#24, 0x11C#24, 0x1DC#24, 0x1E0#24, 0x3FFFFC#24, 0x40000C#24, 0x800004#24, 0x900004#24,
      0xA00004#24, (0xFFFFFC#24 : Addr)], ((nextOf (exec (.hrd a) smallest)).resp.map Response.err) = some true) := by
  constructor <;> intro a ha <;> fin_cases ha <;> rfl

theorem witness_PartialRegisterWritesRefused :
    (0b0111#4 : BitVec 4) ≠ 0b1111#4 ∧ (0b0000#4 : BitVec 4) ≠ 0b1111#4 ∧ (0b1110#4 : BitVec 4) ≠ 0b1111#4 := by decide

theorem witness_RegisterReadValues : 6 < 7 ∧ 0 < 7 := by decide

theorem witness_RegisterWriteEffects :
    State.reset.busy = false ∧ (6 < 7 ∧ 0 < 7) ∧ ((6, 1) : Nat × Nat) ≠ (6, 0) := by decide

/-- An unacknowledged completion does not hinder the start. -/
theorem witness_CommandStartEffects :
    State.reset.busy = false ∧ ({ State.reset with done := true, err := .badConfig, ie := true } : State).busy = false := by
  decide

theorem witness_BusyLockoutRefuses :
    detect4.busy = true ∧
    (∀ b ∈ [Buf.input, .gray, .smooth, .edge],
      b.base ≤ (BitVec.ofNat 24 b.base : Addr).toNat ∧
      (BitVec.ofNat 24 (b.base + b.length detect4.cfg - 1) : Addr).toNat < b.base + b.length detect4.cfg) ∧
    (∃ i j, Reg.kcoef 6 0 = .kcoef i j) :=
  ⟨by decide, by decide, 6, 0, rfl⟩

theorem witness_DimensionWritesReturnToRaw :
    ({ busyWith 4 4 4 with pstate := .gradient, pending := [.reset] } : State).pending = .reset :: [] ∧
    ({ State.reset with pstate := .suppressed } : State).busy = false ∧
    (0x900000 ≤ (0x900000#24 : Addr).toNat ∧ (0x9FFFFC#24 : Addr).toNat < 0x900000 + State.reset.cfg.maxPix) := by decide

/-- The first and the last word of each buffer. -/
theorem witness_BufferWordReads :
    State.reset.busy = false ∧
    (∀ p ∈ [(Buf.input, 0x400000#24), (.input, 0x6FFFFC#24), (.gray, 0x800000#24), (.gray, 0x8FFFFC#24),
        (.smooth, 0x900000#24), (.smooth, 0x9FFFFC#24), (.edge, 0xA00000#24), (.edge, (0xAFFFFC#24 : Addr))],
      p.2.toNat % 4 = 0 ∧ p.1.base ≤ p.2.toNat ∧ p.2.toNat < p.1.base + p.1.length State.reset.cfg) := by decide

theorem witness_BufferWordWrites :
    State.reset.busy = false ∧ (0x6FFFFC#24 : Addr).toNat % 4 = 0 ∧ Buf.base .input ≤ (0x6FFFFC#24 : Addr).toNat ∧
    (0x6FFFFC#24 : Addr).toNat < Buf.base .input + Buf.length State.reset.cfg .input ∧
    ((3 < 4 ∧ (0b1000#4 : BitVec 4).getLsbD 3 = true) ∧ (2 < 4 ∧ (0b1000#4 : BitVec 4).getLsbD 2 = false)) ∧
    ¬ ((0x6FFFFC#24 : Addr).toNat ≤ 0x700000 ∧ 0x700000 < (0x6FFFFC#24 : Addr).toNat + 4) := by decide

theorem witness_BusyHostWritesOnlyTouchControl : detect4.busy = true := rfl

theorem witness_GrayResult : (storing (busyWith 1 1 1) 0x400000 [10, 20, 30]).GrayReady := by decide
theorem witness_SmoothResult : (busyWith 4 3 2).SmoothReady := by decide
theorem witness_PreprocessResult :
    (busyWith 3 3 3).PreprocessReady ∧ (busyWith 3 3 3).cfg.WellFormed = true := by decide
theorem witness_GradientResult : (busyWith 3 3 4).GradientReady := by decide
theorem witness_NmsResult : (withField (busyWith 4 4 5) mag4 dir4).NmsReady := by decide
theorem witness_HystResult : (withSuppressed (busyWith 5 5 6) supp5).HystReady := by decide
theorem witness_DetectResult : detect4.DetectReady := by decide

/-- Each clause, at the least value past the check it fails. -/
theorem witness_PreprocessorErrors :
    ((busyWith 0 4 1).busy = true ∧ (busyWith 0 4 1).imgW = 0) ∧ (busyWith 4 0 1).imgH = 0 ∧
    (busyWith 1025 1024 1).cfg.maxPix < (busyWith 1025 1024 1).imgW * (busyWith 1025 1024 1).imgH ∧
    (({ busyWith 4 4 1 with channels := 4 } : State).FitsBuffers ∧ ({ busyWith 4 4 1 with channels := 4 } : State).channels ≠ 3) ∧
    ((busyWith 8 8 2).FitsBuffers ∧ (busyWith 8 8 2).channels = 3) ∧
    ({ busyWith 8 8 2 with ksize := 4 } : State).ksize.toNat % 2 = 0 ∧ ({ busyWith 8 8 2 with ksize := 1 } : State).ksize.toNat < 3 ∧
    7 < ({ busyWith 8 8 2 with ksize := 9 } : State).ksize.toNat ∧
    ((busyWith 2 3 2).FitsBuffers ∧ (busyWith 2 3 2).imgW < (busyWith 2 3 2).ksize.toNat) ∧
    ((busyWith 3 2 2).FitsBuffers ∧ (busyWith 3 2 2).imgH < (busyWith 3 2 2).ksize.toNat) := by decide

theorem witness_EdgeDetectorErrors :
    ((busyWith 0 4 7).busy = true ∧ (busyWith 0 4 7).imgW = 0) ∧ (busyWith 4 0 7).imgH = 0 ∧
    (busyWith 1025 1024 7).cfg.maxPix < (busyWith 1025 1024 7).imgW * (busyWith 1025 1024 7).imgH ∧
    ((busyWith 2 3 4).FitsBuffers ∧ (busyWith 2 3 4).imgW < 3) ∧ ((busyWith 3 2 7).FitsBuffers ∧ (busyWith 3 2 7).imgH < 3) ∧
    ((busyWith 3 3 5).FitsBuffers ∧ (busyWith 3 3 5).pstate ≠ .gradient ∧ (busyWith 3 3 6).pstate ≠ .suppressed) ∧
    (let s : State := { withSuppressed (busyWith 5 5 6) supp5 with threshLow := 150, threshHigh := 150 };
      s.FitsBuffers ∧ s.pstate = .suppressed ∧ s.threshHigh.toNat ≤ s.threshLow.toNat) ∧
    (let s : State := { busyWith 3 3 7 with threshLow := 0, threshHigh := 0 };
      s.FitsBuffers ∧ ¬ (s.imgW < 3 ∨ s.imgH < 3) ∧ s.threshHigh.toNat ≤ s.threshLow.toNat) := by decide

theorem witness_PreprocessIsGrayThenSmooth :
    let s : State := { busyWith 3 3 0 with busy := false }
    s.busy = false ∧ s.FitsBuffers ∧ s.channels = 3 ∧ s.KernelFits := by decide

theorem witness_DetectIsItsThreeStages :
    let s : State := { detect4 with busy := false }
    s.busy = false ∧ s.FitsBuffers ∧ s.AtLeast3x3 ∧ s.ThresholdsRise := by decide

theorem witness_DetectIsIdempotent : detect4.DetectReady ∧ detect4.cfg.WellFormed = true := by decide

/-- Two states that differ in the opcode, the interrupt enable, the kernel, the stage and another buffer. -/
theorem witness_DetectDependsOnlyOnItsInput :
    let u : State := { detect4 with
      ie := true, op := 0, ksize := 5, pstate := .suppressed, mem := (0x800000, 7#8) :: detect4.mem }
    detect4.DetectReady ∧ u.DetectReady ∧ detect4.width = u.width ∧ detect4.height = u.height ∧
    detect4.threshLow = u.threshLow ∧ detect4.threshHigh = u.threshHigh ∧
    ∀ n < detect4.imgW * detect4.imgH, detect4.sample .smooth n = u.sample .smooth n := by
  refine ⟨by decide, by decide, rfl, rfl, rfl, rfl, fun n _ => ?_⟩
  unfold State.sample State.byte
  rw [sparseFind_cons, if_neg (by simp only [Buf.base]; omega)]

/-- Two transactions while `DETECT` is in execution. -/
def busyTraffic : List Request := [⟨false, 0x008#24, 0#4, 0#32⟩, ⟨true, 0x004#24, 0b1111#4, 1#32⟩]

theorem witness_CommandsCompleteUnderAnyTraffic :
    let s : State := { detect4 with pending := busyTraffic.map Event.host }
    s.busy = true ∧ s.pending = busyTraffic.map Event.host := by decide

theorem witness_TrafficDoesNotChangeResults :
    let s : State := { detect4 with pending := busyTraffic.map Event.host }
    s.busy = true ∧ s.pending = busyTraffic.map Event.host ∧ busyTraffic ≠ [] := by decide

theorem witness_StepKeepsStatusInvariant :
    detect4.StatusOk ∧ detect4.busy = true ∧ ∃ t, step detect4 = .next t :=
  ⟨fun _ => ⟨rfl, rfl⟩, rfl, _, rfl⟩

/-- The storage invariant holds of a state with bytes and field entries listed. -/
theorem witness_StepKeepsStorageInvariant :
    let s : State := { withField detect4 mag4 dir4 with mem := detect4.mem }
    s.StorageOk ∧ s.mem ≠ [] ∧ s.fldMag2 ≠ [] ∧ ∃ t, step s = .next t := by
  refine ⟨⟨by decide, by decide, by decide, by decide, by decide, ?_, by decide, by decide, by decide⟩, by decide,
    by decide, _, rfl⟩
  have h : ∀ c ∈ detect4.mem, Buf.holds detect4.cfg .smooth c.1 = true := by decide
  exact fun c hc => ⟨.smooth, h c hc⟩

/-- R188's example field, and the suppression that R188 gives of it. -/
def field4 : State := withField (busyWith 4 4 5) mag4 dir4

/-- The suppressed example, under a stage state. -/
def suppressed4 (p : PState) : State :=
  { field4 with
    nmsMag2 := [0, 0, 0, 0, 0, 195400, 190800, 0, 0, 237200, 0, 0, 0, 0, 0, 0].mapIdx fun n v => (n, BitVec.ofNat 32 v)
    pstate := p }

/-- R188's field is the gradient field of R185's image. -/
theorem test_field4_gradient : GradientFieldOf detect4 field4 := by
  have h : ∀ x < 4, ∀ y < 4,
      ((field4.fldMag2At (y * 4 + x)).toNat : Int) = detect4.sobelGx x y ^ 2 + detect4.sobelGy x y ^ 2 ∧
      field4.fldDirAt (y * 4 + x) = sectorOf (detect4.sobelGx x y) (detect4.sobelGy x y) := by decide +kernel
  exact fun x y hx hy => h x hx y hy

/-- R188's output is the suppression of that field. -/
theorem test_field4_suppressed (p : PState) : SuppressedFieldOf (suppressed4 p) (suppressed4 p) := by
  have e : ∀ n < 16, (suppressed4 p).nmsMag2At n = field4.suppressStage.nmsMag2At n := by
    intro n hn
    have h : ∀ n < 16, (suppressed4 .suppressed).nmsMag2At n = field4.suppressStage.nmsMag2At n := by decide +kernel
    exact h n hn
  intro x y hx hy
  have h := suppressStage_field field4 x y hx hy
  rw [← e _ (show y * field4.imgW + x < 4 * 4 from pixelIndex_lt hx hy)] at h
  exact h

theorem test_field4_written (p : PState) : (suppressed4 p).HasField ∧ field4.HasField := by
  have h : ∀ n < 16, ((sparseFind field4.fldMag2 n).any fun m => decide (m.toNat ≤ 2080800)) = true ∧
      (sparseFind field4.fldDir n).isSome = true := by decide
  have hw : ∀ n < 16, ∃ m d, sparseFind field4.fldMag2 n = some m ∧ m.toNat ≤ 2080800 ∧
      sparseFind field4.fldDir n = some d := by
    intro n hn
    obtain ⟨h1, h2⟩ := h n hn
    obtain ⟨m, hm, hle⟩ := Option.any_eq_true _ _ |>.1 h1
    obtain ⟨d, hd⟩ := Option.isSome_iff_exists.1 h2
    exact ⟨m, d, hm, by simpa using hle, hd⟩
  have hf : field4.HasField := ⟨by decide, by decide, hw, detect4, rfl, rfl, test_field4_gradient⟩
  exact ⟨hf, hf⟩

theorem test_suppressed4_written (p : PState) : (suppressed4 p).HasSuppressed := by
  refine ⟨(test_field4_written p).1, fun n hn => ?_, test_field4_suppressed p⟩
  have h : ∀ n < 16, (sparseFind (suppressed4 .suppressed).nmsMag2 n).isSome = true := by decide
  exact Option.isSome_iff_exists.1 (h n hn)

/-- Under each stage state of which the field invariant says something: R188's field, which `NMS` then suppresses, and
its suppression, whose edge map `HYST` then makes. -/
theorem witness_StepKeepsFieldInvariant :
    (field4.FieldsOk ∧ field4.pstate = .gradient ∧ ∃ t, step field4 = .next t) ∧
    ((suppressed4 .suppressed).FieldsOk ∧ (suppressed4 .suppressed).pstate = .suppressed ∧
      ∃ t, step { suppressed4 .suppressed with op := 6 } = .next t) ∧
    ((suppressed4 .thresholded).FieldsOk ∧ (suppressed4 .thresholded).pstate = .thresholded ∧
      ∃ t, step (suppressed4 .thresholded) = .next t) := by
  refine ⟨⟨⟨fun _ => (test_field4_written .raw).2, fun h => ?_⟩, rfl, _, rfl⟩,
    ⟨⟨nofun, fun _ => test_suppressed4_written _⟩, rfl, _, rfl⟩,
    ⟨⟨nofun, fun _ => test_suppressed4_written _⟩, rfl, _, rfl⟩⟩
  rcases h with h | h <;> cases h

theorem witness_ParametersNeverChange : ∃ t, step detect4 = .next t := ⟨_, rfl⟩

/-- Each way the stage changes: reset, a dimension write, and the four commands. -/
theorem witness_OnlyTheseEventsChangeTheStage :
    (let s : State := { withField State.reset mag4 dir4 with pending := [.reset] };
      (nextOf (step s)).pstate ≠ s.pstate ∧ s.nextEvent.1 = .reset) ∧
    (let s : State := { withField State.reset mag4 dir4 with pending := [write 0x010#24 4] };
      (nextOf (step s)).pstate ≠ s.pstate) ∧
    (nextOf (step { detect4 with op := 4 })).pstate ≠ detect4.pstate ∧
    (nextOf (step (withField (busyWith 4 4 5) mag4 dir4))).pstate ≠ .gradient ∧
    (nextOf (step (withSuppressed (busyWith 5 5 6) supp5))).pstate ≠ .suppressed ∧
    (nextOf (step detect4)).pstate ≠ detect4.pstate := by
  refine ⟨⟨by decide, rfl⟩, by decide, by decide, by decide, by decide, by decide⟩

/-- A step that changes a configuration register, one that changes a coefficient, a reset, and one that changes none. -/
theorem witness_ConfigurationChangesOnlyByHostOrReset :
    (nextOf (step { State.reset with pending := [write 0x024#24 7] })).threshLow ≠ State.reset.threshLow ∧
    (nextOf (step { State.reset with pending := [write 0x1D8#24 7] })).kcoefBits 6 6 ≠ State.reset.kcoefBits 6 6 ∧
    (0x1D8#24 : Addr).toNat = 0x100 + 4 * (8 * 6 + 6) ∧
    (nextOf (step { detect4 with pending := [.reset] })).width ≠ detect4.width ∧
    ∃ t, step detect4 = .next t := ⟨by decide, by decide, by decide, by decide, _, rfl⟩

/-- A start, a completion, a reset while busy. -/
theorem witness_OnlyCompletionEndsACommand :
    (nextOf (step { State.reset with pending := [hostCommand 7] })).busy = true ∧
    ((nextOf (step detect4)).busy = false ∧ (nextOf (step detect4)).done = true ∧ detect4.done = false) ∧
    (nextOf (step { detect4 with pending := [.reset] })).busy = false := by decide

/-- A command whose byte changes, and one whose field entries change. -/
theorem witness_CommandsTouchOnlyTheirOutputs :
    Instr.format .gray = .cmdw ∧ Instr.format .detect = .cmdw ∧
    (let s : State := { busyWith 1 1 1 with mem := [(0x400000, 9#8), (0x400001, 9#8), (0x400002, 9#8), (0x800000, 0#8)] };
      (nextOf (exec .gray s)).byte 0x800000 ≠ s.byte 0x800000) ∧
    (let s : State := withField detect4 (List.replicate 16 1) (List.replicate 16 0);
      (nextOf (exec .gradient s)).fldMag2At 5 ≠ s.fldMag2At 5) ∧
    (let s : State := { withField (busyWith 4 4 5) mag4 dir4 with nmsMag2 := [(5, 7)] };
      (nextOf (exec .nms s)).nmsMag2At 5 ≠ s.nmsMag2At 5) := by decide

theorem witness_InterruptFollowsCompletion :
    (detect4.busy = true ∧ detect4.pending = []) ∧ (0x00000002#32 : Word).getLsbD 1 = true ∧ State.reset.busy = false ∧
    (0x00000001#32 : Word).getLsbD 0 = true := by decide

theorem witness_GreyRoundsToNearest : Config.defaults.WellFormed = true ∧ 255 ≤ 255 ∧ 0 ≤ 255 := by decide

/-- R157's kernel over R157's image at a corner: the weights are not negative and sum to 2^4; the neighbourhood's samples
lie between 0 and 100. -/
theorem witness_NormalisedKernelStaysBetweenNeighbours :
    let s : State := storing (busyWith 4 3 2) 0x800000 [0, 100, 200, 255, 10, 50, 90, 130, 255, 0, 255, 0]
    s.SmoothReady ∧ 0 < s.imgW ∧ 0 < s.imgH ∧ (∀ i < s.ksize.toNat, ∀ j < s.ksize.toNat, 0 ≤ s.coef i j) ∧
    ∑ i ∈ Finset.range s.ksize.toNat, ∑ j ∈ Finset.range s.ksize.toNat, s.coef i j = 2 ^ s.kshift.toNat ∧
    ∀ i < s.ksize.toNat, ∀ j < s.ksize.toNat,
      ((0 : Nat) : Int) ≤ s.replicated .gray (((0 : Nat) : Int) + j - (s.ksize.toNat - 1) / 2)
        (((0 : Nat) : Int) + i - (s.ksize.toNat - 1) / 2) ∧
      s.replicated .gray (((0 : Nat) : Int) + j - (s.ksize.toNat - 1) / 2)
        (((0 : Nat) : Int) + i - (s.ksize.toNat - 1) / 2) ≤ ((100 : Nat) : Int) := by decide

theorem witness_GradientStaysInRange : (∀ n : Nat, (fun n => n % 256) n ≤ 255) ∧ ∀ n : Nat, (fun _ => 255) n = 255 :=
  ⟨fun n => Nat.lt_succ_iff.1 (Nat.mod_lt n (by decide)), fun _ => rfl⟩

theorem witness_ConstantImageHasNoEdges :
    let s : State := storing (busyWith 3 3 7) 0x900000 (List.replicate 9 124)
    s.DetectReady ∧ ∀ n < s.imgW * s.imgH, s.sample .smooth n = 124#8 := by decide

theorem witness_DirectionIsTheSectorOfTheAngle : ¬ ((12 : Int) = 0 ∧ (5 : Int) = 0) := by decide

theorem witness_SuppressionNeverAmplifies :
    (withField (busyWith 4 4 5) mag4 dir4).NmsReady ∧ (1 < 4 ∧ 1 < 4) ∧ (3 + 1 = (busyWith 4 4 5).imgW) := by decide

/-- A pixel below `low`, and one that reaches `high`. -/
theorem witness_EdgeMapIsBinaryAndAboveLow :
    let s : State := withSuppressed (busyWith 5 5 6) supp5
    s.HystReady ∧ (24 < s.imgW * s.imgH ∧ (s.nmsMag2At 24).toNat < s.threshLow.toNat ^ 2) ∧
    (6 < s.imgW * s.imgH ∧ s.threshHigh.toNat ^ 2 ≤ (s.nmsMag2At 6).toNat) := by decide

end Sys2Proof.Machine.Tests
end

/-! The inversion of a step in one relation, the fields after a register write, and what a command leaves unchanged:
the layer from which the statements about the state (spec file 10_state.md) follow by cases. -/

namespace Sys2Proof.Machine

/-! A step, by what its event does. -/

/-- All an event can do to a state `u`, with the conditions under which it does it (R111, R112, R133, R250). -/
inductive EventResult (u : State) : Event → State → Prop where
  /-- A transaction only answers. -/
  | answered {r : Request} (e : Bool) (d : Word) : EventResult u (.host r) (u.respond e d)
  /-- An aligned word of a buffer is written while idle. -/
  | wroteWord {r : Request} (b : Buf) (n : Nat) : r.we = true → u.busy = false → b.base + n = r.addr.toNat →
      n < b.length u.cfg → r.addr.toNat % 4 = 0 →
      EventResult u (.host r) (u.writeWord r.addr.toNat r.be r.wdata).accept
  /-- A register that is not locked is written. -/
  | wroteRegister {r : Request} (g : Reg) : r.we = true → r.addr.toNat = g.addr →
      ¬ (u.busy = true ∧ g.locked = true) → EventResult u (.host r) (u.regWrite g r.wdata).accept
  /-- The idle engine does nothing. -/
  | idled : u.busy = false → EventResult u .engine u
  /-- The command in execution fails. -/
  | failed (e : ErrCode) : u.busy = true → EventResult u .engine (u.failCommand e)
  /-- The command in execution succeeds. -/
  | succeeded {i : Instr} {c : State → Option ErrCode} {f : State → State} : u.busy = true → CommandIs u.op i c f →
      c u = none → EventResult u .engine (f u).succeedCommand
  /-- The core is reset. -/
  | wasReset : EventResult u .reset u.resetEvent

theorem eventResult_host {r : Request} {u t : State} (h : exec (decodeRequest r) u = .next t) :
    EventResult u (.host r) t := by
  rcases request_cases h with ⟨e, d, rfl⟩ | ⟨hw, hb, b, n, ha, hn, h4, rfl⟩ | ⟨hw, g, ha, hl, rfl⟩
  · exact .answered e d
  · exact .wroteWord b n hw hb ha hn h4
  · exact .wroteRegister g hw ha hl

theorem eventResult_engine {u t : State} (h : engineTurn u = .next t) : EventResult u .engine t := by
  rcases engineTurn_next h with ⟨hb, rfl⟩ | ⟨hb, e, rfl⟩ | ⟨hb, i, c, f, hc, hn, rfl⟩
  · exact .idled hb
  · exact .failed e hb
  · exact .succeeded hb hc hn

/-- A step is the result of its event on the state less that event. -/
theorem step_eventResult {s t : State} (h : step s = .next t) :
    ∃ p, EventResult { s with pending := p } s.nextEvent.1 t := by
  rcases step_event h with ⟨r, rest, _, he, hx⟩ | ⟨p, he, hx⟩ | ⟨p, he, rfl⟩ <;> rw [he]
  · exact ⟨rest, eventResult_host hx⟩
  · exact ⟨p, eventResult_engine hx⟩
  · exact ⟨p, .wasReset⟩

/-- What taking an event keeps and every result of an event keeps, every step keeps. -/
theorem step_preserves {P : State → Prop} (hp : ∀ s p, P s → P { s with pending := p })
    (he : ∀ u e t, P u → EventResult u e t → P t) (s t : State) (hs : P s) (h : step s = .next t) : P t := by
  obtain ⟨p, hr⟩ := step_eventResult h
  exact he _ _ _ (hp s p hs) hr

theorem exec_isNext (i : Instr) (s : State) : ∃ t, exec i s = .next t := by
  cases i <;> exact ⟨_, rfl⟩

/-- The engine's turn has a result, and none but those of `EventResult`. -/
theorem engineTurn_eventResult (s : State) : ∃ t, engineTurn s = .next t ∧ EventResult s .engine t := by
  have hnext : ∃ t, engineTurn s = .next t := by
    rcases engineTurn_cases s with ⟨_, he⟩ | ⟨_, i, _, he⟩ | ⟨_, _, he⟩
    · exact ⟨_, he⟩
    · rw [he]; exact exec_isNext i s
    · exact ⟨_, he⟩
  obtain ⟨t, ht⟩ := hnext
  exact ⟨t, ht, eventResult_engine ht⟩

/-! The fields after a register write (R118). -/

section
variable (s : State) (g : Reg) (d : Word)

/-- A register write, all of it: which field it writes, by its register. -/
theorem regWrite_eq :
    s.regWrite g d = { s with
      ie := if g = .ctrl then d.getLsbD 0 else s.ie
      op := if g = .cmd then d.setWidth 8 else s.op
      busy := if g = .cmd then true else s.busy
      done := if g = .cmd ∨ (g = .status ∧ d.getLsbD 1 = true) then false else s.done
      err := if g = .cmd then .none else s.err
      pstate := if g = .width ∨ g = .height then .raw else s.pstate
      width := if g = .width then d.setWidth 16 else s.width
      height := if g = .height then d.setWidth 16 else s.height
      channels := if g = .channels then d.setWidth 8 else s.channels
      ksize := if g = .ksize then d.setWidth 8 else s.ksize
      kshift := if g = .kshift then d.setWidth 5 else s.kshift
      threshLow := if g = .threshLow then d.setWidth 16 else s.threshLow
      threshHigh := if g = .threshHigh then d.setWidth 16 else s.threshHigh
      kcoef := (s.regWrite g d).kcoef } := by
  cases g with
  | status =>
    cases hd : d.getLsbD 1 with
    | true => simp only [State.regWrite, hd]; rfl
    | false => simp only [State.regWrite, hd]; rfl
  | _ => rfl

@[simp] theorem State.regWrite_cfg : (s.regWrite g d).cfg = s.cfg := by rw [regWrite_eq]
@[simp] theorem State.regWrite_ie : (s.regWrite g d).ie = if g = .ctrl then d.getLsbD 0 else s.ie := by rw [regWrite_eq]
@[simp] theorem State.regWrite_busy : (s.regWrite g d).busy = if g = .cmd then true else s.busy := by rw [regWrite_eq]
@[simp] theorem State.regWrite_done :
    (s.regWrite g d).done = if g = .cmd ∨ (g = .status ∧ d.getLsbD 1 = true) then false else s.done := by rw [regWrite_eq]
@[simp] theorem State.regWrite_err : (s.regWrite g d).err = if g = .cmd then .none else s.err := by rw [regWrite_eq]
@[simp] theorem State.regWrite_pstate :
    (s.regWrite g d).pstate = if g = .width ∨ g = .height then .raw else s.pstate := by rw [regWrite_eq]
@[simp] theorem State.regWrite_width :
    (s.regWrite g d).width = if g = .width then d.setWidth 16 else s.width := by rw [regWrite_eq]
@[simp] theorem State.regWrite_height :
    (s.regWrite g d).height = if g = .height then d.setWidth 16 else s.height := by rw [regWrite_eq]
@[simp] theorem State.regWrite_channels :
    (s.regWrite g d).channels = if g = .channels then d.setWidth 8 else s.channels := by rw [regWrite_eq]
@[simp] theorem State.regWrite_ksize :
    (s.regWrite g d).ksize = if g = .ksize then d.setWidth 8 else s.ksize := by rw [regWrite_eq]
@[simp] theorem State.regWrite_kshift :
    (s.regWrite g d).kshift = if g = .kshift then d.setWidth 5 else s.kshift := by rw [regWrite_eq]
@[simp] theorem State.regWrite_threshLow :
    (s.regWrite g d).threshLow = if g = .threshLow then d.setWidth 16 else s.threshLow := by rw [regWrite_eq]
@[simp] theorem State.regWrite_threshHigh :
    (s.regWrite g d).threshHigh = if g = .threshHigh then d.setWidth 16 else s.threshHigh := by rw [regWrite_eq]
@[simp] theorem State.regWrite_mem : (s.regWrite g d).mem = s.mem := by rw [regWrite_eq]
@[simp] theorem State.regWrite_fldMag2 : (s.regWrite g d).fldMag2 = s.fldMag2 := by rw [regWrite_eq]
@[simp] theorem State.regWrite_fldDir : (s.regWrite g d).fldDir = s.fldDir := by rw [regWrite_eq]
@[simp] theorem State.regWrite_nmsMag2 : (s.regWrite g d).nmsMag2 = s.nmsMag2 := by rw [regWrite_eq]
@[simp] theorem State.regWrite_epoch : (s.regWrite g d).epoch = s.epoch := by rw [regWrite_eq]

/-- The coefficients change by a write of a coefficient's register only (R33). -/
theorem regWrite_kcoef (h : ∀ i j, g ≠ .kcoef i j) : (s.regWrite g d).kcoef = s.kcoef := by
  cases g with
  | kcoef i j => exact absurd rfl (h i j)
  | status => simp only [State.regWrite]; split <;> rfl
  | _ => rfl

end

/-- Two coefficients of the 7 by 7 file stand at different positions (R33). -/
theorem kcoefIndex_inj {i j k l : Nat} (hj : j < 7) (hl : l < 7) (h : kcoefIndex i j = kcoefIndex k l) :
    i = k ∧ j = l := by
  unfold kcoefIndex at h
  omega

/-- A write of one coefficient leaves every other as it was (R33, R118). -/
theorem regWrite_kcoefBits_other {s : State} {a b : Fin 7} {d : Word} {i j : Nat} (hj : j < 7)
    (h : ¬ (a.val = i ∧ b.val = j)) : (s.regWrite (.kcoef a b) d).kcoefBits i j = s.kcoefBits i j := by
  have hne : kcoefIndex a.val b.val ≠ kcoefIndex i j := fun he => h (kcoefIndex_inj b.isLt hj he)
  simp [State.regWrite, State.kcoefBits, hne]

/-- A coefficient changes by a write of its own register only. -/
theorem kcoef_of_regWrite_ne {s : State} {g : Reg} {d : Word} {i j : Nat} (hj : j < 7)
    (h : (s.regWrite g d).kcoefBits i j ≠ s.kcoefBits i j) : ∃ a b : Fin 7, g = .kcoef a b ∧ a.val = i ∧ b.val = j := by
  by_cases hg : ∃ a b, g = .kcoef a b
  · obtain ⟨a, b, rfl⟩ := hg
    exact ⟨a, b, rfl, by_contra fun hab => h (regWrite_kcoefBits_other hj hab)⟩
  · push Not at hg
    exact absurd (by unfold State.kcoefBits; rw [regWrite_kcoef s g d hg]) h

/-! What a command leaves unchanged, and what the field stages write. -/

section
variable {op : BitVec 8} {i : Instr} {c : State → Option ErrCode} {f : State → State}

/-- A command's effect writes the stage state and its output buffers and fields, nothing else (R93, R138). -/
theorem command_frame (h : CommandIs op i c f) (s : State) :
    f s = { s with
      pstate := (f s).pstate, mem := (f s).mem
      fldMag2 := (f s).fldMag2, fldDir := (f s).fldDir, nmsMag2 := (f s).nmsMag2 } := by
  cases h <;> rfl

theorem command_cfg (h : CommandIs op i c f) (s : State) : (f s).cfg = s.cfg := by rw [command_frame h s]

theorem command_ie (h : CommandIs op i c f) (s : State) : (f s).ie = s.ie := by rw [command_frame h s]

end

end Sys2Proof.Machine

/-! The storage invariant (R36, R37): every store stays in canonical form and lists only elements that exist. -/

namespace Sys2Proof.Machine

/-! Stores that list only elements that exist. -/

/-- The store is in canonical form, and the index of every element it lists exists. -/
def ListsOnly {α : Type} (ok : Nat → Prop) (m : Sparse α) : Prop := sparseWf m = true ∧ ∀ c ∈ m, ok c.1

section
variable {α : Type} {ok : Nat → Prop}

theorem listsOnly_nil : ListsOnly ok ([] : Sparse α) := ⟨rfl, nofun⟩

theorem listsOnly_fill {m : Sparse α} {base n : Nat} {f : Nat → α} (h : ListsOnly ok m)
    (hok : ∀ k < n, ok (base + k)) : ListsOnly ok (sparseFill m base n f) := by
  refine ⟨sparseWf_fill h.1, fun c hc => ?_⟩
  rcases mem_sparseFill hc with ⟨k, hk, rfl⟩ | hc
  · exact hok k hk
  · exact h.2 c hc

/-- Filling the first `n ≤ max` entries of a field (R37). -/
theorem listsOnly_fillField {m : Sparse α} {max n : Nat} {f : Nat → α} (h : ListsOnly (· < max) m) (hn : n ≤ max) :
    ListsOnly (· < max) (sparseFill m 0 n f) :=
  listsOnly_fill h fun k hk => by omega

theorem listsOnly_writeLanes {be : BitVec 4} {d : Word} {a n : Nat} {m : Memory} (h : ListsOnly ok m)
    (hok : ∀ k < n, ok (a + k)) : ListsOnly ok (writeLanes be d a n m) := by
  refine ⟨Memory_wf_writeLanes h.1, fun c hc => ?_⟩
  rcases mem_writeLanes hc with ⟨k, hk, he⟩ | hc
  · rw [he]; exact hok k hk
  · exact h.2 c hc

end

/-- The address is a byte of one of the four buffers (R63). -/
def InSomeBuffer (cfg : Config.Params) (a : Nat) : Prop := ∃ b : Buf, b.holds cfg a = true

theorem inSomeBuffer_of_lt {cfg : Config.Params} {b : Buf} {n : Nat} (h : n < b.length cfg) :
    InSomeBuffer cfg (b.base + n) :=
  ⟨b, by simp [Buf.holds, h]⟩

theorem maxPix_le_length (cfg : Config.Params) (b : Buf) : cfg.maxPix ≤ b.length cfg := by
  cases b <;> simp only [Buf.length] <;> omega

theorem base_mod_four (b : Buf) : b.base % 4 = 0 := by cases b <;> rfl

/-- R7: with a legal `MAXPIX` every buffer is a whole number of words. -/
theorem length_mod_four {cfg : Config.Params} (h : cfg.WellFormed = true) (b : Buf) : b.length cfg % 4 = 0 := by
  have h4 : cfg.maxPix % 4 = 0 := by
    simp only [Config.Params.WellFormed, Config.Params.capacityAligned, Bool.and_eq_true, beq_iff_eq] at h
    exact h.1.1
  cases b <;> simp only [Buf.length] <;> omega

/-- The storage invariant, store by store. -/
theorem storageOk_iff {s : State} :
    s.StorageOk ↔ s.cfg.WellFormed = true ∧ ListsOnly (InSomeBuffer s.cfg) s.mem ∧
      ListsOnly (· < s.cfg.maxPix) s.fldMag2 ∧ ListsOnly (· < s.cfg.maxPix) s.fldDir ∧
      ListsOnly (· < s.cfg.maxPix) s.nmsMag2 := by
  simp only [State.StorageOk, ListsOnly, InSomeBuffer, Memory.wf]
  tauto

/-! What keeps the storage invariant. -/

/-- The invariant speaks of the parameters and the stores only. -/
theorem storageOk_congr {s t : State} (hc : t.cfg = s.cfg) (hm : t.mem = s.mem) (h2 : t.fldMag2 = s.fldMag2)
    (hd : t.fldDir = s.fldDir) (hn : t.nmsMag2 = s.nmsMag2) (h : s.StorageOk) : t.StorageOk := by
  rw [storageOk_iff] at h ⊢
  rw [hc, hm, h2, hd, hn]
  exact h

theorem storageOk_withMem {s : State} {m : Memory} (h : s.StorageOk) (hm : ListsOnly (InSomeBuffer s.cfg) m) :
    State.StorageOk { s with mem := m } := by
  obtain ⟨hc, _, hf⟩ := storageOk_iff.1 h
  exact storageOk_iff.2 ⟨hc, hm, hf⟩

/-- Filling the first `n ≤ MAXPIX` bytes of a buffer (R71, R226). -/
theorem storageOk_fillBuf {s : State} (b : Buf) {n : Nat} {f : Nat → Byte} (h : s.StorageOk) (hn : n ≤ s.cfg.maxPix) :
    State.StorageOk { s with mem := sparseFill s.mem b.base n f } := by
  obtain ⟨_, hm, _⟩ := storageOk_iff.1 h
  have hl := maxPix_le_length s.cfg b
  exact storageOk_withMem h (listsOnly_fill hm fun k hk => inSomeBuffer_of_lt (by omega))

theorem grayStage_storageOk {s : State} (h : s.StorageOk) (hn : s.pixels ≤ s.cfg.maxPix) : s.grayStage.StorageOk :=
  storageOk_fillBuf .gray h hn

theorem smoothStage_storageOk {s : State} (h : s.StorageOk) (hn : s.pixels ≤ s.cfg.maxPix) :
    s.smoothStage.StorageOk :=
  storageOk_fillBuf .smooth h hn

theorem thresholdStage_storageOk {s : State} (h : s.StorageOk) (hn : s.pixels ≤ s.cfg.maxPix) :
    s.thresholdStage.StorageOk :=
  storageOk_fillBuf .edge h hn

theorem gradientStage_storageOk {s : State} (h : s.StorageOk) (hn : s.pixels ≤ s.cfg.maxPix) :
    s.gradientStage.StorageOk := by
  obtain ⟨hc, hm, h2, hd, hq⟩ := storageOk_iff.1 h
  exact storageOk_iff.2 ⟨hc, hm, listsOnly_fillField h2 hn, listsOnly_fillField hd hn, hq⟩

theorem suppressStage_storageOk {s : State} (h : s.StorageOk) (hn : s.pixels ≤ s.cfg.maxPix) :
    s.suppressStage.StorageOk := by
  obtain ⟨hc, hm, h2, hd, hq⟩ := storageOk_iff.1 h
  exact storageOk_iff.2 ⟨hc, hm, h2, hd, listsOnly_fillField hq hn⟩

/-- The four lanes of an aligned word of a buffer are bytes of it (R64, R65). -/
theorem writeWord_storageOk {s : State} {b : Buf} {n a : Nat} {be : BitVec 4} {d : Word} (h : s.StorageOk)
    (ha : b.base + n = a) (hn : n < b.length s.cfg) (h4 : a % 4 = 0) : (s.writeWord a be d).StorageOk := by
  obtain ⟨hc, hm, _⟩ := storageOk_iff.1 h
  have hb := base_mod_four b
  have hl := length_mod_four hc b
  refine storageOk_withMem h (listsOnly_writeLanes hm fun k hk => ?_)
  rw [← ha, Nat.add_assoc]
  exact inSomeBuffer_of_lt (by omega)

/-- The effect of a command whose checks pass keeps the storage invariant: `N` is at most `MAXPIX` (R132 check 2). -/
theorem command_storageOk {op : BitVec 8} {i : Instr} {c : State → Option ErrCode} {f : State → State} {s : State}
    (hf : CommandIs op i c f) (hc : c s = none) (h : s.StorageOk) : (f s).StorageOk := by
  have hn : s.pixels ≤ s.cfg.maxPix := (fitsBuffers_of_checks hf hc).2.2
  cases hf with
  | gray => exact grayStage_storageOk h hn
  | smooth => exact smoothStage_storageOk h hn
  | preprocess => exact smoothStage_storageOk (grayStage_storageOk h hn) hn
  | gradient => exact gradientStage_storageOk h hn
  | nms => exact suppressStage_storageOk h hn
  | hyst => exact thresholdStage_storageOk h hn
  | detect => exact thresholdStage_storageOk (suppressStage_storageOk (gradientStage_storageOk h hn) hn) hn

theorem resetEvent_storageOk {s : State} (h : s.StorageOk) : s.resetEvent.StorageOk :=
  storageOk_iff.2 ⟨(storageOk_iff.1 h).1, listsOnly_nil, listsOnly_nil, listsOnly_nil, listsOnly_nil⟩

theorem eventResult_storageOk {u : State} {e : Event} {t : State} (h : u.StorageOk) (hr : EventResult u e t) :
    t.StorageOk := by
  cases hr with
  | answered => exact h
  | wroteWord b n _ _ ha hn h4 => exact writeWord_storageOk h ha hn h4
  | wroteRegister g =>
    exact storageOk_congr (State.regWrite_cfg ..) (State.regWrite_mem ..) (State.regWrite_fldMag2 ..)
      (State.regWrite_fldDir ..) (State.regWrite_nmsMag2 ..) h
  | idled => exact h
  | failed => exact h
  | succeeded _ hf hc =>
    have hok := command_storageOk hf hc h
    exact hok
  | wasReset => exact resetEvent_storageOk h

/-- Settles O42, by cases on the event: a fill stays below `N ≤ MAXPIX`, a word write inside a buffer that is a whole
number of words. -/
theorem stepKeepsStorageInvariant : Obligations.StepKeepsStorageInvariant :=
  step_preserves (fun _ _ h => h) fun _ _ _ => eventResult_storageOk

end Sys2Proof.Machine

/-! The field invariant (R30): `PSTATE` says which field buffers hold a gradient field and its suppression. -/

namespace Sys2Proof.Machine

/-! What the invariant reads. -/

/-- `t` has the dimensions, the parameters and the gradient field of `s`. -/
structure SameField (s t : State) : Prop where
  width : t.width = s.width
  height : t.height = s.height
  cfg : t.cfg = s.cfg
  epoch : t.epoch = s.epoch
  fldMag2 : t.fldMag2 = s.fldMag2
  fldDir : t.fldDir = s.fldDir

section
variable {s t : State}

theorem SameField.imgW (h : SameField s t) : t.imgW = s.imgW := by rw [State.imgW, h.width, State.imgW]

theorem SameField.imgH (h : SameField s t) : t.imgH = s.imgH := by rw [State.imgH, h.height, State.imgH]

theorem SameField.fldMag2At (h : SameField s t) (n : Nat) : t.fldMag2At n = s.fldMag2At n := by
  rw [State.fldMag2At, h.fldMag2, h.epoch, State.fldMag2At]

theorem SameField.fldDirAt (h : SameField s t) (n : Nat) : t.fldDirAt n = s.fldDirAt n := by
  rw [State.fldDirAt, h.fldDir, h.epoch, State.fldDirAt]

theorem SameField.hasField (h : SameField s t) (hs : s.HasField) : t.HasField := by
  obtain ⟨h3, hfit, hwritten, u, huw, huh, hu⟩ := hs
  refine ⟨atLeast3x3_congr h.width h.height h3, ?_, ?_, u, huw.trans h.width.symm, huh.trans h.height.symm, ?_⟩
  · rw [h.imgW, h.imgH, h.cfg]; exact hfit
  · rw [h.imgW, h.imgH, h.fldMag2, h.fldDir]; exact hwritten
  · intro x y hx hy
    rw [h.fldMag2At, h.fldDirAt]
    exact hu x y hx hy

theorem SameField.hasSuppressed (h : SameField s t) (hn : t.nmsMag2 = s.nmsMag2) (hs : s.HasSuppressed) :
    t.HasSuppressed := by
  obtain ⟨hfield, hwritten, hsup⟩ := hs
  have hq : ∀ n, t.nmsMag2At n = s.nmsMag2At n := fun n => by rw [State.nmsMag2At, hn, h.epoch, State.nmsMag2At]
  refine ⟨h.hasField hfield, ?_, ?_⟩
  · rw [h.imgW, h.imgH, hn]; exact hwritten
  · unfold SuppressedFieldOf
    simp only [h.imgW, h.imgH, h.fldMag2At, h.fldDirAt, hq]
    exact hsup

theorem SameField.fieldsOk (h : SameField s t) (hn : t.nmsMag2 = s.nmsMag2) (hp : t.pstate = s.pstate)
    (hs : s.FieldsOk) : t.FieldsOk := by
  obtain ⟨hgrad, hsup⟩ := hs
  refine ⟨fun ht => h.hasField (hgrad (hp ▸ ht)), fun ht => h.hasSuppressed hn (hsup (hp ▸ ht))⟩

theorem fieldsOk_of_raw (h : s.pstate = .raw) : s.FieldsOk := by
  constructor <;> intro hp <;> simp [h] at hp

theorem fieldsOk_of_hasField (hp : s.pstate = .gradient) (h : s.HasField) : s.FieldsOk :=
  ⟨fun _ => h, fun hp' => by simp [hp] at hp'⟩

theorem fieldsOk_of_hasSuppressed (h : s.HasSuppressed) : s.FieldsOk := ⟨fun _ => h.1, fun _ => h⟩

end

/-! What the stages establish. -/

/-- R182: the squared magnitude of a pixel is at most `2 * 1020²`. -/
theorem mag2Of_le (s : State) {n : Nat} (hn : n < s.pixels) : mag2Of (s.gxAt n) (s.gyAt n) ≤ 2080800 := by
  obtain ⟨hx, hy, he⟩ := pixelIndex_surj hn
  have hgx := gxAt_eq_sobelGx s hx hy
  have hgy := gyAt_eq_sobelGy s hx hy
  rw [he] at hgx hgy
  rw [hgx, hgy]
  obtain ⟨hx1, hx2, hy1, hy2⟩ := sobel_range s (n % s.imgW) (n / s.imgW)
  have hxx := square_range hx1 hx2
  have hyy := square_range hy1 hy2
  unfold mag2Of
  omega

/-- What a fill from index 0 stores (R71). -/
theorem sparseFind_fill_zero {α : Type} (m : Sparse α) {n a : Nat} (f : Nat → α) (h : a < n) :
    sparseFind (sparseFill m 0 n f) a = some (f a) := by
  rw [sparseFind_fill, if_pos (by omega), Nat.sub_zero]

/-- The gradient stage leaves the gradient field of `BUF_SMOOTH` (R185). -/
theorem gradientStage_hasField {s : State} (hfit : s.FitsBuffers) (h3 : s.AtLeast3x3) : s.gradientStage.HasField := by
  refine ⟨h3, hfit.2.2, fun n hn => ?_, s, rfl, rfl, gradientStage_field s⟩
  refine ⟨_, _, sparseFind_fill_zero _ _ hn, ?_, sparseFind_fill_zero _ _ hn⟩
  rw [BitVec.toNat_ofNat]
  exact (Nat.mod_le _ _).trans (mag2Of_le s hn)

/-- The suppress stage keeps the field and leaves its suppression (R188). -/
theorem suppressStage_hasSuppressed {s : State} (h : s.HasField) : s.suppressStage.HasSuppressed :=
  ⟨SameField.hasField ⟨rfl, rfl, rfl, rfl, rfl, rfl⟩ h, fun _ hn => ⟨_, sparseFind_fill_zero _ _ hn⟩,
    suppressStage_field s⟩

theorem thresholdStage_hasSuppressed {s : State} (h : s.HasSuppressed) : s.thresholdStage.HasSuppressed :=
  SameField.hasSuppressed ⟨rfl, rfl, rfl, rfl, rfl, rfl⟩ rfl h

theorem withPstate_hasField {s : State} (p : PState) (h : s.HasField) : (s.withPstate p).HasField :=
  SameField.hasField ⟨rfl, rfl, rfl, rfl, rfl, rfl⟩ h

theorem withPstate_hasSuppressed {s : State} (p : PState) (h : s.HasSuppressed) : (s.withPstate p).HasSuppressed :=
  SameField.hasSuppressed ⟨rfl, rfl, rfl, rfl, rfl, rfl⟩ rfl h

/-! What keeps the field invariant. -/

/-- A command whose checks pass leaves the stage state its outputs are in (R30). -/
theorem command_fieldsOk {op : BitVec 8} {i : Instr} {c : State → Option ErrCode} {f : State → State} {s : State}
    (hf : CommandIs op i c f) (hc : c s = none) (h : s.FieldsOk) : (f s).FieldsOk := by
  cases hf with
  | gray | smooth | preprocess => exact SameField.fieldsOk ⟨rfl, rfl, rfl, rfl, rfl, rfl⟩ rfl rfl h
  | gradient =>
    obtain ⟨hfit, h3⟩ := checksGradient_eq_none.1 hc
    exact fieldsOk_of_hasField rfl (withPstate_hasField _ (gradientStage_hasField hfit h3))
  | nms =>
    obtain ⟨_, hp⟩ := checksNms_eq_none.1 hc
    exact fieldsOk_of_hasSuppressed (withPstate_hasSuppressed _ (suppressStage_hasSuppressed (h.1 hp)))
  | hyst =>
    obtain ⟨_, hp, _⟩ := checksHyst_eq_none.1 hc
    exact fieldsOk_of_hasSuppressed (withPstate_hasSuppressed _ (thresholdStage_hasSuppressed (h.2 (.inl hp))))
  | detect =>
    obtain ⟨hfit, h3, _⟩ := checksDetect_eq_none.1 hc
    exact fieldsOk_of_hasSuppressed (withPstate_hasSuppressed _ (thresholdStage_hasSuppressed
      (suppressStage_hasSuppressed (gradientStage_hasField hfit h3))))

/-- A write of a dimension leaves RAW; a write of any other register touches nothing the fields are judged by (R31). -/
theorem regWrite_fieldsOk {s : State} (g : Reg) (d : Word) (h : s.FieldsOk) : (s.regWrite g d).FieldsOk := by
  by_cases hg : g = .width ∨ g = .height
  · exact fieldsOk_of_raw (by simp [hg])
  · obtain ⟨hw, hh⟩ := not_or.1 hg
    have hsame : SameField s (s.regWrite g d) := by constructor <;> simp [hw, hh]
    exact hsame.fieldsOk (by simp) (by simp [hg]) h

theorem eventResult_fieldsOk {u : State} {e : Event} {t : State} (h : u.FieldsOk) (hr : EventResult u e t) :
    t.FieldsOk := by
  cases hr with
  | answered | wroteWord | failed => exact SameField.fieldsOk ⟨rfl, rfl, rfl, rfl, rfl, rfl⟩ rfl rfl h
  | wroteRegister g =>
    exact SameField.fieldsOk ⟨rfl, rfl, rfl, rfl, rfl, rfl⟩ rfl rfl (regWrite_fieldsOk g _ h)
  | idled => exact h
  | succeeded _ hf hc =>
    have hok := command_fieldsOk hf hc h
    exact SameField.fieldsOk ⟨rfl, rfl, rfl, rfl, rfl, rfl⟩ rfl rfl hok
  | wasReset => exact fieldsOk_of_raw rfl

/-- Settles O43, by cases on the event: a dimension write and a reset leave RAW, `GRADIENT`, `NMS` and `DETECT` compute
what they claim, every other event leaves the fields and what they are judged by alone. -/
theorem stepKeepsFieldInvariant : Obligations.StepKeepsFieldInvariant :=
  step_preserves (fun _ _ h => SameField.fieldsOk ⟨rfl, rfl, rfl, rfl, rfl, rfl⟩ rfl rfl h)
    fun _ _ _ => eventResult_fieldsOk

end Sys2Proof.Machine

/-! The rules of spec file 10_state.md over every step: status fields, parameters, stage state, configuration, outputs and
interrupt; and the values at reset. -/

namespace Sys2Proof.Machine

/-! Status fields and parameters. -/

theorem eventResult_statusOk {u : State} {e : Event} {t : State} (h : u.StatusOk) (hr : EventResult u e t) :
    t.StatusOk := by
  cases hr with
  | answered | wroteWord | idled => exact h
  | wroteRegister g =>
    intro hb
    by_cases hg : g = .cmd
    · simp [hg]
    · obtain ⟨hd, he⟩ := h (by simpa [hg] using hb)
      simp [hg, hd, he]
  | failed | succeeded | wasReset => exact nofun

/-- Settles O41: a start clears `DONE` and `ERR`, a completion clears `BUSY`, and no other event raises one of the
three. -/
theorem stepKeepsStatusInvariant : Obligations.StepKeepsStatusInvariant :=
  step_preserves (fun _ _ h => h) fun _ _ _ => eventResult_statusOk

theorem eventResult_cfg {u : State} {e : Event} {t : State} (hr : EventResult u e t) : t.cfg = u.cfg := by
  cases hr with
  | wroteRegister g => simp
  | succeeded _ hf => exact command_cfg hf u
  | answered | wroteWord | idled | failed | wasReset => rfl

/-- Settles O45, by cases on the event. -/
theorem parametersNeverChange : Obligations.ParametersNeverChange := by
  intro s t h
  obtain ⟨p, hr⟩ := step_eventResult h
  have hcfg := eventResult_cfg hr
  exact hcfg

/-- Settles O48, by cases on the event: only a write of `CMD` raises `BUSY`, only a completion raises `DONE`. -/
theorem onlyCompletionEndsACommand : Obligations.OnlyCompletionEndsACommand := by
  intro s t h
  obtain ⟨p, hr⟩ := step_eventResult h
  generalize s.nextEvent.1 = e at hr
  cases hr with
  | answered | wroteWord | idled =>
    exact ⟨fun h h' => (nomatch h.symm.trans h'), fun h h' => (nomatch h.symm.trans h'),
      fun h h' => (nomatch h.symm.trans h')⟩
  | @wroteRegister r g hw ha =>
    refine ⟨fun hb hb' => ?_, fun hb hb' => ?_, fun hd hd' => ?_⟩
    · have hg : g = .cmd := by by_contra hg; simp [hg, hb] at hb'
      exact ⟨r, rfl, hw, BitVec.eq_of_toNat_eq (by rw [ha, hg]; rfl)⟩
    · simp [hb] at hb'
    · simp [hd] at hd'
  | failed _ hb | succeeded hb => exact ⟨fun _ hb' => (nomatch hb'), fun _ _ => .inl rfl, fun _ _ => ⟨rfl, hb, rfl⟩⟩
  | wasReset => exact ⟨fun _ hb' => (nomatch hb'), fun _ _ => .inr rfl, fun _ hd' => (nomatch hd')⟩

/-! Stage state. -/

/-- How a command whose checks pass changes the stage state (R30). -/
theorem command_pstate {op : BitVec 8} {i : Instr} {c : State → Option ErrCode} {f : State → State} {s : State}
    (hf : CommandIs op i c f) (hc : c s = none) :
    (f s).pstate = s.pstate ∨ (op = 4 ∧ (f s).pstate = .gradient) ∨
      (op = 5 ∧ s.pstate = .gradient ∧ (f s).pstate = .suppressed) ∨
      (op = 6 ∧ s.pstate = .suppressed ∧ (f s).pstate = .thresholded) ∨ (op = 7 ∧ (f s).pstate = .thresholded) := by
  cases hf with
  | gray | smooth | preprocess => exact .inl rfl
  | gradient ho => exact .inr (.inl ⟨ho, rfl⟩)
  | nms ho => exact .inr (.inr (.inl ⟨ho, (checksNms_eq_none.1 hc).2, rfl⟩))
  | hyst ho => exact .inr (.inr (.inr (.inl ⟨ho, (checksHyst_eq_none.1 hc).2.1, rfl⟩)))
  | detect ho => exact .inr (.inr (.inr (.inr ⟨ho, rfl⟩)))

/-- Settles O46, by cases on the event and, for a completion, on the command. -/
theorem onlyTheseEventsChangeTheStage : Obligations.OnlyTheseEventsChangeTheStage := by
  intro s t h hne
  obtain ⟨p, hr⟩ := step_eventResult h
  generalize s.nextEvent.1 = e at hr
  cases hr with
  | answered | wroteWord | idled | failed => exact absurd rfl hne
  | @wroteRegister r g hw ha hl =>
    have hg : g = .width ∨ g = .height := by by_contra hg; simp [hg] at hne
    refine .inr (.inl ⟨r, rfl, hw, hg.imp ?_ ?_, ?_, by simp [hg]⟩)
    · rintro rfl; exact BitVec.eq_of_toNat_eq ha
    · rintro rfl; exact BitVec.eq_of_toNat_eq ha
    · have hlock : g.locked = true := by rcases hg with rfl | rfl <;> rfl
      simpa [hlock] using hl
  | succeeded hb hf hc =>
    have hstage := (command_pstate hf hc).resolve_left hne
    exact .inr (.inr ⟨rfl, hb, rfl, hstage⟩)
  | wasReset => exact .inl ⟨rfl, rfl⟩

/-- Settles O21: a reset and a dimension write leave RAW; a write at a buffer's address writes no register. -/
theorem dimensionWritesReturnToRaw : Obligations.DimensionWritesReturnToRaw := by
  refine ⟨rfl, fun s rest hp => ⟨_, step_of_pending hp, rfl⟩, fun s d hb => ⟨?_, ?_⟩, fun s addr be d hlo _ => ?_⟩
  · exact ⟨_, exec_hwr_reg (r := .width) d (by simp [hb]), rfl, rfl⟩
  · exact ⟨_, exec_hwr_reg (r := .height) d (by simp [hb]), rfl, rfl⟩
  · obtain ⟨t, ht⟩ := exec_isNext (.hwr addr be d) s
    refine ⟨t, ht, ?_⟩
    cases eventResult_host (r := ⟨true, addr, be, d⟩) ht with
    | answered | wroteWord => rfl
    | wroteRegister g _ ha =>
      have hlt := Reg_addr_lt g
      have ha : addr.toNat = g.addr := ha
      omega

/-! Configuration. -/

/-- The configuration registers and the coefficients of `t` are those of `s` (R28, R33). -/
def SameConfiguration (s t : State) : Prop :=
  t.width = s.width ∧ t.height = s.height ∧ t.channels = s.channels ∧ t.ksize = s.ksize ∧ t.kshift = s.kshift ∧
    t.threshLow = s.threshLow ∧ t.threshHigh = s.threshHigh ∧ t.kcoef = s.kcoef

theorem sameConfiguration_rfl (s : State) : SameConfiguration s s := ⟨rfl, rfl, rfl, rfl, rfl, rfl, rfl, rfl⟩

theorem command_sameConfiguration {op : BitVec 8} {i : Instr} {c : State → Option ErrCode} {f : State → State}
    (hf : CommandIs op i c f) (s : State) : SameConfiguration s (f s) := by
  rw [command_frame hf s]
  exact sameConfiguration_rfl s

/-- R116: every configuration register and coefficient is locked. -/
theorem regWrite_sameConfiguration {s : State} {g : Reg} {d : Word} (h : g.locked = false) :
    SameConfiguration s (s.regWrite g d) := by
  have hne {g₀ : Reg} (h₀ : g₀.locked = true) : g ≠ g₀ := by rintro rfl; simp [h] at h₀
  exact ⟨(State.regWrite_width ..).trans (if_neg (hne rfl)), (State.regWrite_height ..).trans (if_neg (hne rfl)),
    (State.regWrite_channels ..).trans (if_neg (hne rfl)), (State.regWrite_ksize ..).trans (if_neg (hne rfl)),
    (State.regWrite_kshift ..).trans (if_neg (hne rfl)), (State.regWrite_threshLow ..).trans (if_neg (hne rfl)),
    (State.regWrite_threshHigh ..).trans (if_neg (hne rfl)), regWrite_kcoef s g d fun _ _ => hne rfl⟩

/-- A field that a write of register `g₀` alone changes has changed only if the address is that of `g₀`. -/
theorem addr_of_field_ne {α : Type} {addr : Addr} {g g₀ : Reg} {field new old : α} (ha : addr.toNat = g.addr)
    (hf : field = if g = g₀ then new else old) (h : field ≠ old) : addr = BitVec.ofNat 24 g₀.addr := by
  have hg : g = g₀ := by by_contra hg; exact h (hf.trans (if_neg hg))
  rw [← hg, ← ha, BitVec.ofNat_toNat, BitVec.setWidth_eq]

/-- Settles O47, by cases on the event: while idle a register write writes its own field; while busy no configuration
register can be written. -/
theorem configurationChangesOnlyByHostOrReset : Obligations.ConfigurationChangesOnlyByHostOrReset := by
  intro s t h
  obtain ⟨p, hr⟩ := step_eventResult h
  generalize s.nextEvent.1 = e at hr
  cases hr with
  | answered | wroteWord | idled | failed => exact .inr (.inr (sameConfiguration_rfl s))
  | @wroteRegister r g hw ha hl =>
    cases hb : s.busy with
    | false =>
      refine .inr (.inl ⟨r, rfl, hw, rfl, addr_of_field_ne ha (State.regWrite_width ..),
        addr_of_field_ne ha (State.regWrite_height ..), addr_of_field_ne ha (State.regWrite_channels ..),
        addr_of_field_ne ha (State.regWrite_ksize ..), addr_of_field_ne ha (State.regWrite_kshift ..),
        addr_of_field_ne ha (State.regWrite_threshLow ..), addr_of_field_ne ha (State.regWrite_threshHigh ..),
        fun i _ j hj hne => ?_⟩)
      obtain ⟨a, b, rfl, rfl, rfl⟩ := kcoef_of_regWrite_ne hj hne
      exact ha
    | true =>
      have hlock : g.locked = false := by simpa [hb] using hl
      exact .inr (.inr (regWrite_sameConfiguration hlock))
  | succeeded _ hf => exact .inr (.inr (command_sameConfiguration hf _))
  | wasReset => exact .inl rfl

/-! The outputs of a command. -/

section
variable {s : State}

theorem grayStage_byte_ne {a : Nat} (h : s.grayStage.byte a ≠ s.byte a) :
    Buf.base .gray ≤ a ∧ a < Buf.base .gray + s.pixels := by
  by_contra ha; exact h (by rw [grayStage_byte, if_neg ha])

theorem smoothStage_byte_ne {a : Nat} (h : s.smoothStage.byte a ≠ s.byte a) :
    Buf.base .smooth ≤ a ∧ a < Buf.base .smooth + s.pixels := by
  by_contra ha; exact h (by rw [smoothStage_byte, if_neg ha])

theorem thresholdStage_byte_ne {a : Nat} (h : s.thresholdStage.byte a ≠ s.byte a) :
    Buf.base .edge ≤ a ∧ a < Buf.base .edge + s.pixels := by
  by_contra ha; exact h (by rw [thresholdStage_byte, if_neg ha])

theorem gradientStage_field_ne {n : Nat}
    (h : s.gradientStage.fldMag2At n ≠ s.fldMag2At n ∨ s.gradientStage.fldDirAt n ≠ s.fldDirAt n) : n < s.pixels := by
  by_contra hn
  rw [gradientStage_fldMag2At, gradientStage_fldDirAt, if_neg hn, if_neg hn] at h
  simp at h

theorem suppressStage_nmsMag2At_ne {n : Nat} (h : s.suppressStage.nmsMag2At n ≠ s.nmsMag2At n) : n < s.pixels := by
  by_contra hn; exact h (by rw [suppressStage_nmsMag2At, if_neg hn])

variable {op : BitVec 8} {i : Instr} {c : State → Option ErrCode} {f : State → State}

/-- The bytes a command's effect can change: the first `N` of its output buffers (R71, R93). -/
theorem command_byte_ne (hf : CommandIs op i c f) {a : Nat} (h : (f s).byte a ≠ s.byte a) :
    ((i = .gray ∨ i = .preprocess) ∧ Buf.base .gray ≤ a ∧ a < Buf.base .gray + s.pixels) ∨
    ((i = .smooth ∨ i = .preprocess) ∧ Buf.base .smooth ≤ a ∧ a < Buf.base .smooth + s.pixels) ∨
    ((i = .hyst ∨ i = .detect) ∧ Buf.base .edge ≤ a ∧ a < Buf.base .edge + s.pixels) := by
  cases hf with
  | gray => exact .inl ⟨.inl rfl, grayStage_byte_ne h⟩
  | smooth => exact .inr (.inl ⟨.inl rfl, smoothStage_byte_ne h⟩)
  | preprocess =>
    by_cases hg : s.grayStage.byte a = s.byte a
    · exact .inr (.inl ⟨.inr rfl, smoothStage_byte_ne (s := s.grayStage) (hg ▸ h)⟩)
    · exact .inl ⟨.inr rfl, grayStage_byte_ne hg⟩
  | gradient | nms => exact absurd rfl h
  | hyst => exact .inr (.inr ⟨.inl rfl, thresholdStage_byte_ne h⟩)
  | detect => exact .inr (.inr ⟨.inr rfl, thresholdStage_byte_ne (s := s.gradientStage.suppressStage) h⟩)

/-- The entries of `FLD_MAG2` and `FLD_DIR` a command's effect can change. -/
theorem command_field_ne (hf : CommandIs op i c f) {n : Nat}
    (h : (f s).fldMag2At n ≠ s.fldMag2At n ∨ (f s).fldDirAt n ≠ s.fldDirAt n) :
    (i = .gradient ∨ i = .detect) ∧ n < s.pixels := by
  cases hf with
  | gradient => exact ⟨.inl rfl, gradientStage_field_ne h⟩
  | detect => exact ⟨.inr rfl, gradientStage_field_ne h⟩
  | gray | smooth | preprocess | nms | hyst => exact absurd h (not_or.2 ⟨fun h => h rfl, fun h => h rfl⟩)

/-- The entries of `NMS_MAG2` a command's effect can change. -/
theorem command_nmsMag2At_ne (hf : CommandIs op i c f) {n : Nat} (h : (f s).nmsMag2At n ≠ s.nmsMag2At n) :
    (i = .nms ∨ i = .detect) ∧ n < s.pixels := by
  cases hf with
  | nms => exact ⟨.inl rfl, suppressStage_nmsMag2At_ne h⟩
  | detect => exact ⟨.inr rfl, suppressStage_nmsMag2At_ne (s := s.gradientStage) h⟩
  | gray | smooth | preprocess | gradient | hyst => exact absurd rfl h

end

/-- Every instruction of format CMDW is one of the seven commands (R92). -/
theorem commandIs_of_format {i : Instr} (h : i.format = .cmdw) : ∃ op c f, CommandIs op i c f := by
  cases i with
  | gray => exact ⟨_, _, _, .gray rfl⟩
  | smooth => exact ⟨_, _, _, .smooth rfl⟩
  | preprocess => exact ⟨_, _, _, .preprocess rfl⟩
  | gradient => exact ⟨_, _, _, .gradient rfl⟩
  | nms => exact ⟨_, _, _, .nms rfl⟩
  | hyst => exact ⟨_, _, _, .hyst rfl⟩
  | detect => exact ⟨_, _, _, .detect rfl⟩
  | hrd | hwr => cases h

/-- Settles O49, by cases on the command's outcome: idle and failure touch no buffer, success writes its stages'
outputs. -/
theorem commandsTouchOnlyTheirOutputs : Obligations.CommandsTouchOnlyTheirOutputs := by
  intro i s hi
  obtain ⟨op, c, f, hf⟩ := commandIs_of_format hi
  refine ⟨_, exec_command hf s, ?_⟩
  rcases complete_cases s (c s) f with ⟨_, ht⟩ | ⟨_, e, _, ht⟩ | ⟨_, _, ht⟩ <;> rw [ht]
  · exact ⟨rfl, fun _ h => absurd rfl h, fun _ h => by simp at h, fun _ h => absurd rfl h⟩
  · exact ⟨rfl, fun _ h => absurd rfl h, fun _ h => absurd h (not_or.2 ⟨fun h => h rfl, fun h => h rfl⟩),
      fun _ h => absurd rfl h⟩
  · exact ⟨congrArg State.succeedCommand (command_frame hf s), fun _ h => command_byte_ne hf h,
      fun _ h => command_field_ne hf h, fun _ h => command_nmsMag2At_ne hf h⟩

/-! The interrupt. -/

/-- Settles O50: a completion raises `DONE` and keeps `IE`; an acknowledgement and a start clear `DONE`; an enabling sets
`IE` and keeps `DONE`. -/
theorem interruptFollowsCompletion : Obligations.InterruptFollowsCompletion := by
  refine ⟨fun s hb hp => ?_, fun s d hd => ?_, fun s d hb => ?_, fun s d hd => ?_⟩
  · obtain ⟨t, ht, hr⟩ := engineTurn_eventResult s
    refine ⟨t, (step_of_none_pending hp).trans ht, ?_⟩
    cases hr with
    | idled hb' => simp [hb] at hb'
    | failed => simp [State.irq]
    | succeeded _ hf => simp [State.irq, command_ie hf s]
  · exact ⟨_, exec_hwr_reg (r := .status) d (by simp [Reg.locked]), by simp [State.irq, hd], by simp, by simp⟩
  · exact ⟨_, exec_hwr_reg (r := .cmd) d (by simp [hb]), by simp [State.irq]⟩
  · exact ⟨_, exec_hwr_reg (r := .ctrl) d (by simp [Reg.locked]), by simp [State.irq, hd]⟩

/-! Reset. -/

/-- Settles O10: `State.reset` gives each register its value of R40. -/
theorem resetStateValues : Obligations.ResetStateValues :=
  ⟨rfl, rfl, rfl, rfl, rfl, rfl, rfl, rfl, rfl, rfl, rfl, rfl, rfl, rfl, rfl⟩

/-- Settles O44: at reset the core is idle, nothing is listed, the parameters are R7's defaults, and the stage is RAW. -/
theorem resetMeetsInvariants : Obligations.ResetMeetsInvariants :=
  ⟨nofun, storageOk_iff.2 ⟨by decide, listsOnly_nil, listsOnly_nil, listsOnly_nil, listsOnly_nil⟩, fieldsOk_of_raw rfl⟩

/-- The one-dimensional weights of the default kernel, 0 past the fifth (R34). -/
def defaultWeight (i : Nat) : Int := ([28, 61, 78, 61, 28, 0, 0] : List Int).getD i 0

theorem reset_coef_eq_outer : ∀ i < 7, ∀ j < 7, State.reset.coef i j = defaultWeight i * defaultWeight j := by decide

theorem sum_defaultWeight : ∑ i ∈ Finset.range 5, defaultWeight i = 256 := by decide

/-- Settles O12: the sum of an outer product is the product of the sums, `256 * 256`. -/
theorem defaultKernelValues : Obligations.DefaultKernelValues := by
  refine ⟨rfl, rfl, reset_coef_eq_outer, ?_⟩
  calc ∑ i ∈ Finset.range 5, ∑ j ∈ Finset.range 5, State.reset.coef i j
      = ∑ i ∈ Finset.range 5, ∑ j ∈ Finset.range 5, defaultWeight i * defaultWeight j :=
        Finset.sum_congr rfl fun i hi => Finset.sum_congr rfl fun j hj =>
          reset_coef_eq_outer i (by have := Finset.mem_range.1 hi; omega) j (by have := Finset.mem_range.1 hj; omega)
    _ = 65536 := by rw [← Finset.sum_mul_sum, sum_defaultWeight]; rfl

end Sys2Proof.Machine

/-! The rules of spec file 20_memory.md: a buffer word read and written by one idle transaction, and a read that only
answers. -/

namespace Sys2Proof.Machine

/-! A word of a buffer. -/

/-- An address inside a buffer's window names no register, so it names a byte of a buffer (R110). The buffer need not be
`b`: with a `MAXPIX` outside R7's range two windows could overlap. -/
theorem targetOf_of_mem_window {cfg : Config.Params} {b : Buf} {addr : Addr} (hlo : b.base ≤ addr.toNat)
    (hhi : addr.toNat < b.base + b.length cfg) : ∃ b' n, targetOf cfg addr = .buf b' n ∧ b'.base + n = addr.toNat := by
  rcases targetOf_cases cfg addr with ⟨r, hr, _⟩ | ⟨b', _, ht⟩ | ⟨hnone, _, _⟩
  · have hreg := regAt_lt hr
    have hbase : 0x200 ≤ b.base := by cases b <;> decide
    omega
  · exact ⟨b', _, ht, (targetOf_buf ht).1⟩
  · simpa [Buf.holds, hlo, hhi] using hnone b

section
variable {s : State} {b : Buf} {addr : Addr}

/-- A read of an aligned buffer word while idle answers with the word at that address (R111). -/
theorem exec_hrd_buf (hb : s.busy = false) (h4 : addr.toNat % 4 = 0) (hlo : b.base ≤ addr.toNat)
    (hhi : addr.toNat < b.base + b.length s.cfg) :
    exec (.hrd addr) s = .next (s.respond false (s.wordAt addr.toNat)) := by
  obtain ⟨b', n, ht, hn⟩ := targetOf_of_mem_window hlo hhi
  simp [exec_hrd, aligned, h4, ht, State.readTarget, hb, hn]

/-- A write of an aligned buffer word while idle stores the enabled lanes at that address (R112). -/
theorem exec_hwr_buf (be : BitVec 4) (d : Word) (hb : s.busy = false) (h4 : addr.toNat % 4 = 0)
    (hlo : b.base ≤ addr.toNat) (hhi : addr.toNat < b.base + b.length s.cfg) :
    exec (.hwr addr be d) s = .next (s.writeWord addr.toNat be d).accept := by
  obtain ⟨b', n, ht, hn⟩ := targetOf_of_mem_window hlo hhi
  simp [exec_hwr, aligned, h4, ht, State.writeTarget, hb, hn]

end

/-- A byte appended below a vector, as a number. -/
theorem toNat_append_byte {w : Nat} (x : BitVec w) (y : Byte) : (x ++ y).toNat = x.toNat * 2 ^ 8 + y.toNat := by
  rw [BitVec.toNat_append, ← Nat.shiftLeft_add_eq_or_of_lt y.isLt, Nat.shiftLeft_eq]

/-- The word at an address as a number: its four bytes, the lowest address in the low bits (R64). -/
theorem wordAt_eq_ofNat (s : State) (a : Nat) :
    s.wordAt a = BitVec.ofNat 32 ((s.byte a).toNat + 2 ^ 8 * (s.byte (a + 1)).toNat + 2 ^ 16 * (s.byte (a + 2)).toNat +
      2 ^ 24 * (s.byte (a + 3)).toNat) := by
  refine BitVec.eq_of_toNat_eq ?_
  have h0 := (s.byte a).isLt
  have h1 := (s.byte (a + 1)).isLt
  have h2 := (s.byte (a + 2)).isLt
  have h3 := (s.byte (a + 3)).isLt
  rw [State.wordAt, toNat_append_byte, toNat_append_byte, toNat_append_byte, BitVec.toNat_ofNat]
  omega

section
variable (s : State) (a : Nat) (be : BitVec 4) (d : Word)

/-- Lane `k` of a word write, when it is enabled: byte `k` of the data (R66). -/
theorem writeWord_byte_enabled {k : Nat} (hk : k < 4) (he : be.getLsbD k = true) :
    (s.writeWord a be d).byte (a + k) = d.extractLsb' (8 * k) 8 := by
  simp [writeWord_byte, hk, he]

/-- Lane `k` of a word write, when it is disabled: kept (R66). -/
theorem writeWord_byte_disabled {k : Nat} (he : be.getLsbD k = false) :
    (s.writeWord a be d).byte (a + k) = s.byte (a + k) := by
  simp [writeWord_byte, he]

/-- A word write keeps every byte outside its word (R112). -/
theorem writeWord_byte_outside {c : Nat} (hc : ¬ (a ≤ c ∧ c < a + 4)) :
    (s.writeWord a be d).byte c = s.byte c := by
  rw [writeWord_byte, if_neg fun ⟨hlo, hhi, _⟩ => hc ⟨hlo, hhi⟩]

end

/-- Settles O22: the word answered, read as a number. -/
theorem bufferWordReads : Obligations.BufferWordReads := by
  intro s b addr hb h4 hlo hhi
  rw [exec_hrd_buf hb h4 hlo hhi, wordAt_eq_ofNat]
  rfl

/-- Settles O23, lane by lane: the enabled lanes, the disabled lanes, the bytes outside the word. -/
theorem bufferWordWrites : Obligations.BufferWordWrites := by
  intro s b addr be d hb h4 hlo hhi
  refine ⟨_, exec_hwr_buf be d hb h4 hlo hhi, rfl, fun k hk he => ?_, fun k _ he => ?_, fun c hc => ?_⟩ <;>
    rw [State.accept_byte]
  · rw [writeWord_byte_enabled s _ be d hk he, BitVec.extractLsb'_toNat, Nat.shiftRight_eq_div_pow]
  · exact writeWord_byte_disabled s _ be d he
  · exact writeWord_byte_outside s _ be d hc

/-- Settles O24: every branch of a read is a response. -/
theorem readsOnlyAnswer : Obligations.ReadsOnlyAnswer := by
  intro s addr
  obtain ⟨err, rdata, h⟩ := execHrd_eq addr s
  exact ⟨⟨err, rdata⟩, h⟩

end Sys2Proof.Machine

/-! The rules of spec file 30_encoding.md: the opcode map read in both directions, the fields of a packed request, and
decoding as the inverse of encoding. -/

namespace Sys2Proof

/-! The opcode map (R92, R94). -/

/-- Opcode decoding inverts the opcode map: with `decodeOpcode_ok`, it answers an instruction exactly for its opcode. -/
theorem decodeOpcode_eq_ok_iff {op : BitVec 8} {i : Instr} : decodeOpcode op = .ok i ↔ opcodeOf i = some op := by
  refine ⟨decodeOpcode_ok, fun h => ?_⟩
  cases i <;> cases h <;> rfl

/-- The opcodes that no command has are 0x00 and 0x08 to 0xFF (R94). -/
theorem decodeOpcode_eq_reserved_iff {op : BitVec 8} :
    decodeOpcode op = .error (.reservedOpcode op) ↔ op.toNat = 0 ∨ 8 ≤ op.toNat := by
  unfold decodeOpcode
  repeat'
    split
    · subst op
      simp
  simp only [true_iff]
  bv_omega

/-! Command words (R92). -/

theorem cmdwOp_toNat (w : Word) : (cmdwOp w).toNat = w.toNat % 256 := by
  simp [cmdwOp]

theorem cmdwOp_eq_ofNat (w : Word) : cmdwOp w = BitVec.ofNat 8 w.toNat :=
  BitVec.eq_of_toNat_eq (by rw [cmdwOp_toNat, BitVec.toNat_ofNat])

/-- A command word decodes to a command exactly when its low byte is that command's opcode. -/
theorem decodeCmdw_eq_ok_iff {i : Instr} {op : BitVec 8} (h : opcodeOf i = some op) (w : Word) :
    decodeCmdw w = .ok i ↔ w.toNat % 256 = op.toNat := by
  rw [decodeCmdw, decodeOpcode_eq_ok_iff, h, Option.some.injEq, ← cmdwOp_toNat, BitVec.toNat_inj, eq_comm]

/-- A command word is rejected exactly when its low byte is a reserved opcode. -/
theorem decodeCmdw_eq_reserved_iff (w : Word) :
    decodeCmdw w = .error (.reservedOpcode (BitVec.ofNat 8 w.toNat)) ↔ w.toNat % 256 = 0 ∨ 8 ≤ w.toNat % 256 := by
  rw [decodeCmdw, ← cmdwOp_eq_ofNat, decodeOpcode_eq_reserved_iff, cmdwOp_toNat]

/-- Settles O2, clause by clause: each command's opcode, and the reserved ones. -/
theorem commandDecodingReadsTheOpcode : Obligations.CommandDecodingReadsTheOpcode := fun w =>
  ⟨decodeCmdw_eq_ok_iff (op := 1) rfl w, decodeCmdw_eq_ok_iff (op := 2) rfl w, decodeCmdw_eq_ok_iff (op := 3) rfl w,
    decodeCmdw_eq_ok_iff (op := 4) rfl w, decodeCmdw_eq_ok_iff (op := 5) rfl w, decodeCmdw_eq_ok_iff (op := 6) rfl w,
    decodeCmdw_eq_ok_iff (op := 7) rfl w, decodeCmdw_eq_reserved_iff w⟩

/-! Packed requests (R91). -/

theorem decodePacked_of_lt {w : Nat} (h : w < 2 ^ 61) : decodePacked w = .ok (decodeRequest (unpackRequest w)) :=
  if_pos (decide_eq_true h)

theorem decodePacked_of_le {w : Nat} (h : 2 ^ 61 ≤ w) : decodePacked w = .error (.requestTooWide w) :=
  if_neg fun hfits => Nat.not_lt.2 h (of_decide_eq_true hfits)

/-- Bit 60 is the highest of the 61, so it says whether the number is at least `2^60`. -/
theorem unpackRequest_we {w : Nat} (h : w < 2 ^ 61) : (unpackRequest w).we = decide (2 ^ 60 ≤ w) := by
  rw [unpackRequest, Nat.testBit_eq_decide_div_mod_eq, decide_eq_decide]
  omega

/-- Settles O3, by the range of the number: a read, a write, no request. -/
theorem requestDecodingReadsEveryField : Obligations.RequestDecodingReadsEveryField := by
  intro w
  refine ⟨fun hread => ?_, fun hwrite h61 => ?_, decodePacked_of_le⟩
  · have h61 : w < 2 ^ 61 := by omega
    have hwe : (unpackRequest w).we = false := by
      rw [unpackRequest_we h61, decide_eq_false (Nat.not_le.2 hread)]
    rw [decodePacked_of_lt h61, decodeRequest, hwe]
    rfl
  · have hwe : (unpackRequest w).we = true := by rw [unpackRequest_we h61, decide_eq_true hwrite]
    rw [decodePacked_of_lt h61, decodeRequest, hwe]
    rfl

/-- Decoding a packed request reads the request that was packed. -/
theorem decodePacked_packRequest (r : Request) : decodePacked (packRequest r) = .ok (decodeRequest r) := by
  rw [decodePacked_of_lt (packRequest_lt r), unpackRequest_packRequest]

/-! Decoding an encoded instruction. -/

/-- Four bytes are read as the command word they hold (R90). -/
theorem decode_toBytesLE_four (w : Nat) : decode (toBytesLE 4 w) = decodeCmdw (BitVec.ofNat 32 w) := by
  have hw : BitVec.ofNat 32 (w % 256 ^ 4) = BitVec.ofNat 32 w := BitVec.eq_of_toNat_eq (by simp)
  rw [decode, if_pos (length_toBytesLE 4 w), fromBytesLE_toBytesLE, hw]

/-- Eight bytes are read as the number they hold, a packed request (R90, R91). -/
theorem decode_toBytesLE_eight {w : Nat} (h : w < 256 ^ 8) : decode (toBytesLE 8 w) = decodePacked w := by
  rw [decode, length_toBytesLE, if_neg (by decide), if_pos rfl, fromBytesLE_toBytesLE, Nat.mod_eq_of_lt h]

/-- A command is encoded as the command word that is its opcode (R92). -/
theorem encode_command {i : Instr} {op : BitVec 8} (h : opcodeOf i = some op) : encode i = toBytesLE 4 op.toNat := by
  cases i <;> cases h <;> rfl

theorem decode_encode_command {i : Instr} {op : BitVec 8} (h : opcodeOf i = some op) : decode (encode i) = .ok i := by
  rw [encode_command h, decode_toBytesLE_four, decodeCmdw_eq_ok_iff h, BitVec.toNat_ofNat]
  omega

/-- The bytes of a packed request decode to its transaction (R91). -/
theorem decode_packRequest (r : Request) : decode (toBytesLE 8 (packRequest r)) = .ok (decodeRequest r) := by
  rw [decode_toBytesLE_eight ((packRequest_lt r).trans (by decide)), decodePacked_packRequest]

/-- Settles O1, by cases on the instruction: a command by its opcode, a transaction by its packed request. -/
theorem decodeEncodeAgree : Obligations.DecodeEncodeAgree := by
  intro i _
  cases i with
  | hrd addr => exact decode_packRequest ⟨false, addr, 0, 0⟩
  | hwr addr be wdata => exact decode_packRequest ⟨true, addr, be, wdata⟩
  | gray | smooth | preprocess | gradient | nms | hyst | detect => exact decode_encode_command rfl

/-- Settles O4: the decoder run on each word. -/
theorem specWordsDecode : Obligations.SpecWordsDecode := by
  unfold Obligations.SpecWordsDecode
  decide

end Sys2Proof

namespace Sys2Proof.Machine

/-- The engine's turn on a reserved opcode is failure entry with `IllegalCommand` (R94, R225). -/
theorem engineTurn_of_reserved {s : State} (hb : s.busy = true) (h : s.op.toNat = 0 ∨ 8 ≤ s.op.toNat) :
    engineTurn s = .next (s.failCommand .illegalCommand) :=
  engineTurn_reserved hb (decodeOpcode_eq_reserved_iff.2 h)

/-- Settles O8: the turn comes when nothing is pending, or as the event at the front. -/
theorem reservedOpcodeFails : Obligations.ReservedOpcodeFails := by
  intro s hb hop
  refine ⟨fun hp => ?_, fun rest hp => ?_⟩
  · rw [step_of_none_pending hp, engineTurn_of_reserved hb hop]
    rfl
  · rw [step_of_pending hp]
    exact engineTurn_of_reserved (s := { s with pending := rest }) hb hop

end Sys2Proof.Machine

/-! The rules of spec file 40_host_access.md: which transactions are refused, what a register read answers and what a
register write does, and the busy lockout. -/

namespace Sys2Proof.Machine

/-! What is refused (R114 to R117). -/

section
variable {s : State} {addr : Addr}

/-- A misaligned read is refused before its target is decoded (R115). -/
theorem refused_hrd_of_misaligned (h : addr.toNat % 4 ≠ 0) : Refused (.hrd addr) s := by
  have ha : aligned addr = false := decide_eq_false h
  rw [Refused, exec_hrd, ha]
  rfl

/-- A misaligned write is refused before its target is decoded (R115). -/
theorem refused_hwr_of_misaligned (be : BitVec 4) (d : Word) (h : addr.toNat % 4 ≠ 0) :
    Refused (.hwr addr be d) s := by
  have ha : aligned addr = false := decide_eq_false h
  rw [Refused, exec_hwr, ha]
  rfl

/-- A read whose target refuses it is refused at any alignment. -/
theorem refused_hrd_of_target (h : s.readTarget (targetOf s.cfg addr) = s.refuse) : Refused (.hrd addr) s := by
  rw [Refused, exec_hrd, h, ite_self]
  rfl

/-- A write whose target refuses it is refused at any alignment. -/
theorem refused_hwr_of_target {be : BitVec 4} {d : Word}
    (h : s.writeTarget (targetOf s.cfg addr) be d = s.refuse) : Refused (.hwr addr be d) s := by
  rw [Refused, exec_hwr, h, ite_self]
  rfl

/-- Neither transaction is accepted where nothing is mapped (R114). -/
theorem refused_of_unmapped (be : BitVec 4) (d : Word) (h : targetOf s.cfg addr = .unmapped) :
    Refused (.hrd addr) s ∧ Refused (.hwr addr be d) s :=
  ⟨refused_hrd_of_target (by rw [h]; rfl), refused_hwr_of_target (by rw [h]; rfl)⟩

/-- Neither transaction is accepted at a buffer's address while busy (R116). -/
theorem refused_buf_of_busy {b : Buf} (be : BitVec 4) (d : Word) (hb : s.busy = true) (hlo : b.base ≤ addr.toNat)
    (hhi : addr.toNat < b.base + b.length s.cfg) : Refused (.hrd addr) s ∧ Refused (.hwr addr be d) s := by
  obtain ⟨b', n, ht, _⟩ := targetOf_of_mem_window hlo hhi
  constructor
  · exact refused_hrd_of_target (by rw [ht]; exact if_pos hb)
  · exact refused_hwr_of_target (by rw [ht]; exact if_pos hb)

/-- A register takes whole words only (R117). -/
theorem refused_hwr_reg_of_partial {r : Reg} {be : BitVec 4} (d : Word) (h : be ≠ 0b1111#4) :
    Refused (.hwr (BitVec.ofNat 24 r.addr) be d) s :=
  refused_hwr_of_target (by rw [targetOf_reg]; exact if_pos h)

/-- A locked register is not written while busy, whatever the byte enables (R116). -/
theorem refused_hwr_reg_of_locked {r : Reg} (be : BitVec 4) (d : Word) (hb : s.busy = true) (hr : r.locked = true) :
    Refused (.hwr (BitVec.ofNat 24 r.addr) be d) s := by
  by_cases hbe : be = 0b1111#4
  · refine refused_hwr_of_target ?_
    rw [targetOf_reg, State.writeTarget, if_neg (not_not_intro hbe), if_pos ⟨hb, hr⟩]
  · exact refused_hwr_reg_of_partial d hbe

end

/-- The registers lie in the low block, or in a column numbered 0 to 6 of the coefficient block's first seven rows
(R22). -/
theorem Reg_addr_cases (r : Reg) :
    r.addr ≤ 0x030 ∨ (0x100 ≤ r.addr ∧ r.addr < 0x1E0 ∧ r.addr / 4 % 8 ≠ 7) := by
  cases r with
  | kcoef i j => simp only [Reg.addr]; omega
  | _ => exact .inl (by decide)

/-- An aligned address is unmapped if it is no register's and in no buffer's window (R110). -/
theorem targetOf_eq_unmapped {cfg : Config.Params} {addr : Addr} (h4 : addr.toNat % 4 = 0)
    (hreg : ∀ r : Reg, addr.toNat ≠ r.addr)
    (hbuf : ∀ b : Buf, ¬ (b.base ≤ addr.toNat ∧ addr.toNat < b.base + b.length cfg)) :
    targetOf cfg addr = .unmapped := by
  rcases targetOf_cases cfg addr with ⟨r, hr, _⟩ | ⟨b, hb, _⟩ | ⟨_, _, ht⟩
  · exact absurd (regAt_eq_some h4 hr) (hreg r)
  · exact absurd (by simpa [Buf.holds] using hb) (hbuf b)
  · exact ht

/-- R7: a legal `MAXPIX` is at most 2^20. -/
theorem maxPix_le_of_wellFormed {cfg : Config.Params} (h : cfg.WellFormed = true) : cfg.maxPix ≤ 0x100000 := by
  simp only [Config.Params.WellFormed, Config.Params.capacityInRange, Bool.and_eq_true, decide_eq_true_eq] at h
  obtain ⟨⟨_, _, hmax⟩, _⟩ := h
  exact hmax

/-- Settles O14: alignment is decided before the target. -/
theorem misalignedTransactionsRefused : Obligations.MisalignedTransactionsRefused := fun _ _ be d h =>
  ⟨refused_hrd_of_misaligned h, refused_hwr_of_misaligned be d h⟩

/-- Settles O15: an aligned address in one of the gaps is no register's and in no window; a misaligned one is refused
as such. -/
theorem unmappedAddressesRefused : Obligations.UnmappedAddressesRefused := by
  intro s addr be d hwf hgap
  by_cases h4 : addr.toNat % 4 = 0
  · refine refused_of_unmapped be d (targetOf_eq_unmapped h4 (fun r hr => ?_) fun b hb => ?_)
    · have hplace := Reg_addr_cases r
      omega
    · have hmax := maxPix_le_of_wellFormed hwf
      cases b <;> simp only [Buf.base, Buf.length] at hb <;> omega
  · exact misalignedTransactionsRefused s addr be d h4

/-- Settles O16: the byte enables of a register write are decided before anything else about it. -/
theorem partialRegisterWritesRefused : Obligations.PartialRegisterWritesRefused := fun _ _ _ d h =>
  refused_hwr_reg_of_partial d h

/-! What a register read answers (R113). -/

/-- A vector appended below another, as a number. -/
theorem toNat_append_eq_add {v w : Nat} (x : BitVec v) (y : BitVec w) :
    (x ++ y).toNat = x.toNat * 2 ^ w + y.toNat := by
  rw [BitVec.toNat_append, ← Nat.shiftLeft_add_eq_or_of_lt y.isLt, Nat.shiftLeft_eq]

/-- The read value of `STATUS` as a number: each field at its place (R26, R113). -/
theorem statusWord_eq_ofNat (s : State) :
    s.statusWord = BitVec.ofNat 32
      (s.busy.toNat + 2 * s.done.toNat + 16 * s.err.code.toNat + 256 * s.pstate.code.toNat) := by
  refine BitVec.eq_of_toNat_eq ?_
  have hbusy := Bool.toNat_lt s.busy
  have hdone := Bool.toNat_lt s.done
  have herr := s.err.code.isLt
  have hpstate := s.pstate.code.isLt
  simp only [State.statusWord, toNat_append_eq_add, BitVec.toNat_ofBool, BitVec.ofNat_eq_ofNat, BitVec.toNat_ofNat]
  omega

/-- The read value of `CTRL` as a number (R25, R113). -/
theorem regRead_ctrl_eq_ofNat (s : State) : s.regRead .ctrl = BitVec.ofNat 32 s.ie.toNat := by
  rw [State.regRead, ← BitVec.ofNat_toNat, BitVec.toNat_ofBool]

/-- Settles O17, register by register: the fields narrower than a word are zero-extended. -/
theorem registerReadValues : Obligations.RegisterReadValues := by
  intro s
  have read := exec_hrd_reg s
  simp only [← statusWord_eq_ofNat, ← regRead_ctrl_eq_ofNat, BitVec.ofNat_toNat]
  exact ⟨read .id, read .ctrl, read .status, read .cmd, read .width, read .height, read .channels, read .ksize,
    read .kshift, read .threshLow, read .threshHigh, read .capMaxPix, read .capKmax,
    fun i hi j hj => read (.kcoef ⟨i, hi⟩ ⟨j, hj⟩)⟩

/-! What a register write does (R118). -/

theorem exec_hwr_reg_of_idle {s : State} (hb : s.busy = false) (r : Reg) (d : Word) :
    exec (.hwr (BitVec.ofNat 24 r.addr) 0b1111#4 d) s = .next (s.regWrite r d).accept :=
  exec_hwr_reg d (by simp [hb])

theorem exec_hwr_reg_of_unlocked (s : State) (r : Reg) (d : Word) (hr : r.locked = false) :
    exec (.hwr (BitVec.ofNat 24 r.addr) 0b1111#4 d) s = .next (s.regWrite r d).accept :=
  exec_hwr_reg d (by simp [hr])

/-- A write of `STATUS` acknowledges the completion if data bit 1 is set, and does nothing else (R118). -/
theorem regWrite_status (s : State) (d : Word) :
    s.regWrite .status d = { s with done := s.done && !d.getLsbD 1 } := by
  cases hd : d.getLsbD 1 with
  | true => simp only [State.regWrite, hd, Bool.not_true, Bool.and_false]; rfl
  | false => simp only [State.regWrite, hd, Bool.not_false, Bool.and_true]; rfl

/-- A write of a coefficient's register stores the low 16 bits of the data there (R33, R118). -/
theorem regWrite_kcoefBits_same (s : State) (a b : Fin 7) (d : Word) :
    (s.regWrite (.kcoef a b) d).kcoefBits a.val b.val = d.setWidth 16 := by
  have hlt : kcoefIndex a.val b.val < 49 := by unfold kcoefIndex; omega
  simp [State.regWrite, State.kcoefBits, hlt]

/-- Settles O18, register by register: the writes that are always accepted, then those accepted while idle. -/
theorem registerWriteEffects : Obligations.RegisterWriteEffects := by
  intro s d
  have always r (hr : r.locked = false) := exec_hwr_reg_of_unlocked s r d hr
  have idle (hb : s.busy = false) r := exec_hwr_reg_of_idle hb r d
  have low {w : Nat} (hw : w ≤ 32) : d.extractLsb' 0 w = d.setWidth w := (BitVec.setWidth_eq_extractLsb' hw).symm
  rw [low (w := 8) (by decide), low (w := 16) (by decide), low (w := 5) (by decide)]
  refine ⟨always .id rfl, always .capMaxPix rfl, always .capKmax rfl, always .ctrl rfl, ?_, fun hb => ?_⟩
  · exact (always .status rfl).trans (by rw [regWrite_status]; rfl)
  · refine ⟨idle hb .cmd, idle hb .width, idle hb .height, idle hb .channels, idle hb .ksize, idle hb .kshift,
      idle hb .threshLow, idle hb .threshHigh, fun i hi j hj => ?_⟩
    refine ⟨_, idle hb (.kcoef ⟨i, hi⟩ ⟨j, hj⟩), rfl, regWrite_kcoefBits_same s ⟨i, hi⟩ ⟨j, hj⟩ d,
      fun a _ b hb' hne => ?_⟩
    exact regWrite_kcoefBits_other hb' fun ⟨hi', hj'⟩ => hne (by rw [← hi', ← hj'])

/-! The busy lockout (R116). -/

/-- Settles O20, form by form: buffers, locked registers, reads, and the writes of registers that are not locked. -/
theorem busyLockoutRefuses : Obligations.BusyLockoutRefuses := by
  intro s hb
  refine ⟨fun b addr be d hlo hhi => refused_buf_of_busy be d hb hlo hhi, fun r be d hr => ?_,
    fun r => ⟨s.regRead r, exec_hrd_reg s r⟩, fun d => ⟨_, exec_hwr_reg_of_unlocked s .ctrl d rfl, rfl⟩,
    fun d => ⟨_, exec_hwr_reg_of_unlocked s .status d rfl, rfl⟩, fun r d hr => ?_⟩
  · have hlock : r.locked = true := by
      rcases hr with rfl | rfl | rfl | rfl | rfl | rfl | rfl | rfl | ⟨i, j, rfl⟩ <;> rfl
    exact refused_hwr_reg_of_locked be d hb hlock
  · rcases hr with rfl | rfl | rfl <;> exact exec_hwr_reg_of_unlocked s _ d rfl

/-- A write of a register that is not locked changes `IE` and `DONE` only (R118). -/
theorem regWrite_unlocked_frame {r : Reg} (s : State) (d : Word) (h : r.locked = false) :
    s.regWrite r d = { s with ie := (s.regWrite r d).ie, done := (s.regWrite r d).done } := by
  cases r with
  | id | ctrl | capMaxPix | capKmax => rfl
  | status => rw [regWrite_status]
  | cmd | width | height | channels | ksize | kshift | threshLow | threshHigh | kcoef => cases h

/-- A register write never raises `DONE` (R32). -/
theorem done_of_regWrite_done {s : State} {r : Reg} {d : Word} (h : (s.regWrite r d).done = true) : s.done = true := by
  rw [State.regWrite_done] at h
  split at h
  · cases h
  · exact h

/-- Settles O25: while busy a write is refused or writes a register that is not locked. -/
theorem busyHostWritesOnlyTouchControl : Obligations.BusyHostWritesOnlyTouchControl := by
  intro s addr be d hb
  rcases execHwr_cases addr be d s with he | ⟨_, _, _, _, hidle, _⟩ | ⟨r, _, _, _, hl, he⟩
  · exact ⟨_, he, rfl, id⟩
  · rw [hb] at hidle
    cases hidle
  · have hlock : r.locked = false := by simpa [hb] using hl
    refine ⟨_, he, ?_, done_of_regWrite_done⟩
    rw [regWrite_unlocked_frame s d hlock]
    rfl

end Sys2Proof.Machine

/-! The rules of spec file 41_command_lifecycle.md: what starts a command and what runs it, which check of R132
it fails, and its completion under any traffic. -/

namespace Sys2Proof.Machine

/-! The step and the instruction it runs (R74, R130, R131). -/

/-- Settles O5: the event at the front, or the engine's turn when none is pending, decides what is run. -/
theorem stepRunsTheDecodedInstruction : Obligations.StepRunsTheDecodedInstruction :=
  ⟨fun _ _ _ hp => step_of_pending hp, fun _ _ _ hb hi hp => (step_of_pending hp).trans (engineTurn_busy hb hi),
    fun _ _ hb hi hp => (step_of_none_pending hp).trans (engineTurn_busy hb hi)⟩

/-- A command word placed in the engine is run at once, from the state just started (R131). -/
theorem step_placeCommand {s : State} {w : Nat} {i : Instr} (h : decodeCmdw (BitVec.ofNat 32 w) = .ok i) :
    step (s.placeCommand w) = exec i (s.startCommand (cmdwOp (BitVec.ofNat 32 w))) := by
  have hp : (s.placeCommand w).pending = .engine :: s.pending := rfl
  rw [step_of_pending hp]
  exact engineTurn_busy (s := s.startCommand (cmdwOp (BitVec.ofNat 32 w))) rfl h

/-- A request placed at the host port is the next transaction (R60). -/
theorem step_placeRequest (s : State) (w : Nat) :
    step (s.placeRequest w) = exec (decodeRequest (unpackRequest w)) s := by
  have hp : (s.placeRequest w).pending = .host (unpackRequest w) :: s.pending := rfl
  rw [step_of_pending hp]
  rfl

theorem toOption_eq_some {e : Except DecodeError Instr} {i : Instr} (h : e.toOption = some i) : e = .ok i := by
  cases e <;> cases h
  rfl

/-- The low byte of a number survives its reduction to 32 bits (R92). -/
theorem cmdwOp_ofNat_mod (w : Nat) : cmdwOp (BitVec.ofNat 32 (w % 2 ^ 32)) = BitVec.ofNat 8 w :=
  BitVec.eq_of_toNat_eq (by rw [cmdwOp_toNat, BitVec.toNat_ofNat, BitVec.toNat_ofNat]; omega)

/-- Settles O6: a table word of 32 bits is placed as a command word, one of 64 bits as a packed request. -/
theorem fetchWordRunsTheInstruction : Obligations.FetchWordRunsTheInstruction := by
  refine ⟨fun s w i h => ?_, fun s w i h => ?_⟩
  · have hcmd : decodeCmdw (BitVec.ofNat 32 (w % 2 ^ 32)) = .ok i :=
      (decode_toBytesLE_four _).symm.trans (toOption_eq_some h)
    calc step (s.withFetchWord 32 w)
        = exec i (s.startCommand (cmdwOp (BitVec.ofNat 32 (w % 2 ^ 32)))) := step_placeCommand hcmd
      _ = exec i (s.startCommand (BitVec.ofNat 8 w)) := by rw [cmdwOp_ofNat_mod]
  · have hpacked : decodePacked (w % 2 ^ 64) = .ok i :=
      (decode_toBytesLE_eight (Nat.mod_lt w (by decide))).symm.trans (toOption_eq_some h)
    have hlt : w % 2 ^ 64 < 2 ^ 61 := by
      by_contra hge
      rw [decodePacked_of_le (Nat.not_lt.1 hge)] at hpacked
      cases hpacked
    rw [decodePacked_of_lt hlt] at hpacked
    cases hpacked
    exact step_placeRequest s (w % 2 ^ 64)

/-- Settles O9: the idle engine's turn changes nothing, and a completion step is not enabled (R133). -/
theorem idleEngineDoesNothing : Obligations.IdleEngineDoesNothing := by
  refine fun s hb => ⟨fun hp => ?_, fun rest hp => ?_, fun i hi => ?_⟩
  · exact (step_of_none_pending hp).trans (engineTurn_idle hb)
  · exact (step_of_pending hp).trans (engineTurn_idle hb)
  · obtain ⟨op, c, f, hf⟩ := commandIs_of_format hi
    rw [exec_command hf, complete_idle hb]

/-- Settles O19: a write of `CMD` while idle is the start of a command, with the low byte of the data as its opcode. -/
theorem commandStartEffects : Obligations.CommandStartEffects := by
  intro s d hb
  have hop : d.extractLsb' 0 8 = d.setWidth 8 := (BitVec.setWidth_eq_extractLsb' (by decide)).symm
  refine ⟨_, exec_hwr_reg_of_idle hb .cmd d, ?_, rfl⟩
  rw [hop]
  rfl

/-! How a command fails (R132, R230, R231). -/

section
variable {s : State}

theorem checkDimensions_eq_badConfig (h : s.imgW = 0 ∨ s.imgH = 0 ∨ s.cfg.maxPix < s.imgW * s.imgH) :
    checkDimensions s = some .badConfig := if_pos h

theorem checkSequence_eq_badSequence {p : PState} (h : s.pstate ≠ p) : checkSequence p s = some .badSequence :=
  if_neg h

theorem checkChannels_eq_invalidChannelCount (h : s.channels ≠ 3) : checkChannels s = some .invalidChannelCount :=
  if_neg h

theorem checkKernel_eq_invalidKernelSize
    (h : s.ksize.toNat % 2 = 0 ∨ s.ksize.toNat < 3 ∨ 7 < s.ksize.toNat ∨ s.imgW < s.ksize.toNat ∨
      s.imgH < s.ksize.toNat) : checkKernel s = some .invalidKernelSize := if_pos h

theorem checkMinimum_eq_dimensionTooSmall (h : s.imgW < 3 ∨ s.imgH < 3) :
    checkMinimum s = some .dimensionTooSmall := if_pos h

theorem checkThresholds_eq_invalidThresholds (h : s.threshHigh.toNat ≤ s.threshLow.toNat) :
    checkThresholds s = some .invalidThresholds := if_pos h

end

/-- The first check that applies gives the code (R230). -/
theorem firstError_of_some {c : Option ErrCode} {e : ErrCode} (h : c = some e) (rest : List (Option ErrCode)) :
    firstError (c :: rest) = some e := by rw [h, firstError_cons_some]

/-- A check that passes leaves the decision to those after it. -/
theorem firstError_of_none {c : Option ErrCode} {e : ErrCode} {rest : List (Option ErrCode)} (h : c = none)
    (hrest : firstError rest = some e) : firstError (c :: rest) = some e := by
  rw [h, firstError_cons_none, hrest]

/-- A command in execution whose checks give an error fails with it and has no other effect (R231). -/
theorem failsWith_of_checks {op : BitVec 8} {i : Instr} {c : State → Option ErrCode} {f : State → State} {s : State}
    {e : ErrCode} (hf : CommandIs op i c f) (hb : s.busy = true) (hc : c s = some e) : FailsWith i s e := by
  rw [FailsWith, exec_command hf, hc, complete_fail hb]
  rfl

/-- Check 2 is the first check of every command (R132). -/
theorem failsWith_badConfig {op : BitVec 8} {i : Instr} {c : State → Option ErrCode} {f : State → State} {s : State}
    (hf : CommandIs op i c f) (hb : s.busy = true)
    (h : s.imgW = 0 ∨ s.imgH = 0 ∨ s.cfg.maxPix < s.imgW * s.imgH) : FailsWith i s .badConfig := by
  refine failsWith_of_checks hf hb ?_
  have hdim := checkDimensions_eq_badConfig h
  cases hf <;> exact firstError_of_some hdim _

/-- Settles O33, check by check in the order of R132. -/
theorem preprocessorErrors : Obligations.PreprocessorErrors := by
  intro s hb k badKernel
  refine ⟨fun hd => ?_, fun hfit hch => ?_, fun hfit hk => ?_, fun hfit hch hk => ?_⟩
  · exact ⟨failsWith_badConfig (.gray rfl) hb hd, failsWith_badConfig (.smooth rfl) hb hd,
      failsWith_badConfig (.preprocess rfl) hb hd⟩
  · have hdim := checkDimensions_eq_none.2 hfit
    have hchannels := checkChannels_eq_invalidChannelCount hch
    exact ⟨failsWith_of_checks (.gray rfl) hb (firstError_of_none hdim (firstError_of_some hchannels _)),
      failsWith_of_checks (.preprocess rfl) hb (firstError_of_none hdim (firstError_of_some hchannels _))⟩
  · exact failsWith_of_checks (.smooth rfl) hb (firstError_of_none (checkDimensions_eq_none.2 hfit)
      (firstError_of_some (checkKernel_eq_invalidKernelSize hk) _))
  · exact failsWith_of_checks (.preprocess rfl) hb (firstError_of_none (checkDimensions_eq_none.2 hfit)
      (firstError_of_none (checkChannels_eq_none.2 hch) (firstError_of_some (checkKernel_eq_invalidKernelSize hk) _)))

/-- Settles O34, check by check in the order of R132. -/
theorem edgeDetectorErrors : Obligations.EdgeDetectorErrors := by
  intro s hb small fallen
  refine ⟨fun hd => ?_, fun hfit hsmall => ?_, fun hfit hp => ?_, fun hfit hp => ?_, fun hfit hp hthr => ?_,
    fun hfit hbig hthr => ?_⟩
  · exact ⟨failsWith_badConfig (.gradient rfl) hb hd, failsWith_badConfig (.nms rfl) hb hd,
      failsWith_badConfig (.hyst rfl) hb hd, failsWith_badConfig (.detect rfl) hb hd⟩
  · have hdim := checkDimensions_eq_none.2 hfit
    have hmin := checkMinimum_eq_dimensionTooSmall hsmall
    exact ⟨failsWith_of_checks (.gradient rfl) hb (firstError_of_none hdim (firstError_of_some hmin _)),
      failsWith_of_checks (.detect rfl) hb (firstError_of_none hdim (firstError_of_some hmin _))⟩
  · exact failsWith_of_checks (.nms rfl) hb (firstError_of_none (checkDimensions_eq_none.2 hfit)
      (firstError_of_some (checkSequence_eq_badSequence hp) _))
  · exact failsWith_of_checks (.hyst rfl) hb (firstError_of_none (checkDimensions_eq_none.2 hfit)
      (firstError_of_some (checkSequence_eq_badSequence hp) _))
  · exact failsWith_of_checks (.hyst rfl) hb (firstError_of_none (checkDimensions_eq_none.2 hfit)
      (firstError_of_none (checkSequence_eq_none.2 hp)
        (firstError_of_some (checkThresholds_eq_invalidThresholds hthr) _)))
  · have hmin : s.AtLeast3x3 := by simpa [small] using hbig
    exact failsWith_of_checks (.detect rfl) hb (firstError_of_none (checkDimensions_eq_none.2 hfit)
      (firstError_of_none (checkMinimum_eq_none.2 hmin)
        (firstError_of_some (checkThresholds_eq_invalidThresholds hthr) _)))

/-! Completion under traffic (R135). -/

@[simp] theorem State.regWrite_pending (s : State) (g : Reg) (d : Word) : (s.regWrite g d).pending = s.pending := by
  rw [regWrite_eq]

theorem command_pending {op : BitVec 8} {i : Instr} {c : State → Option ErrCode} {f : State → State}
    (h : CommandIs op i c f) (s : State) : (f s).pending = s.pending := by rw [command_frame h s]

/-- No event adds or drops another: the list of events is the outside world's (log entry 4). -/
theorem eventResult_pending {u : State} {e : Event} {t : State} (hr : EventResult u e t) : t.pending = u.pending := by
  cases hr with
  | wroteRegister g => simp
  | succeeded _ hf => exact command_pending hf u
  | answered | wroteWord | idled | failed | wasReset => rfl

/-- No transaction ends a command in execution (R139). -/
theorem eventResult_host_busy {u : State} {r : Request} {t : State} (hb : u.busy = true)
    (hr : EventResult u (.host r) t) : t.busy = true := by
  cases hr with
  | answered => exact hb
  | wroteWord _ _ _ hidle => simp [hb] at hidle
  | wroteRegister g => simp [hb]

/-- The engine's turn ends a command in execution (R133). -/
theorem eventResult_engine_completes {u t : State} (hb : u.busy = true) (hr : EventResult u .engine t) :
    t.busy = false ∧ t.done = true := by
  cases hr with
  | idled hidle => simp [hb] at hidle
  | failed | succeeded => exact ⟨rfl, rfl⟩

/-- A transaction at the front is one step, which leaves a command in execution and the events after it. -/
theorem step_host_of_busy {s : State} {r : Request} {rest : List Event} (hb : s.busy = true)
    (hp : s.pending = .host r :: rest) : ∃ t, step s = .next t ∧ t.busy = true ∧ t.pending = rest := by
  obtain ⟨t, ht⟩ := exec_isNext (decodeRequest r) { s with pending := rest }
  have hr := eventResult_host ht
  exact ⟨t, (step_of_pending hp).trans ht, eventResult_host_busy (u := { s with pending := rest }) hb hr,
    eventResult_pending hr⟩

/-- Settles O39, by induction on the traffic. -/
theorem commandsCompleteUnderAnyTraffic : Obligations.CommandsCompleteUnderAnyTraffic := by
  intro s traffic hb hp
  induction traffic generalizing s with
  | nil =>
    obtain ⟨t, ht, hr⟩ := engineTurn_eventResult s
    obtain ⟨hidle, hdone⟩ := eventResult_engine_completes hb hr
    exact ⟨t, stepN_of_step ((step_of_none_pending hp).trans ht), hidle, hdone, (eventResult_pending hr).trans hp⟩
  | cons r rest ih =>
    obtain ⟨u, hu, hbu, hpu⟩ := step_host_of_busy hb hp
    obtain ⟨t, ht, hdone⟩ := ih u hbu hpu
    exact ⟨t, (stepN_of_step hu).trans ht, hdone⟩

end Sys2Proof.Machine

/-! Composition and determinism (R136, R137): a composite command is its stages in order, and `DETECT` is a function of
its input that leaves nothing more to do. -/

namespace Sys2Proof.Machine

/-! A command started and completed, as one function of the state (R131, R133). -/

/-- The state with what the start by a write of `CMD` and a successful completion leave around the command's own effect,
and with the events still to happen. -/
def State.ran (s : State) (op : BitVec 8) (pending : List Event) : State :=
  { s with op := op, busy := false, done := true, err := .none, resp := some ⟨false, 0⟩, pending := pending }

section
variable {op : BitVec 8} {i : Instr} {c : State → Option ErrCode} {f : State → State}

/-- No command's effect reads what a run leaves around it. -/
theorem command_ran (hf : CommandIs op i c f) (s : State) (o : BitVec 8) (p : List Event) :
    f (s.ran o p) = (f s).ran o p := by
  cases hf <;> rfl

/-- No command's checks read what a run leaves around it. -/
theorem checks_ran (hf : CommandIs op i c f) (s : State) (o : BitVec 8) (p : List Event) : c (s.ran o p) = c s := by
  cases hf <;> rfl

/-- The start of a command is invisible to its checks. -/
theorem checks_started (hf : CommandIs op i c f) (s : State) (o : BitVec 8) (p : List Event) :
    c ({ s with pending := p }.startCommand o).accept = c s := by
  cases hf <;> rfl

/-- A command's effect between its start and its completion. -/
theorem succeed_started (hf : CommandIs op i c f) (s : State) (o : BitVec 8) (p : List Event) :
    (f ({ s with pending := p }.startCommand o).accept).succeedCommand = (f s).ran o p := by
  cases hf <;> rfl

/-- An idle core runs a command whose checks pass in two steps. -/
theorem stepN_ran {s : State} {o : Word} {rest : List Event} {n : Nat} (hf : CommandIs (o.setWidth 8) i c f)
    (hd : opcodeOf i = some (o.setWidth 8)) (hb : s.busy = false) (hc : c s = none) :
    stepN (n + 2) { s with pending := hostCommand o :: .engine :: rest } =
      stepN n ((f s).ran (o.setWidth 8) rest) :=
  (stepN_command (s := { s with pending := hostCommand o :: .engine :: rest }) hf (decodeOpcode_eq_ok_iff.2 hd) hb rfl
    rfl ((checks_started hf s _ rest).trans hc)).trans (congrArg (stepN n) (succeed_started hf s _ rest))

/-- The next command runs from the effect of those before it. -/
theorem stepN_ran_ran {s : State} {o : Word} {o₀ : BitVec 8} {rest : List Event} {n : Nat}
    (hf : CommandIs (o.setWidth 8) i c f) (hd : opcodeOf i = some (o.setWidth 8)) (hc : c s = none) :
    stepN (n + 2) (s.ran o₀ (hostCommand o :: .engine :: rest)) = stepN n ((f s).ran (o.setWidth 8) rest) := by
  have hrun := stepN_ran (s := s.ran o₀ []) (rest := rest) (n := n) hf hd rfl ((checks_ran hf s o₀ []).trans hc)
  rw [command_ran hf] at hrun
  exact hrun

end

/-- Settles O35: both schedules end in the smooth stage of the grey stage. -/
theorem preprocessIsGrayThenSmooth : Obligations.PreprocessIsGrayThenSmooth := by
  intro s hb hfit hch hk
  refine ⟨s.grayStage.smoothStage.ran 2 [], ?_, ?_, rfl, rfl⟩
  · rw [stepN_ran (o := 1) (.gray rfl) rfl hb (checksGray_eq_none.2 ⟨hfit, hch⟩),
      stepN_ran_ran (s := s.grayStage) (o := 2) (.smooth rfl) rfl (checksSmooth_eq_none.2 ⟨hfit, hk⟩)]
    rfl
  · rw [stepN_ran (o := 3) (.preprocess rfl) rfl hb (checksPreprocess_eq_none.2 ⟨hfit, hch, hk⟩)]
    rfl

/-- The three stages of the EdgeDetector in order (R195). -/
def State.detectStages (s : State) : State :=
  s.gradientStage.suppressStage.thresholdStage.withPstate .thresholded

/-- The stage states in between are overwritten (R30). -/
theorem stages_with_pstates_eq_detectStages (s : State) :
    (((s.gradientStage.withPstate .gradient).suppressStage.withPstate .suppressed).thresholdStage.withPstate
      .thresholded) = s.detectStages := by
  rw [suppressStage_withPstate, thresholdStage_withPstate, thresholdStage_withPstate]
  rfl

/-- Settles O36: both schedules end in the three stages, each reading what the one before it wrote. -/
theorem detectIsItsThreeStages : Obligations.DetectIsItsThreeStages := by
  intro s hb hfit hmin hthr
  refine ⟨s.detectStages.ran 6 [], ?_, ?_, rfl, rfl⟩
  · rw [stepN_ran (o := 4) (.gradient rfl) rfl hb (checksGradient_eq_none.2 ⟨hfit, hmin⟩),
      stepN_ran_ran (s := s.gradientStage.withPstate .gradient) (o := 5) (.nms rfl) rfl
        (checksNms_eq_none.2 ⟨by simpa, rfl⟩),
      stepN_ran_ran (s := (s.gradientStage.withPstate .gradient).suppressStage.withPstate .suppressed) (o := 6)
        (.hyst rfl) rfl (checksHyst_eq_none.2 ⟨by simpa, rfl, by simpa⟩),
      stages_with_pstates_eq_detectStages]
    rfl
  · rw [stepN_ran (o := 7) (.detect rfl) rfl hb (checksDetect_eq_none.2 ⟨hfit, hmin, hthr⟩)]
    rfl

/-- `DETECT` in execution, when its checks pass (R195). -/
theorem exec_detect_of_ready {s : State} (h : s.DetectReady) :
    exec .detect s = .next s.detectStages.succeedCommand := by
  obtain ⟨hb, hchecks⟩ := h
  rw [exec_detect, checksDetect_eq_none.2 hchecks, complete_succeed hb]
  rfl

/-! A stage whose output is already there leaves the state as it is. -/

section
variable {s u : State}

theorem imgW_congr (hw : u.width = s.width) : u.imgW = s.imgW := by rw [State.imgW, hw, State.imgW]

theorem imgH_congr (hh : u.height = s.height) : u.imgH = s.imgH := by rw [State.imgH, hh, State.imgH]

theorem pixels_congr (hw : u.width = s.width) (hh : u.height = s.height) : u.pixels = s.pixels := by
  rw [State.pixels, imgW_congr hw, imgH_congr hh, State.pixels]

/-- `u` reads in `BUF_SMOOTH` what `s` reads, within the image. -/
def SameSmoothImage (s u : State) : Prop := ∀ n < s.pixels, u.sample .smooth n = s.sample .smooth n

theorem gradientStage_eq_self (hw : u.width = s.width) (hh : u.height = s.height) (hs : SameSmoothImage s u)
    (hm : u.fldMag2 = s.gradientStage.fldMag2) (hd : u.fldDir = s.gradientStage.fldDir) : u.gradientStage = u := by
  have hmag : ∀ n < s.pixels, BitVec.ofNat 32 (mag2Of (u.gxAt n) (u.gyAt n)) =
      BitVec.ofNat 32 (mag2Of (s.gxAt n) (s.gyAt n)) := fun n hn => by
    obtain ⟨hx, hy⟩ := gxAt_congr hw hh hs hn
    rw [hx, hy]
  have hdir : ∀ n < s.pixels, dirOf (u.gxAt n) (u.gyAt n) = dirOf (s.gxAt n) (s.gyAt n) := fun n hn => by
    obtain ⟨hx, hy⟩ := gxAt_congr hw hh hs hn
    rw [hx, hy]
  have hfillMag : sparseFill u.fldMag2 0 u.pixels (fun n => BitVec.ofNat 32 (mag2Of (u.gxAt n) (u.gyAt n))) =
      u.fldMag2 := by
    rw [pixels_congr hw hh, hm, State.gradientStage_fldMag2, sparseFill_congr hmag, sparseFill_fill]
  have hfillDir : sparseFill u.fldDir 0 u.pixels (fun n => dirOf (u.gxAt n) (u.gyAt n)) = u.fldDir := by
    rw [pixels_congr hw hh, hd, State.gradientStage_fldDir, sparseFill_congr hdir, sparseFill_fill]
  rw [State.gradientStage, hfillMag, hfillDir]

theorem suppressStage_eq_self (hw : u.width = s.width) (hh : u.height = s.height) (he : u.epoch = s.epoch)
    (hm : u.fldMag2 = s.fldMag2) (hd : u.fldDir = s.fldDir) (hq : u.nmsMag2 = s.suppressStage.nmsMag2) :
    u.suppressStage = u := by
  have hfill : sparseFill u.nmsMag2 0 u.pixels (fun n => BitVec.ofNat 32 (u.suppressedAt n)) = u.nmsMag2 := by
    rw [pixels_congr hw hh, hq, State.suppressStage_nmsMag2, funext (suppressedAt_congr hw hh he hm hd),
      sparseFill_fill]
  rw [State.suppressStage, hfill]

theorem thresholdStage_eq_self (hw : u.width = s.width) (hh : u.height = s.height)
    (hl : u.threshLow = s.threshLow) (hi : u.threshHigh = s.threshHigh) (hq : ∀ n, u.nmsMag2At n = s.nmsMag2At n)
    (hm : u.mem = s.thresholdStage.mem) : u.thresholdStage = u := by
  have hfill : sparseFill u.mem (Buf.base .edge) u.pixels (fun n => if u.edgeSet.contains n then 255#8 else 0#8) =
      u.mem := by
    rw [pixels_congr hw hh, hm, State.thresholdStage_mem, edgeSet_congr hw hh hl hi hq, sparseFill_fill]
  rw [State.thresholdStage, hfill]

/-- R36: within the capacity `BUF_EDGE` lies past `BUF_SMOOTH`, so the threshold stage leaves its input image alone. -/
theorem thresholdStage_sameSmoothImage (hn : s.pixels ≤ 0x100000) : SameSmoothImage s s.thresholdStage := by
  intro n hlt
  have hout : ¬ (Buf.base .edge ≤ Buf.base .smooth + n ∧ Buf.base .smooth + n < Buf.base .edge + s.pixels) := by
    simp only [Buf.base]
    omega
  rw [State.sample, thresholdStage_byte, if_neg hout, State.sample]

end

/-- Running the three stages on a state that holds their outputs changes nothing, whatever the status fields. -/
theorem detectStages_startCommand_detectStages {s : State} (hn : s.pixels ≤ 0x100000) (o : BitVec 8) :
    (s.detectStages.startCommand o).detectStages = s.detectStages.startCommand o := by
  have hsmooth : SameSmoothImage s (s.detectStages.startCommand o) :=
    thresholdStage_sameSmoothImage (s := s.gradientStage.suppressStage) hn
  have hgradient : (s.detectStages.startCommand o).gradientStage = s.detectStages.startCommand o :=
    gradientStage_eq_self (s := s) (by simp [State.detectStages]) (by simp [State.detectStages]) hsmooth
      (by simp [State.detectStages]) (by simp [State.detectStages])
  have hsuppress : (s.detectStages.startCommand o).suppressStage = s.detectStages.startCommand o := by
    apply suppressStage_eq_self (s := s.gradientStage) <;> simp [State.detectStages]
  have hthreshold : (s.detectStages.startCommand o).thresholdStage = s.detectStages.startCommand o := by
    apply thresholdStage_eq_self (s := s.gradientStage.suppressStage) <;> simp [State.detectStages]
  rw [State.detectStages, hgradient, hsuppress, hthreshold]
  rfl

/-- The stages write nothing that the checks of `DETECT` read. -/
theorem detectReady_startCommand_detectStages {s : State} (h : s.DetectReady) (o : BitVec 8) :
    (s.detectStages.startCommand o).DetectReady := by
  obtain ⟨_, hfit, hmin, hthr⟩ := h
  refine ⟨State.startCommand_busy .., fitsBuffers_congr (s := s) ?_ ?_ ?_ hfit, atLeast3x3_congr (s := s) ?_ ?_ hmin,
    thresholdsRise_congr (s := s) ?_ ?_ hthr⟩ <;> simp [State.detectStages]

/-- The state with its last command in execution again is its start with the opcode it has. -/
theorem startCommand_op (s : State) : s.startCommand s.op = { s with busy := true, done := false, err := .none } := rfl

theorem startCommand_succeedCommand (s : State) (o : BitVec 8) :
    s.succeedCommand.startCommand o = s.startCommand o := rfl

/-- A state that a completion leaves is the same after a start with its own opcode and another completion. -/
theorem succeedCommand_startCommand_op (s : State) : (s.startCommand s.op).succeedCommand = s.succeedCommand := rfl

/-- Settles O37: the second run finds every output it would write. -/
theorem detectIsIdempotent : Obligations.DetectIsIdempotent := by
  intro s hready hwf
  have hn : s.pixels ≤ 0x100000 := by
    obtain ⟨_, ⟨_, _, hcap⟩, _⟩ := hready
    exact hcap.trans (maxPix_le_of_wellFormed hwf)
  refine ⟨_, exec_detect_of_ready hready, ?_⟩
  rw [← startCommand_op, State.succeedCommand_op, startCommand_succeedCommand,
    exec_detect_of_ready (detectReady_startCommand_detectStages hready _), detectStages_startCommand_detectStages hn,
    succeedCommand_startCommand_op]

/-! Each stage's output depends on its input within the image only. -/

section
variable {s u : State}

theorem gradientStage_congr (hw : u.width = s.width) (hh : u.height = s.height) (hs : SameSmoothImage s u) {n : Nat}
    (hn : n < s.pixels) :
    u.gradientStage.fldMag2At n = s.gradientStage.fldMag2At n ∧
      u.gradientStage.fldDirAt n = s.gradientStage.fldDirAt n := by
  obtain ⟨hx, hy⟩ := gxAt_congr hw hh hs hn
  rw [gradientStage_fldMag2At, gradientStage_fldMag2At, gradientStage_fldDirAt, gradientStage_fldDirAt,
    pixels_congr hw hh, if_pos hn, if_pos hn, if_pos hn, if_pos hn, hx, hy]
  exact ⟨rfl, rfl⟩

/-- The neighbours of a pixel off the outer ring are pixels of the image (R187). -/
theorem offsetIndex_lt {w h x y : Nat} {dx dy : Int} (hb : onBorder w h x y = false) (hx : x < w) (hy : y < h)
    (hdx : -1 ≤ dx ∧ dx ≤ 1) (hdy : -1 ≤ dy ∧ dy ≤ 1) : offsetIndex w x y dx dy < w * h := by
  have hin : ¬ (x = 0 ∨ y = 0 ∨ x + 1 = w ∨ y + 1 = h) := fun h' => by simp [onBorder_eq_true.2 h'] at hb
  rw [offsetIndex_eq (a := (x + dx).toNat) (b := (y + dy).toNat) (by omega) (by omega)]
  exact pixelIndex_lt (by omega) (by omega)

theorem dirOffset_range (d : BitVec 2) :
    (-1 ≤ (dirOffset d).1 ∧ (dirOffset d).1 ≤ 1) ∧ -1 ≤ (dirOffset d).2 ∧ (dirOffset d).2 ≤ 1 := by
  revert d
  decide

/-- The suppression of a pixel reads the field within the image only (R187). -/
theorem nmsPx_congr {mag mag' : Nat → Nat} {dir dir' : Nat → BitVec 2} {w h x y : Nat} (hx : x < w) (hy : y < h)
    (hm : ∀ n < w * h, mag n = mag' n) (hd : ∀ n < w * h, dir n = dir' n) :
    nmsPx mag dir w h x y = nmsPx mag' dir' w h x y := by
  have hlt := pixelIndex_lt hx hy
  unfold nmsPx
  rw [hm _ hlt, hd _ hlt]
  cases hb : onBorder w h x y with
  | true => rfl
  | false =>
    obtain ⟨hdx, hdy⟩ := dirOffset_range (dir' (y * w + x))
    dsimp only
    rw [hm _ (offsetIndex_lt hb hx hy hdx hdy), hm _ (offsetIndex_lt hb hx hy (by omega) (by omega))]

theorem suppressStage_congr (hw : u.width = s.width) (hh : u.height = s.height)
    (hm : ∀ n < s.pixels, u.fldMag2At n = s.fldMag2At n) (hd : ∀ n < s.pixels, u.fldDirAt n = s.fldDirAt n) {n : Nat}
    (hn : n < s.pixels) : u.suppressStage.nmsMag2At n = s.suppressStage.nmsMag2At n := by
  obtain ⟨hx, hy, _⟩ := pixelIndex_surj hn
  have hat : u.suppressedAt n = s.suppressedAt n := by
    rw [State.suppressedAt, State.suppressedAt, imgW_congr hw, imgH_congr hh]
    exact nmsPx_congr hx hy (fun m hlt => congrArg BitVec.toNat (hm m hlt)) hd
  rw [suppressStage_nmsMag2At, suppressStage_nmsMag2At, pixels_congr hw hh, if_pos hn, if_pos hn, hat]

/-- The edge set depends on the magnitudes within the image only (R192). -/
theorem edgePixel_congr {w h low high : Nat} {q q' : Nat → Nat → Nat} (hq : ∀ x < w, ∀ y < h, q x y = q' x y)
    {x y : Nat} (he : EdgePixel w h low high q x y) : EdgePixel w h low high q' x y := by
  induction he with
  | strong hx hy hs => exact .strong hx hy (hq _ hx _ hy ▸ hs)
  | weak hx hy hl hh _ hne h1 h2 h3 h4 ih =>
    rw [hq _ hx _ hy] at hl hh
    exact .weak hx hy hl hh ih hne h1 h2 h3 h4

theorem isEdge_congr (hw : u.width = s.width) (hh : u.height = s.height) (hl : u.threshLow = s.threshLow)
    (hi : u.threshHigh = s.threshHigh) (hq : ∀ n < s.pixels, u.nmsMag2At n = s.nmsMag2At n) (x y : Nat) :
    u.IsEdge x y ↔ s.IsEdge x y := by
  have hmag (a : Nat) (ha : a < s.imgW) (b : Nat) (hb : b < s.imgH) :
      (u.nmsMag2At (b * s.imgW + a)).toNat = (s.nmsMag2At (b * s.imgW + a)).toNat :=
    congrArg BitVec.toNat (hq _ (pixelIndex_lt ha hb))
  rw [State.IsEdge, State.IsEdge, imgW_congr hw, imgH_congr hh, hl, hi]
  exact ⟨edgePixel_congr hmag, edgePixel_congr fun a ha b hb => (hmag a ha b hb).symm⟩

theorem thresholdStage_congr (hw : u.width = s.width) (hh : u.height = s.height) (hl : u.threshLow = s.threshLow)
    (hi : u.threshHigh = s.threshHigh) (hq : ∀ n < s.pixels, u.nmsMag2At n = s.nmsMag2At n) {n : Nat}
    (hn : n < s.pixels) : u.thresholdStage.sample .edge n = s.thresholdStage.sample .edge n := by
  obtain ⟨hx, hy, he⟩ := pixelIndex_surj hn
  obtain ⟨hon, hoff⟩ := thresholdStage_edgeMap s _ _ hx hy
  obtain ⟨hon', hoff'⟩ := thresholdStage_edgeMap u (n % s.imgW) (n / s.imgW) (by rwa [imgW_congr hw])
    (by rwa [imgH_congr hh])
  rw [isEdge_congr hw hh hl hi hq, imgW_congr hw, he] at hon' hoff'
  rw [he] at hon hoff
  by_cases hedge : s.IsEdge (n % s.imgW) (n / s.imgW)
  · rw [hon hedge, hon' hedge]
  · rw [hoff hedge, hoff' hedge]

end

/-- Settles O38, stage by stage: each output within the image is a function of the stage's input within the image. -/
theorem detectDependsOnlyOnItsInput : Obligations.DetectDependsOnlyOnItsInput := by
  intro s u hs hu hw hh hl hi hsmooth
  have hgradient {n} (hn : n < s.pixels) := gradientStage_congr hw.symm hh.symm (fun n hn => (hsmooth n hn).symm) hn
  have hsuppress {n} (hn : n < s.pixels) := suppressStage_congr (s := s.gradientStage) (u := u.gradientStage)
    (by simp [hw]) (by simp [hh]) (fun _ hn => (hgradient hn).1) (fun _ hn => (hgradient hn).2) hn
  have hthreshold {n} (hn : n < s.pixels) := thresholdStage_congr (s := s.gradientStage.suppressStage)
    (u := u.gradientStage.suppressStage) (by simp [hw]) (by simp [hh]) (by simp [hl]) (by simp [hi])
    (fun _ hn => hsuppress hn) hn
  refine ⟨_, _, exec_detect_of_ready hs, exec_detect_of_ready hu, fun n hn => ?_⟩
  obtain ⟨hmag, hdir⟩ := hgradient hn
  simp [State.detectStages, hthreshold hn, hsuppress hn, hmag, hdir]

end Sys2Proof.Machine

/-! The rules of spec file 42_preprocess.md: the rounding of the grey function, what `GRAY`, `SMOOTH` and `PREPROCESS`
leave in their output buffers, and the bounds of a normalised kernel. -/

namespace Sys2Proof.Machine

/-! The grey function (R152). -/

section
variable {cfg : Config.Params}

theorem gden_pos_of_wellFormed (h : cfg.WellFormed = true) : 0 < cfg.gden := by
  simp only [Config.Params.WellFormed, Config.Params.denominatorPositive, Bool.and_eq_true, decide_eq_true_eq] at h
  exact h.2

theorem grayAcc_same (cfg : Config.Params) (v : Nat) : grayAcc cfg v v v = cfg.gden * v := by
  rw [grayAcc, Config.Params.gden, Nat.add_mul, Nat.add_mul]

/-- The weights sum to `GDEN`, so the weighted sum of samples is at most that of the largest. -/
theorem grayAcc_le {c0 c1 c2 : Nat} (h0 : c0 ≤ 255) (h1 : c1 ≤ 255) (h2 : c2 ≤ 255) :
    grayAcc cfg c0 c1 c2 ≤ cfg.gden * 255 := by
  rw [← grayAcc_same]
  exact Nat.add_le_add (Nat.add_le_add (Nat.mul_le_mul_left _ h0) (Nat.mul_le_mul_left _ h1))
    (Nat.mul_le_mul_left _ h2)

/-- Over samples the clamp of the grey function never engages. -/
theorem grayPx_eq_div (hg : 0 < cfg.gden) {c0 c1 c2 : Nat} (h0 : c0 ≤ 255) (h1 : c1 ≤ 255) (h2 : c2 ≤ 255) :
    grayPx cfg c0 c1 c2 = (2 * grayAcc cfg c0 c1 c2 + cfg.gden) / (2 * cfg.gden) := by
  have hacc := grayAcc_le (cfg := cfg) h0 h1 h2
  have hlt : (2 * grayAcc cfg c0 c1 c2 + cfg.gden) / (2 * cfg.gden) < 256 :=
    Nat.div_lt_of_lt_mul (by omega)
  exact Nat.min_eq_left (Nat.le_of_lt_succ hlt)

/-- The grey sample is the integer nearest the weighted mean, the upper one at a tie. -/
theorem grayPx_nearest (hg : 0 < cfg.gden) {c0 c1 c2 : Nat} (h0 : c0 ≤ 255) (h1 : c1 ≤ 255) (h2 : c2 ≤ 255) :
    2 * cfg.gden * grayPx cfg c0 c1 c2 ≤ 2 * grayAcc cfg c0 c1 c2 + cfg.gden ∧
      2 * grayAcc cfg c0 c1 c2 + cfg.gden < 2 * cfg.gden * (grayPx cfg c0 c1 c2 + 1) := by
  rw [grayPx_eq_div hg h0 h1 h2]
  exact ⟨Nat.mul_div_le _ _, Nat.lt_mul_div_succ _ (by omega)⟩

theorem grayPx_same (hg : 0 < cfg.gden) {v : Nat} (hv : v ≤ 255) : grayPx cfg v v v = v := by
  obtain ⟨hlow, hhigh⟩ := grayPx_nearest hg hv hv hv
  rw [grayAcc_same, ← Nat.mul_assoc] at hlow hhigh
  have hle : grayPx cfg v v v < v + 1 :=
    Nat.lt_of_mul_lt_mul_left (a := 2 * cfg.gden) (by rw [Nat.mul_succ]; omega)
  have hge : v < grayPx cfg v v v + 1 := Nat.lt_of_mul_lt_mul_left (a := 2 * cfg.gden) (by omega)
  omega

end

/-- Settles O51: legal weights have a positive sum, so the quotient is the nearest integer and stays a sample. -/
theorem greyRoundsToNearest : Obligations.GreyRoundsToNearest := by
  intro cfg hwf
  have hg := gden_pos_of_wellFormed hwf
  exact ⟨fun _ h0 _ h1 _ h2 => grayPx_nearest hg h0 h1 h2, fun _ hv => grayPx_same hg hv⟩

/-! The three commands (R153, R157, R159). -/

/-- A command in execution whose checks pass leaves its effect, completed (R133). -/
theorem exec_command_of_checks {op : BitVec 8} {i : Instr} {c : State → Option ErrCode} {f : State → State}
    {s : State} (hf : CommandIs op i c f) (hb : s.busy = true) (hc : c s = none) :
    exec i s = .next (f s).succeedCommand := by
  rw [exec_command hf, hc, complete_succeed hb]

/-- `SMOOTH` in execution, when its checks pass (R157). -/
theorem exec_smooth_of_ready {s : State} (h : s.SmoothReady) :
    exec .smooth s = .next s.smoothStage.succeedCommand := by
  obtain ⟨hb, hchecks⟩ := h
  exact exec_command_of_checks (.smooth rfl) hb (checksSmooth_eq_none.2 hchecks)

/-- Settles O26: the completed grey stage. -/
theorem grayResult : Obligations.GrayResult := by
  rintro s ⟨hb, hchecks⟩
  exact ⟨_, exec_command_of_checks (.gray rfl) hb (checksGray_eq_none.2 hchecks), rfl, grayStage_image s,
    fun _ ha => by_contra fun h => ha (grayStage_byte_ne h)⟩

/-- Settles O27: the completed smooth stage. -/
theorem smoothResult : Obligations.SmoothResult := by
  intro s hready
  have ⟨_, _, hkernel⟩ := hready
  exact ⟨_, exec_smooth_of_ready hready, rfl, smoothStage_image s hkernel,
    fun _ ha => by_contra fun h => ha (smoothStage_byte_ne h)⟩

/-- R36: within the capacity `BUF_GRAY` ends before `BUF_SMOOTH`, so the smooth stage leaves its input image alone. -/
theorem smoothStage_sample_gray {s : State} (hcap : s.pixels ≤ 0x100000) {n : Nat} (hn : n < s.pixels) :
    s.smoothStage.sample .gray n = s.sample .gray n := by
  have hout : ¬ (Buf.base .smooth ≤ Buf.base .gray + n ∧ Buf.base .gray + n < Buf.base .smooth + s.pixels) := by
    simp only [Buf.base]
    omega
  rw [State.sample, smoothStage_byte, if_neg hout, State.sample]

/-- The smoothed sample depends on the dimensions, the kernel and the image in `BUF_GRAY` only (R156). -/
theorem blurOf_congr {s t : State} (hw : t.width = s.width) (hh : t.height = s.height) (hk : t.ksize = s.ksize)
    (hshift : t.kshift = s.kshift) (hcoef : t.kcoef = s.kcoef) (hne : s.imgW ≠ 0 ∧ s.imgH ≠ 0)
    (hgray : ∀ n < s.imgW * s.imgH, t.sample .gray n = s.sample .gray n) (x y : Nat) :
    t.blurOf x y = s.blurOf x y := by
  have hsum : t.blurSum x y = s.blurSum x y := by
    simp only [State.blurSum, State.coef, State.kcoefBits, hk, hcoef, replicated_congr hw hh hne hgray]
  rw [State.blurOf, State.blurOf, hsum, hshift]

/-- Settles O28: the smooth stage reads the grey image that the grey stage wrote, and does not overwrite it. -/
theorem preprocessResult : Obligations.PreprocessResult := by
  rintro s ⟨hb, hchecks⟩ hwf
  have ⟨⟨hw, hh, hfit⟩, _, hkernel⟩ := hchecks
  have hcap : s.pixels ≤ 0x100000 := hfit.trans (maxPix_le_of_wellFormed hwf)
  have hgray : ∀ n < s.pixels, s.grayStage.smoothStage.sample .gray n = s.grayStage.sample .gray n :=
    fun n hn => smoothStage_sample_gray (s := s.grayStage) hcap hn
  refine ⟨_, exec_command_of_checks (.preprocess rfl) hb (checksPreprocess_eq_none.2 hchecks), rfl,
    fun x y hx hy => ?_, fun x y hx hy => ?_, fun a hag has => ?_⟩
  · rw [State.succeedCommand_sample, hgray _ (pixelIndex_lt hx hy)]
    exact grayStage_image s x y hx hy
  · rw [blurOf_congr (s := s.grayStage) (t := s.grayStage.smoothStage.succeedCommand) rfl rfl rfl rfl rfl
      ⟨hw, hh⟩ hgray]
    exact smoothStage_image s.grayStage hkernel x y hx hy
  · by_contra hne
    rcases command_byte_ne (.preprocess (op := 3) rfl) hne with ⟨_, hg⟩ | ⟨_, hs⟩ | ⟨hi, _⟩
    · exact hag hg
    · exact has hs
    · simp at hi

/-! A normalised kernel (R158). -/

/-- Two non-negatively weighted square sums compare as their terms do. -/
theorem sum_sum_mul_le {k : Nat} {c u v : Nat → Nat → Int} (hc : ∀ i < k, ∀ j < k, 0 ≤ c i j)
    (huv : ∀ i < k, ∀ j < k, u i j ≤ v i j) :
    ∑ i ∈ Finset.range k, ∑ j ∈ Finset.range k, c i j * u i j ≤
      ∑ i ∈ Finset.range k, ∑ j ∈ Finset.range k, c i j * v i j := by
  refine Finset.sum_le_sum fun i hi => Finset.sum_le_sum fun j hj => ?_
  rw [Finset.mem_range] at hi hj
  exact mul_le_mul_of_nonneg_left (huv i hi j hj) (hc i hi j hj)

theorem sum_sum_mul_const (k : Nat) (c : Nat → Nat → Int) (b : Int) :
    ∑ i ∈ Finset.range k, ∑ j ∈ Finset.range k, c i j * b =
      (∑ i ∈ Finset.range k, ∑ j ∈ Finset.range k, c i j) * b := by
  simp only [Finset.sum_mul]

theorem roundingHalf_range (n : Nat) : 0 ≤ roundingHalf n ∧ roundingHalf n < 2 ^ n := by
  unfold roundingHalf
  split
  · exact ⟨le_rfl, by positivity⟩
  · push_cast
    exact ⟨by positivity, pow_lt_pow_right₀ (by decide) (by omega)⟩

/-- An accumulator between two multiples of the divisor is rounded to a sample between their quotients (R156). -/
theorem blurOf_between {s : State} {x y : Nat} {lo hi : Int} (hlo : 2 ^ s.kshift.toNat * lo ≤ s.blurSum x y)
    (hhi : s.blurSum x y ≤ 2 ^ s.kshift.toNat * hi) (h255 : lo ≤ 255) (h0 : 0 ≤ hi) :
    lo ≤ s.blurOf x y ∧ s.blurOf x y ≤ hi := by
  obtain ⟨hhalf, hhalf'⟩ := roundingHalf_range s.kshift.toNat
  have hpos : (0 : Int) < 2 ^ s.kshift.toNat := by positivity
  have hdef : s.blurOf x y = max 0 (min ((s.blurSum x y + roundingHalf s.kshift.toNat) / 2 ^ s.kshift.toNat) 255) := by
    simp [State.blurOf, roundingHalf]
  have hge : lo ≤ (s.blurSum x y + roundingHalf s.kshift.toNat) / 2 ^ s.kshift.toNat := by
    rw [Int.le_ediv_iff_mul_le hpos, mul_comm]
    omega
  have hlt : (s.blurSum x y + roundingHalf s.kshift.toNat) / 2 ^ s.kshift.toNat < hi + 1 := by
    rw [Int.ediv_lt_iff_lt_mul hpos, mul_comm, mul_add, mul_one]
    omega
  omega

/-- Settles O52: the accumulator lies between `lo * 2^KSHIFT` and `hi * 2^KSHIFT`, and rounding keeps the bounds. -/
theorem normalisedKernelStaysBetweenNeighbours : Obligations.NormalisedKernelStaysBetweenNeighbours := by
  intro s x y lo hi hready hx hy hcoef hsum hbounds
  have ⟨_, _, hkernel⟩ := hready
  have hk := one_le_ksize hkernel
  have hlo : 2 ^ s.kshift.toNat * (lo : Int) ≤ s.blurSum x y := by
    rw [← hsum, ← sum_sum_mul_const]
    exact sum_sum_mul_le hcoef fun _ hik _ hjk => (hbounds _ hik _ hjk).1
  have hhi : s.blurSum x y ≤ 2 ^ s.kshift.toNat * (hi : Int) := by
    rw [← hsum, ← sum_sum_mul_const]
    exact sum_sum_mul_le hcoef fun _ hik _ hjk => (hbounds _ hik _ hjk).2
  have h255 : (lo : Int) ≤ 255 := (hbounds 0 hk 0 hk).1.trans (replicated_range s .gray _ _).2
  obtain ⟨hge, hle⟩ := blurOf_between hlo hhi h255 (Int.natCast_nonneg hi)
  have himage := smoothStage_image s hkernel x y hx hy
  refine ⟨_, exec_smooth_of_ready hready, ?_⟩
  rw [State.succeedCommand_sample]
  omega

end Sys2Proof.Machine

/-! The rules of spec file 43_edge_detect.md: the derivatives and their direction code, thresholds on squared
magnitudes, and what `GRADIENT`, `NMS`, `HYST` and `DETECT` leave in the field buffers and in `BUF_EDGE`. -/

namespace Sys2Proof.Machine

/-! The derivatives (R181 to R183). -/

section
variable {image : Nat → Nat} {w h x y : Nat} {lo hi : Int}

/-- R181: each derivative is a difference of two sums of four neighbours, so it is at most four times the spread of the
samples it reads. -/
theorem abs_gradX_le (hp : ∀ a b, lo ≤ pxc image w h a b ∧ (pxc image w h a b : Int) ≤ hi) :
    |gradX image w h x y| ≤ 4 * (hi - lo) := by
  have p := fun i j : Nat => hp ((x : Int) + j - ((3 - 1) / 2 : Nat)) ((y : Int) + i - ((3 - 1) / 2 : Nat))
  have p00 := p 0 0; have p10 := p 1 0; have p20 := p 2 0
  have p02 := p 0 2; have p12 := p 1 2; have p22 := p 2 2
  simp only [gradX, convolve, sumTo_three, sobelX, List.getD_cons_zero, List.getD_cons_succ]
  rw [abs_le]
  omega

theorem abs_gradY_le (hp : ∀ a b, lo ≤ pxc image w h a b ∧ (pxc image w h a b : Int) ≤ hi) :
    |gradY image w h x y| ≤ 4 * (hi - lo) := by
  have p := fun i j : Nat => hp ((x : Int) + j - ((3 - 1) / 2 : Nat)) ((y : Int) + i - ((3 - 1) / 2 : Nat))
  have p00 := p 0 0; have p01 := p 0 1; have p02 := p 0 2
  have p20 := p 2 0; have p21 := p 2 1; have p22 := p 2 2
  simp only [gradY, convolve, sumTo_three, sobelY, List.getD_cons_zero, List.getD_cons_succ]
  rw [abs_le]
  omega

/-- R182: samples without spread have no derivative, border included. -/
theorem grad_eq_zero_of_pxc_eq {v : Nat} (hp : ∀ a b, pxc image w h a b = v) :
    gradX image w h x y = 0 ∧ gradY image w h x y = 0 := by
  have hv (a b : Int) : (v : Int) ≤ pxc image w h a b ∧ (pxc image w h a b : Int) ≤ v := by simp [hp]
  have hx := abs_gradX_le (x := x) (y := y) hv
  have hy := abs_gradY_le (x := x) (y := y) hv
  rw [sub_self, mul_zero, abs_nonpos_iff] at hx hy
  exact ⟨hx, hy⟩

/-- R182: the squared magnitude of derivatives in range is at most `2 * 1020²`. -/
theorem mag2Of_le_of_abs_le {gx gy : Int} (hx : |gx| ≤ 1020) (hy : |gy| ≤ 1020) : mag2Of gx gy ≤ 2080800 := by
  obtain ⟨hx1, hx2⟩ := abs_le.1 hx
  obtain ⟨hy1, hy2⟩ := abs_le.1 hy
  have hxx := square_range hx1 hx2
  have hyy := square_range hy1 hy2
  unfold mag2Of
  omega

/-- The edge-replicating read stays inside the image (R72). -/
theorem clampedIndex_lt (hw : w ≠ 0) (hh : h ≠ 0) (a b : Int) : clampedIndex w h a b < w * h := by
  unfold clampedIndex
  rw [clampInt_eq (by omega), clampInt_eq (by omega)]
  exact pixelIndex_lt (by omega) (by omega)

end

/-- Settles O53: the spread of 8-bit samples is at most 255, that of a constant image 0. -/
theorem gradientStaysInRange : Obligations.GradientStaysInRange := by
  intro image w h x y
  refine ⟨fun himage => ?_, fun v hv => grad_eq_zero_of_pxc_eq fun _ _ => hv _⟩
  have hp (a b : Int) : (0 : Int) ≤ pxc image w h a b ∧ (pxc image w h a b : Int) ≤ 255 :=
    ⟨Int.natCast_nonneg _, Int.ofNat_le.2 (himage _)⟩
  have hx : |gradX image w h x y| ≤ 1020 := abs_gradX_le hp
  have hy : |gradY image w h x y| ≤ 1020 := abs_gradY_le hp
  have hm := mag2Of_le_of_abs_le hx hy
  exact ⟨hx, hy, hm, hm.trans_lt (by decide)⟩

/-! The direction code (R184). -/

/-- The sector boundary in real numbers: squaring `a + b < √2 * a`. -/
theorem lt_tan_mul_iff {a b : ℝ} (ha : 0 ≤ a) (hb : 0 ≤ b) :
    b < (Real.sqrt 2 - 1) * a ↔ (a + b) ^ 2 < 2 * a ^ 2 := by
  have hroot : Real.sqrt (2 * a ^ 2) = Real.sqrt 2 * a := by
    rw [Real.sqrt_mul zero_le_two, Real.sqrt_sq ha]
  rw [← Real.lt_sqrt (add_nonneg ha hb), hroot, sub_mul, one_mul, lt_sub_iff_add_lt, add_comm]

/-- The boundary test of R184: the gradient lies in the sector around the axis of its component `a`. -/
def NearAxis (a b : Int) : Prop := (|a| + |b|) ^ 2 < 2 * a ^ 2

/-- The boundary test on integers is the comparison with the tangent of 22.5 degrees. -/
theorem nearAxis_iff_lt_tan_mul (a b : Int) : NearAxis a b ↔ |(b : ℝ)| < (Real.sqrt 2 - 1) * |(a : ℝ)| := by
  rw [lt_tan_mul_iff (abs_nonneg _) (abs_nonneg _), sq_abs, NearAxis]
  exact_mod_cast Iff.rfl

section
variable {a b : Int}

/-- The component that passes the boundary test is the longer one. -/
theorem NearAxis.abs_lt_abs (h : NearAxis a b) : |b| < |a| := by
  rw [NearAxis, ← sq_abs a] at h
  nlinarith [abs_nonneg a, abs_nonneg b]

/-- R184: no gradient is near both axes. -/
theorem NearAxis.not_swap (h : NearAxis a b) : ¬ NearAxis b a := fun h' => lt_asymm h.abs_lt_abs h'.abs_lt_abs

/-- A gradient along an axis is near it. -/
theorem nearAxis_of_eq_zero (ha : a ≠ 0) (hb : b = 0) : NearAxis a b := by
  have hpos : 0 < a ^ 2 := by positivity
  rw [NearAxis, hb, abs_zero, add_zero, sq_abs]
  omega

/-- A gradient near neither axis has no zero component. -/
theorem mul_ne_zero_of_not_nearAxis (h0 : ¬ (a = 0 ∧ b = 0)) (ha : ¬ NearAxis a b) (hb : ¬ NearAxis b a) :
    a * b ≠ 0 :=
  mul_ne_zero (fun haz => hb (nearAxis_of_eq_zero (fun hbz => h0 ⟨haz, hbz⟩) haz))
    (fun hbz => ha (nearAxis_of_eq_zero (fun haz => h0 ⟨haz, hbz⟩) hbz))

/-- The direction code of a gradient that is not 0, by the axis it is near. -/
theorem sectorOf_eq_ite [Decidable (NearAxis a b)] [Decidable (NearAxis b a)] (h0 : ¬ (a = 0 ∧ b = 0)) :
    sectorOf a b = if NearAxis a b then 0 else if NearAxis b a then 2 else if 0 < a * b then 1 else 3 := by
  simp [sectorOf, h0, NearAxis, add_comm |b| |a|]

/-- When a gradient that is not 0 has each direction code. -/
theorem sectorOf_iff (h0 : ¬ (a = 0 ∧ b = 0)) :
    (sectorOf a b = 0 ↔ NearAxis a b) ∧
    (sectorOf a b = 2 ↔ NearAxis b a) ∧
    (sectorOf a b = 1 ↔ ¬ NearAxis a b ∧ ¬ NearAxis b a ∧ 0 < a * b) ∧
    (sectorOf a b = 3 ↔ ¬ NearAxis a b ∧ ¬ NearAxis b a ∧ a * b < 0) := by
  classical
  rw [sectorOf_eq_ite h0]
  by_cases hx : NearAxis a b
  · simp [hx, hx.not_swap]
  by_cases hy : NearAxis b a
  · simp [hx, hy]
  have hne := mul_ne_zero_of_not_nearAxis h0 hx hy
  by_cases hpos : 0 < a * b
  · simp [hx, hy, hpos, hpos.le]
  · simp [hx, hy, hpos, lt_of_le_of_ne (not_lt.1 hpos) hne]

theorem sectorOf_neg (a b : Int) : sectorOf (-a) (-b) = sectorOf a b := by
  simp [sectorOf]

end

/-- Settles O55: the code's tests on squares are the sector's tests on real lengths. -/
theorem directionIsTheSectorOfTheAngle : Obligations.DirectionIsTheSectorOfTheAngle := by
  refine ⟨rfl, fun gx gy h0 => ?_⟩
  obtain ⟨hcode0, hcode2, hcode1, hcode3⟩ := sectorOf_iff h0
  simp only [dirOf_eq_sectorOf, sectorOf_neg, hcode0, hcode2, hcode1, hcode3, nearAxis_iff_lt_tan_mul, not_lt, and_self]

/-! Thresholds on squared magnitudes (R183, R191). -/

/-- Settles O56: the square root is monotone, so it compares with a threshold as its square does. -/
theorem thresholdsCompareTheRealMagnitude : Obligations.ThresholdsCompareTheRealMagnitude := by
  intro s n
  have hle (k : Nat) : (k : ℝ) ≤ Real.sqrt ((s.nmsMag2At n).toNat : ℝ) ↔ k ^ 2 ≤ (s.nmsMag2At n).toNat := by
    rw [Real.le_sqrt (Nat.cast_nonneg _) (Nat.cast_nonneg _)]
    exact_mod_cast Iff.rfl
  rw [← not_le (a := (s.threshHigh.toNat : ℝ)), hle, hle, not_le]
  exact ⟨strongAt_iff s n, weakAt_iff s n⟩

/-! The field commands (R185, R188). -/

theorem exec_nms_of_ready {s : State} (h : s.NmsReady) :
    exec .nms s = .next (s.suppressStage.withPstate .suppressed).succeedCommand := by
  obtain ⟨hb, hchecks⟩ := h
  exact exec_command_of_checks (.nms rfl) hb (checksNms_eq_none.2 hchecks)

theorem exec_hyst_of_ready {s : State} (h : s.HystReady) :
    exec .hyst s = .next (s.thresholdStage.withPstate .thresholded).succeedCommand := by
  obtain ⟨hb, hchecks⟩ := h
  exact exec_command_of_checks (.hyst rfl) hb (checksHyst_eq_none.2 hchecks)

/-- The gradient stage writes no entry past the image (R71). -/
theorem gradientStage_field_outside (s : State) {n : Nat} (hn : s.pixels ≤ n) :
    s.gradientStage.fldMag2At n = s.fldMag2At n ∧ s.gradientStage.fldDirAt n = s.fldDirAt n := by
  rw [gradientStage_fldMag2At, gradientStage_fldDirAt, if_neg hn.not_gt, if_neg hn.not_gt]
  exact ⟨rfl, rfl⟩

/-- The suppress stage writes no entry past the image (R71). -/
theorem suppressStage_nmsMag2At_outside (s : State) {n : Nat} (hn : s.pixels ≤ n) :
    s.suppressStage.nmsMag2At n = s.nmsMag2At n := by
  rw [suppressStage_nmsMag2At, if_neg hn.not_gt]

/-- Settles O29: the completed gradient stage. -/
theorem gradientResult : Obligations.GradientResult := by
  rintro s ⟨hb, hchecks⟩
  exact ⟨_, exec_command_of_checks (.gradient rfl) hb (checksGradient_eq_none.2 hchecks), rfl, gradientStage_field s,
    fun _ => rfl, fun _ hn => gradientStage_field_outside s hn⟩

/-- Settles O30: the completed suppress stage. -/
theorem nmsResult : Obligations.NmsResult := fun s hready =>
  ⟨_, exec_nms_of_ready hready, rfl, suppressStage_field s, fun _ => rfl,
    fun _ hn => suppressStage_nmsMag2At_outside s hn⟩

section
variable {s t : State} {x y : Nat}

/-- R188: suppression keeps a magnitude or zeroes it. -/
theorem SuppressedFieldOf.keeps_or_zeroes (h : SuppressedFieldOf s t) (hx : x < s.imgW) (hy : y < s.imgH) :
    t.nmsMag2At (y * s.imgW + x) = s.fldMag2At (y * s.imgW + x) ∨ t.nmsMag2At (y * s.imgW + x) = 0 := by
  obtain ⟨hkeep, hzero⟩ := h x y hx hy
  by_cases hmax : 0 < x ∧ x < s.imgW - 1 ∧ 0 < y ∧ y < s.imgH - 1 ∧
      IsLocalMaximum (fun a b => (s.fldMag2At (b * s.imgW + a)).toNat) (s.fldDirAt (y * s.imgW + x)) x y
  · exact .inl (hkeep hmax)
  · exact .inr (hzero hmax)

/-- R187: the outer ring is no inner pixel, so it is zeroed. -/
theorem SuppressedFieldOf.zero_on_ring (h : SuppressedFieldOf s t) (hx : x < s.imgW) (hy : y < s.imgH)
    (hring : x = 0 ∨ y = 0 ∨ x + 1 = s.imgW ∨ y + 1 = s.imgH) : t.nmsMag2At (y * s.imgW + x) = 0 :=
  (h x y hx hy).2 fun ⟨hx0, hxw, hy0, hyh, _⟩ => by omega

end

/-- Settles O57: both clauses hold of every suppressed field. -/
theorem suppressionNeverAmplifies : Obligations.SuppressionNeverAmplifies := fun s hready =>
  ⟨_, exec_nms_of_ready hready, fun _ _ hx hy =>
    ⟨(suppressStage_field s).keeps_or_zeroes hx hy, (suppressStage_field s).zero_on_ring hx hy⟩⟩

/-! The edge map (R191 to R193). -/

/-- The threshold stage writes no byte outside the image in `BUF_EDGE` (R71). -/
theorem thresholdStage_sameBytesOutside (s : State) : SameBytesOutside .edge s.pixels s s.thresholdStage :=
  fun _ ha => by_contra fun h => ha (thresholdStage_byte_ne h)

/-- Settles O31: the completed threshold stage. -/
theorem hystResult : Obligations.HystResult := fun s hready =>
  ⟨_, exec_hyst_of_ready hready, rfl, thresholdStage_edgeMap s, thresholdStage_sameBytesOutside s⟩

section
variable {w h low high x y : Nat} {q : Nat → Nat → Nat}

/-- Every edge pixel reaches `low`, whichever rule makes it one. -/
theorem EdgePixel.low_le (hlh : low ≤ high) (he : EdgePixel w h low high q x y) : low ^ 2 ≤ q x y := by
  cases he with
  | strong _ _ hs => exact (Nat.pow_le_pow_left hlh 2).trans hs
  | weak _ _ hl => exact hl

/-- Every chain of weak pixels ends in a strong one, so without a strong pixel there is no edge (R192). -/
theorem EdgePixel.exists_strong (he : EdgePixel w h low high q x y) : ∃ a < w, ∃ b < h, high ^ 2 ≤ q a b := by
  induction he with
  | strong hx hy hs => exact ⟨_, hx, _, hy, hs⟩
  | weak _ _ _ _ _ _ _ _ _ _ ih => exact ih

end

/-- A pixel's byte of the edge map, by its index. -/
theorem thresholdStage_sample (s : State) {n : Nat} (hn : n < s.pixels) :
    (s.IsEdge (n % s.imgW) (n / s.imgW) → s.thresholdStage.sample .edge n = 255) ∧
    (¬ s.IsEdge (n % s.imgW) (n / s.imgW) → s.thresholdStage.sample .edge n = 0) := by
  obtain ⟨hx, hy, he⟩ := pixelIndex_surj hn
  have hmap := thresholdStage_edgeMap s _ _ hx hy
  rwa [he] at hmap

/-- Settles O58: the edge map is 255 on the edge set, which holds every strong pixel and none below `low`. -/
theorem edgeMapIsBinaryAndAboveLow : Obligations.EdgeMapIsBinaryAndAboveLow := by
  intro s hready
  have ⟨_, _, _, hrise⟩ := hready
  refine ⟨_, exec_hyst_of_ready hready, fun n hn => ?_⟩
  obtain ⟨hx, hy, he⟩ := pixelIndex_surj hn
  obtain ⟨hon, hoff⟩ := thresholdStage_sample s hn
  refine ⟨?_, fun hlow => hoff fun hedge => ?_, fun hhigh => hon (.strong hx hy ?_)⟩
  · by_cases hedge : s.IsEdge (n % s.imgW) (n / s.imgW)
    · exact .inr (hon hedge)
    · exact .inl (hoff hedge)
  · have hge := EdgePixel.low_le hrise.le hedge
    rw [he] at hge
    exact hlow.not_ge hge
  · rwa [he]

/-! `DETECT` (R195). -/

section
variable (s : State)

@[simp] theorem State.detectStages_imgW : s.detectStages.imgW = s.imgW := by simp [State.detectStages]
@[simp] theorem State.detectStages_imgH : s.detectStages.imgH = s.imgH := by simp [State.detectStages]
@[simp] theorem State.detectStages_fldMag2At (n : Nat) :
    s.detectStages.fldMag2At n = s.gradientStage.fldMag2At n := by simp [State.detectStages]
@[simp] theorem State.detectStages_fldDirAt (n : Nat) :
    s.detectStages.fldDirAt n = s.gradientStage.fldDirAt n := by simp [State.detectStages]
@[simp] theorem State.detectStages_nmsMag2At (n : Nat) :
    s.detectStages.nmsMag2At n = s.gradientStage.suppressStage.nmsMag2At n := by simp [State.detectStages]
@[simp] theorem State.detectStages_byte (a : Nat) :
    s.detectStages.byte a = s.gradientStage.suppressStage.thresholdStage.byte a := by simp [State.detectStages]
@[simp] theorem State.detectStages_sample (b : Buf) (n : Nat) :
    s.detectStages.sample b n = s.gradientStage.suppressStage.thresholdStage.sample b n := by simp [State.detectStages]

/-- The three stages write the stage state, `BUF_EDGE` and the field buffers, nothing else (R195). -/
theorem detectStages_succeedCommand_frame :
    s.detectStages.succeedCommand = { s.completed with
      mem := s.detectStages.mem, fldMag2 := s.detectStages.fldMag2, fldDir := s.detectStages.fldDir
      nmsMag2 := s.detectStages.nmsMag2, pstate := .thresholded } :=
  congrArg State.succeedCommand (command_frame (.detect (op := 7) rfl) s)

theorem detectStages_gradientField : GradientFieldOf s s.detectStages.succeedCommand := by
  intro x y hx hy
  simpa using gradientStage_field s x y hx hy

/-- The suppression is that of the field the gradient stage left, which still stands. -/
theorem detectStages_suppressedField :
    SuppressedFieldOf s.detectStages.succeedCommand s.detectStages.succeedCommand := by
  intro x y hx hy
  rw [State.succeedCommand_imgW, State.detectStages_imgW] at hx
  rw [State.succeedCommand_imgH, State.detectStages_imgH] at hy
  simpa using suppressStage_field s.gradientStage x y hx hy

/-- The edge map is that of the suppression the suppress stage left, which still stands. -/
theorem detectStages_edgeMap : EdgeMapOf s.detectStages.succeedCommand s.detectStages.succeedCommand := by
  intro x y hx hy
  have hedge : s.detectStages.succeedCommand.IsEdge x y ↔ s.gradientStage.suppressStage.IsEdge x y :=
    isEdge_congr (by simp [State.detectStages]) (by simp [State.detectStages]) (by simp [State.detectStages])
      (by simp [State.detectStages]) (by simp) x y
  rw [State.succeedCommand_imgW, State.detectStages_imgW] at hx
  rw [State.succeedCommand_imgH, State.detectStages_imgH] at hy
  rw [hedge]
  simpa using thresholdStage_edgeMap s.gradientStage.suppressStage x y hx hy

theorem detectStages_sameBytesOutside : SameBytesOutside .edge s.pixels s s.detectStages.succeedCommand := by
  intro a ha
  simpa using thresholdStage_sameBytesOutside s.gradientStage.suppressStage a ha

theorem detectStages_field_outside {n : Nat} (hn : s.pixels ≤ n) :
    s.detectStages.fldMag2At n = s.fldMag2At n ∧ s.detectStages.fldDirAt n = s.fldDirAt n ∧
      s.detectStages.nmsMag2At n = s.nmsMag2At n := by
  obtain ⟨hmag, hdir⟩ := gradientStage_field_outside s hn
  have hnms := suppressStage_nmsMag2At_outside s.gradientStage hn
  rw [State.detectStages_fldMag2At, State.detectStages_fldDirAt, State.detectStages_nmsMag2At, hnms]
  exact ⟨hmag, hdir, rfl⟩

end

/-- Settles O32: the gradient stage's output stands under the later stages, and each of them reads the one before it. -/
theorem detectResult : Obligations.DetectResult := fun s hready =>
  ⟨_, exec_detect_of_ready hready, detectStages_succeedCommand_frame s, detectStages_gradientField s,
    detectStages_suppressedField s, detectStages_edgeMap s, detectStages_sameBytesOutside s,
    fun _ hn => detectStages_field_outside s hn⟩

section
variable {s : State} {v : Byte} {n : Nat}

/-- R182: the derivatives read the first `N` bytes of `BUF_SMOOTH` only, so a constant image there has none. -/
theorem gxAt_gyAt_eq_zero_of_constant (hfit : s.FitsBuffers) (hv : ∀ m < s.pixels, s.sample .smooth m = v) (n : Nat) :
    s.gxAt n = 0 ∧ s.gyAt n = 0 := by
  obtain ⟨hw, hh, _⟩ := hfit
  exact grad_eq_zero_of_pxc_eq fun a b => congrArg BitVec.toNat (hv _ (clampedIndex_lt hw hh a b))

theorem gradientStage_zero_of_constant (hfit : s.FitsBuffers) (hv : ∀ m < s.pixels, s.sample .smooth m = v)
    (hn : n < s.pixels) : s.gradientStage.fldMag2At n = 0 ∧ s.gradientStage.fldDirAt n = 0 := by
  obtain ⟨hx, hy⟩ := gxAt_gyAt_eq_zero_of_constant hfit hv n
  rw [gradientStage_fldMag2At, gradientStage_fldDirAt, if_pos hn, if_pos hn, hx, hy]
  exact ⟨rfl, rfl⟩

/-- Suppression of a zero magnitude gives 0. -/
theorem suppressStage_zero (hn : n < s.pixels) (h0 : s.fldMag2At n = 0) : s.suppressStage.nmsMag2At n = 0 := by
  obtain ⟨hx, hy, he⟩ := pixelIndex_surj hn
  have hcases := (suppressStage_field s).keeps_or_zeroes hx hy
  rw [he, h0, or_self] at hcases
  exact hcases

/-- A field of zeros has no strong pixel under an accepted `high`, so its edge map is empty, even where `low` is 0. -/
theorem thresholdStage_zero (hrise : s.ThresholdsRise) (h0 : ∀ m < s.pixels, s.nmsMag2At m = 0) (hn : n < s.pixels) :
    s.thresholdStage.sample .edge n = 0 := by
  refine (thresholdStage_sample s hn).2 fun hedge => ?_
  obtain ⟨a, ha, b, hb, hstrong⟩ := EdgePixel.exists_strong hedge
  have hpos : 0 < s.threshHigh.toNat ^ 2 := Nat.pow_pos (Nat.zero_lt_of_lt hrise)
  rw [h0 _ (pixelIndex_lt ha hb)] at hstrong
  exact hpos.not_ge hstrong

end

/-- Settles O54, stage by stage: zero derivatives, zero magnitudes, zero suppressed magnitudes, no strong pixel. -/
theorem constantImageHasNoEdges : Obligations.ConstantImageHasNoEdges := by
  intro s v hready hv
  have ⟨_, hfit, _, hrise⟩ := hready
  have hfield {n : Nat} (hn : n < s.pixels) := gradientStage_zero_of_constant hfit hv hn
  have hnms (n : Nat) (hn : n < s.pixels) : s.gradientStage.suppressStage.nmsMag2At n = 0 :=
    suppressStage_zero hn (hfield hn).1
  have hedge {n : Nat} (hn : n < s.pixels) : s.gradientStage.suppressStage.thresholdStage.sample .edge n = 0 :=
    thresholdStage_zero (s := s.gradientStage.suppressStage) hrise hnms hn
  refine ⟨_, exec_detect_of_ready hready, fun n hn => ?_⟩
  obtain ⟨hmag, hdir⟩ := hfield hn
  simp [hmag, hdir, hnms n hn, hedge hn]

end Sys2Proof.Machine

/-! Exceptions (spec file 60_exceptions.md): no event stops the machine, and the codes. -/

namespace Sys2Proof.Machine

/-- R232: a transaction is answered or refused on the bus, the engine idles, completes or fails its command, a reset
resets; each leaves the machine in a next state. -/
theorem onEvent_isNext (e : Event) (s : State) : ∃ t, onEvent e s = .next t := by
  cases e with
  | host r => exact exec_isNext (decodeRequest r) s
  | engine =>
    obtain ⟨t, ht, _⟩ := engineTurn_eventResult s
    exact ⟨t, ht⟩
  | reset => exact ⟨s.resetEvent, rfl⟩

/-- Settles O7: a step is its event on the state less that event. -/
theorem everyStepAnswersANextState : Obligations.EveryStepAnswersANextState := fun s =>
  onEvent_isNext s.nextEvent.1 s.nextEvent.2

/-- Settles O13: the two code tables, read off entry by entry. -/
theorem statusCodes : Obligations.StatusCodes :=
  ⟨rfl, rfl, rfl, rfl, rfl, rfl, rfl, rfl, rfl, rfl, rfl, rfl⟩

end Sys2Proof.Machine

/-! Reset and hazards (spec file 70_reset_and_hazards.md): what a reset leaves, and that the traffic during a command
does not reach its results. -/

namespace Sys2Proof.Machine

/-! Reset (R250, R252). -/

/-- Settles O11: a reset at the front is the whole step; it keeps only the parameters and the events after it, and
counts itself. -/
theorem resetEventRestoresRegisters : Obligations.ResetEventRestoresRegisters := by
  intro s rest hp
  have hstep : step s = .next { s with pending := rest }.resetEvent := step_of_pending hp
  refine ⟨_, hstep, ?_⟩
  simp [State.irq, State.reset]

/-! Traffic while a command runs (R270, U3). -/

/-- The state with the parts that transactions can reach while a command runs: `IE`, `DONE`, the last response, and the
events still to happen (R116, R118). -/
def State.afterTraffic (s : State) (ie done : Bool) (resp : Option Response) (pending : List Event) : State :=
  { s with ie := ie, done := done, resp := resp, pending := pending }

/-- No traffic is the case in which each of the parts is as it was. -/
theorem afterTraffic_self (s : State) : s.afterTraffic s.ie s.done s.resp s.pending = s := rfl

/-- While busy a transaction only answers, or writes a register that is not locked. -/
theorem eventResult_host_eq_afterTraffic {u : State} {r : Request} {t : State} (hb : u.busy = true)
    (hr : EventResult u (.host r) t) : t = u.afterTraffic t.ie t.done t.resp u.pending := by
  cases hr with
  | answered => rfl
  | wroteWord _ _ _ hidle => simp [hb] at hidle
  | wroteRegister g _ _ hl =>
    have hlock : g.locked = false := by simpa [hb] using hl
    rw [regWrite_unlocked_frame u r.wdata hlock]
    rfl

/-- A transaction at the front is one step, which leaves the command in execution. -/
theorem step_host_eq_afterTraffic {s : State} {r : Request} {rest : List Event} (hb : s.busy = true)
    (hp : s.pending = .host r :: rest) :
    ∃ ie done resp, step s = .next (s.afterTraffic ie done resp rest) := by
  obtain ⟨t, ht⟩ := exec_isNext (decodeRequest r) { s with pending := rest }
  have hstep : step s = .next t := (step_of_pending hp).trans ht
  have hafter := eventResult_host_eq_afterTraffic (u := { s with pending := rest }) hb (eventResult_host ht)
  exact ⟨t.ie, t.done, t.resp, hstep.trans (congrArg _ hafter)⟩

/-- All the traffic together, by induction on it: each transaction finds the command still in execution, and the ones
after it reach no more than it does. -/
theorem stepN_traffic {s : State} {traffic : List Request} (n : Nat) (hb : s.busy = true)
    (hp : s.pending = traffic.map Event.host) :
    ∃ ie done resp, stepN (traffic.length + n) s = stepN n (s.afterTraffic ie done resp []) := by
  induction traffic generalizing s with
  | nil =>
    have hself : s.afterTraffic s.ie s.done s.resp [] = s := by rw [← show s.pending = [] from hp, afterTraffic_self]
    exact ⟨s.ie, s.done, s.resp, by rw [hself, List.length_nil, Nat.zero_add]⟩
  | cons r rest ih =>
    obtain ⟨ie, done, resp, hstep⟩ := step_host_eq_afterTraffic hb hp
    obtain ⟨ie', done', resp', hrest⟩ := ih (s := s.afterTraffic ie done resp (rest.map Event.host)) hb rfl
    refine ⟨ie', done', resp', ?_⟩
    rw [List.length_cons, Nat.add_right_comm, stepN_of_step hstep, hrest]
    rfl

section
variable {op : BitVec 8} {i : Instr} {c : State → Option ErrCode} {f : State → State}

/-- No command's checks read what traffic can reach. -/
theorem checks_afterTraffic (hf : CommandIs op i c f) (s : State) (ie done : Bool) (resp : Option Response)
    (p : List Event) : c (s.afterTraffic ie done resp p) = c s := by
  cases hf <;> rfl

/-- No command's effect reads what traffic can reach, nor writes it. -/
theorem command_afterTraffic (hf : CommandIs op i c f) (s : State) (ie done : Bool) (resp : Option Response)
    (p : List Event) : f (s.afterTraffic ie done resp p) = (f s).afterTraffic ie done resp p := by
  cases hf <;> rfl

/-- A completion step raises `DONE` and passes on the rest of what traffic can reach. -/
theorem complete_afterTraffic (hf : CommandIs op i c f) {s : State} (hb : s.busy = true) (ie done : Bool)
    (resp : Option Response) (p : List Event) :
    (s.afterTraffic ie done resp p).complete (c (s.afterTraffic ie done resp p)) f =
      (s.complete (c s) f).afterTraffic ie true resp p := by
  rw [checks_afterTraffic hf]
  cases c s with
  | some e =>
    rw [complete_fail hb, complete_fail (s := s.afterTraffic ie done resp p) hb]
    rfl
  | none =>
    rw [complete_succeed hb, complete_succeed (s := s.afterTraffic ie done resp p) hb, command_afterTraffic hf]
    rfl

end

/-- The traffic does not reach the completion: one state `u` is the result under any of it. -/
theorem engineTurn_afterTraffic {s : State} (hb : s.busy = true) :
    ∃ u : State, ∀ ie done resp p,
      engineTurn (s.afterTraffic ie done resp p) = .next (u.afterTraffic ie true resp p) := by
  cases hd : decodeOpcode s.op with
  | ok i =>
    obtain ⟨c, f, hf⟩ := commandIs_of_decodeOpcode hd
    refine ⟨s.complete (c s) f, fun ie done resp p => ?_⟩
    rw [engineTurn_busy (s := s.afterTraffic ie done resp p) hb hd, exec_command hf, complete_afterTraffic hf hb]
  | error e =>
    exact ⟨s.failCommand .illegalCommand, fun ie done resp p =>
      engineTurn_reserved (s := s.afterTraffic ie done resp p) hb hd⟩

/-- Settles O40: with the traffic and without it the engine's turn completes the same command. -/
theorem trafficDoesNotChangeResults : Obligations.TrafficDoesNotChangeResults := by
  intro s traffic hb hp
  obtain ⟨u, hu⟩ := engineTurn_afterTraffic hb
  obtain ⟨ie, done, resp, htraffic⟩ := stepN_traffic 1 hb hp
  refine ⟨u.afterTraffic ie true resp [], u.afterTraffic s.ie true s.resp [], ?_, ?_, rfl⟩
  · exact htraffic.trans (stepN_of_step (hu ie done resp []))
  · exact hu s.ie s.done s.resp []

end Sys2Proof.Machine
